-- ==== Sys2Proof/Word.lean ====
section
/-!
DEFINITION. The words that cross the command port and the names of what they mean
(spec/30_encoding.md R60, R64; spec/10_state.md R21, R22).
-/

namespace Sys2Proof

/-- A command word, 32 bits (R60). -/
abbrev CommandWord := BitVec 32

/-- A 64-bit scalar: `A`, `B64` or the response data (R11, R64). -/
abbrev Scalar := BitVec 64

/-- The number of a Natural register, `N0` to `N15` (R7, R21). -/
abbrev Reg := Fin 16

/-- The stored limbs of a Natural register, least significant first; `LEN` is their number (R22).
The spec writes a limb, a number below `2^W`, as a mathematical integer (R9). -/
abbrev StoredLimbs := List Nat

/-- A command as it crosses the port: one word and its two scalars (R60). -/
structure Command where
  word : CommandWord
  a    : Scalar
  b    : Scalar
  deriving DecidableEq, Repr

end Sys2Proof
end

