-- ==== Sys2Proof/Syntax.lean ====
section
/-!
DEFINITION. The 31 commands (spec/30_encoding.md R67), one constructor per row of
spec/opcode_table.json.  An operand is a register number or a 64-bit scalar the command uses (R64);
a scalar a command ignores is no part of it.
-/

namespace Sys2Proof

/-- The nine formats: which register fields a command uses (R61). -/
inductive Format where
  | z | d | s | ds | ss | dss | ddss | dsss | dddss
  deriving DecidableEq, Repr

/-- The 31 mnemonics (R67). -/
inductive Mnemonic where
  | nop | rdsr | clrf
  | setp | mov | wrl | rdl | len | norm
  | add | addp | sub | subp | cmp
  | mul
  | divrem | div | rem
  | getbit | setbit | clrbit | asgbit | getbits | asgbits | cnt1 | cnt0 | lz | tz | bitlen
  | xgcd
  | modpow
  deriving DecidableEq, Repr

/-- A command with its operands.  Register operands stand in the assembler's order, destinations
first (R72); then the scalars, `A` before `B64`. -/
inductive Instr where
  | nop
  | rdsr (a : Scalar)
  | clrf
  | setp (rd : Reg) (a : Scalar)
  | mov (rd rs1 : Reg)
  | wrl (rd : Reg) (a b : Scalar)
  | rdl (rs1 : Reg) (a : Scalar)
  | len (rs1 : Reg)
  | norm (rd : Reg)
  | add (rd rs1 rs2 : Reg)
  | addp (rd rs1 : Reg) (a : Scalar)
  | sub (rd rs1 rs2 : Reg)
  | subp (rd rs1 : Reg) (a : Scalar)
  | cmp (rs1 rs2 : Reg)
  | mul (rd rs1 rs2 : Reg)
  | divrem (rd rd2 rs1 rs2 : Reg)
  | div (rd rs1 rs2 : Reg)
  | rem (rd rs1 rs2 : Reg)
  | getbit (rs1 : Reg) (a : Scalar)
  | setbit (rd : Reg) (a : Scalar)
  | clrbit (rd : Reg) (a : Scalar)
  | asgbit (rd : Reg) (a b : Scalar)
  | getbits (rd rs1 : Reg) (a b : Scalar)
  | asgbits (rd rs1 : Reg) (a b : Scalar)
  | cnt1 (rs1 : Reg)
  | cnt0 (rs1 : Reg)
  | lz (rs1 : Reg)
  | tz (rs1 : Reg)
  | bitlen (rs1 : Reg)
  | xgcd (rd rd2 rd3 rs1 rs2 : Reg)
  | modpow (rd rs1 rs2 rs3 : Reg)
  deriving DecidableEq, Repr

/-- The pseudo-instructions (R73): other spellings of sequences of commands. -/
inductive Pseudo where
  | clr (nd : Reg)
  | inc (nd : Reg)
  | dec (nd : Reg)
  | ldn (nd : Reg) (limbs : List Scalar)
  deriving DecidableEq, Repr

end Sys2Proof
end

