-- ==== Sys2Proof/WellFormed.lean ====
section
/-!
DEFINITION. What makes a command that matches a row of the table illegal all the same: equal
destinations (spec/30_encoding.md R70) and a system register that does not exist (R71).
-/

namespace Sys2Proof

/-- The destinations of one command are distinct registers (R70). -/
def Instr.destinationsDistinct : Instr → Bool
  | .divrem rd rd2 _ _ => rd ≠ rd2
  | .xgcd rd rd2 rd3 _ _ => rd ≠ rd2 ∧ rd ≠ rd3 ∧ rd2 ≠ rd3
  | .nop | .rdsr _ | .clrf | .setp _ _ | .mov _ _ | .wrl _ _ _ | .rdl _ _ | .len _ | .norm _
  | .add _ _ _ | .addp _ _ _ | .sub _ _ _ | .subp _ _ _ | .cmp _ _ | .mul _ _ _ | .div _ _ _
  | .rem _ _ _ | .getbit _ _ | .setbit _ _ | .clrbit _ _ | .asgbit _ _ _ | .getbits _ _ _ _
  | .asgbits _ _ _ _ | .cnt1 _ | .cnt0 _ | .lz _ | .tz _ | .bitlen _ | .modpow _ _ _ _ => true

/-- RDSR names a system register that exists, SR0 or SR1 (R30, R71). -/
def Instr.systemRegisterExists : Instr → Bool
  | .rdsr a => a.toNat < 2
  | .nop | .clrf | .setp _ _ | .mov _ _ | .wrl _ _ _ | .rdl _ _ | .len _ | .norm _
  | .add _ _ _ | .addp _ _ _ | .sub _ _ _ | .subp _ _ _ | .cmp _ _ | .mul _ _ _
  | .divrem _ _ _ _ | .div _ _ _ | .rem _ _ _ | .getbit _ _ | .setbit _ _ | .clrbit _ _
  | .asgbit _ _ _ | .getbits _ _ _ _ | .asgbits _ _ _ _ | .cnt1 _ | .cnt0 _ | .lz _ | .tz _
  | .bitlen _ | .xgcd _ _ _ _ _ | .modpow _ _ _ _ => true

/-- A legal command (R68 to R71): every other command raises IllegalCommand (R218). -/
def Instr.wellFormed (i : Instr) : Bool :=
  i.destinationsDistinct && i.systemRegisterExists

end Sys2Proof
end

