-- ==== Sys2Proof/Decode.lean ====
section
/-!
DEFINITION. The decoder and the encoder of command words (spec/30_encoding.md R60, R61, R67 to R69),
both over one table of opcodes and formats.
-/

namespace Sys2Proof

/-- Every mnemonic, in the order of the opcode map (R67). -/
def Mnemonic.all : List Mnemonic :=
  [.nop, .rdsr, .clrf,
   .setp, .mov, .wrl, .rdl, .len, .norm,
   .add, .addp, .sub, .subp, .cmp, .mul, .divrem, .div, .rem,
   .getbit, .setbit, .clrbit, .asgbit, .getbits, .asgbits,
   .cnt1, .cnt0, .lz, .tz, .bitlen, .xgcd, .modpow]

/-- `OPC` of each command (R67). -/
def Mnemonic.opcode : Mnemonic → BitVec 8
  | .nop => 0x00#8
  | .rdsr => 0x01#8
  | .clrf => 0x02#8
  | .setp => 0x10#8
  | .mov => 0x11#8
  | .wrl => 0x12#8
  | .rdl => 0x13#8
  | .len => 0x14#8
  | .norm => 0x15#8
  | .add => 0x20#8
  | .addp => 0x21#8
  | .sub => 0x22#8
  | .subp => 0x23#8
  | .cmp => 0x24#8
  | .mul => 0x30#8
  | .divrem => 0x40#8
  | .div => 0x41#8
  | .rem => 0x42#8
  | .getbit => 0x50#8
  | .setbit => 0x51#8
  | .clrbit => 0x52#8
  | .asgbit => 0x53#8
  | .getbits => 0x54#8
  | .asgbits => 0x55#8
  | .cnt1 => 0x58#8
  | .cnt0 => 0x59#8
  | .lz => 0x5A#8
  | .tz => 0x5B#8
  | .bitlen => 0x5C#8
  | .xgcd => 0x60#8
  | .modpow => 0x70#8

/-- The format of each command (R61). -/
def Mnemonic.format : Mnemonic → Format
  | .nop | .rdsr | .clrf => .z
  | .setp | .wrl | .norm | .setbit | .clrbit | .asgbit => .d
  | .rdl | .len | .getbit | .cnt1 | .cnt0 | .lz | .tz | .bitlen => .s
  | .mov | .addp | .subp | .getbits | .asgbits => .ds
  | .cmp => .ss
  | .add | .sub | .mul | .div | .rem => .dss
  | .divrem => .ddss
  | .modpow => .dsss
  | .xgcd => .dddss

/-- The word bits a decoder compares: `OPC` and the fields the format does not use (R61). -/
def Format.mask : Format → CommandWord
  | .z => 0xFFFFFFFF#32
  | .d => 0xFF0FFFFF#32
  | .s => 0xFFFFF0FF#32
  | .ds => 0xFF0FF0FF#32
  | .ss => 0xFFFFF00F#32
  | .dss => 0xFF0FF00F#32
  | .ddss => 0xFF00F00F#32
  | .dsss => 0xFF0FF000#32
  | .dddss => 0xFF00000F#32

/-- `match`: the opcode in bits 31:24, zeros below (R67). -/
def Mnemonic.matchWord (m : Mnemonic) : CommandWord :=
  m.opcode ++ 0#24

/-- `OPC`, bits 31:24 (R60). -/
def opcOf (w : CommandWord) : BitVec 8 := w.extractLsb' 24 8

/-- The register a 4-bit field names: value `i` names `Ni` (R60). -/
def regAt (w : CommandWord) (lo : Nat) : Reg := (w.extractLsb' lo 4).toFin

/-- `RD`, bits 23:20 (R60). -/
def rdOf (w : CommandWord) : Reg := regAt w 20

/-- `RD2`, bits 19:16 (R60). -/
def rd2Of (w : CommandWord) : Reg := regAt w 16

/-- `RD3`, bits 15:12 (R60). -/
def rd3Of (w : CommandWord) : Reg := regAt w 12

/-- `RS1`, bits 11:8 (R60). -/
def rs1Of (w : CommandWord) : Reg := regAt w 8

/-- `RS2`, bits 7:4 (R60). -/
def rs2Of (w : CommandWord) : Reg := regAt w 4

/-- `RS3`, bits 3:0 (R60). -/
def rs3Of (w : CommandWord) : Reg := regAt w 0

/-- The command of a mnemonic with the operands of a port command: the register fields its format
uses (R61) and the scalars it uses (R64). -/
def Mnemonic.build (m : Mnemonic) (c : Command) : Instr :=
  match m with
  | .nop => .nop
  | .rdsr => .rdsr c.a
  | .clrf => .clrf
  | .setp => .setp (rdOf c.word) c.a
  | .mov => .mov (rdOf c.word) (rs1Of c.word)
  | .wrl => .wrl (rdOf c.word) c.a c.b
  | .rdl => .rdl (rs1Of c.word) c.a
  | .len => .len (rs1Of c.word)
  | .norm => .norm (rdOf c.word)
  | .add => .add (rdOf c.word) (rs1Of c.word) (rs2Of c.word)
  | .addp => .addp (rdOf c.word) (rs1Of c.word) c.a
  | .sub => .sub (rdOf c.word) (rs1Of c.word) (rs2Of c.word)
  | .subp => .subp (rdOf c.word) (rs1Of c.word) c.a
  | .cmp => .cmp (rs1Of c.word) (rs2Of c.word)
  | .mul => .mul (rdOf c.word) (rs1Of c.word) (rs2Of c.word)
  | .divrem => .divrem (rdOf c.word) (rd2Of c.word) (rs1Of c.word) (rs2Of c.word)
  | .div => .div (rdOf c.word) (rs1Of c.word) (rs2Of c.word)
  | .rem => .rem (rdOf c.word) (rs1Of c.word) (rs2Of c.word)
  | .getbit => .getbit (rs1Of c.word) c.a
  | .setbit => .setbit (rdOf c.word) c.a
  | .clrbit => .clrbit (rdOf c.word) c.a
  | .asgbit => .asgbit (rdOf c.word) c.a c.b
  | .getbits => .getbits (rdOf c.word) (rs1Of c.word) c.a c.b
  | .asgbits => .asgbits (rdOf c.word) (rs1Of c.word) c.a c.b
  | .cnt1 => .cnt1 (rs1Of c.word)
  | .cnt0 => .cnt0 (rs1Of c.word)
  | .lz => .lz (rs1Of c.word)
  | .tz => .tz (rs1Of c.word)
  | .bitlen => .bitlen (rs1Of c.word)
  | .xgcd => .xgcd (rdOf c.word) (rd2Of c.word) (rd3Of c.word) (rs1Of c.word) (rs2Of c.word)
  | .modpow => .modpow (rdOf c.word) (rs1Of c.word) (rs2Of c.word) (rs3Of c.word)

/-- Why the decoder refuses a word.  Both are IllegalCommand at the port (R218). -/
inductive DecodeError where
  /-- `OPC` is in no row of the opcode map (R68). -/
  | undefinedOpcode
  /-- A register field the format does not use is not zero (R69). -/
  | unusedFieldNotZero
  deriving DecidableEq, Repr

/-- The row of the opcode map an `OPC` value selects (R67, R68). -/
def Mnemonic.ofOpcode? (opc : BitVec 8) : Option Mnemonic :=
  Mnemonic.all.find? (fun m => m.opcode == opc)

/-- The decoder, total on every command: the row `OPC` selects (R68), then the test that the unused
fields are zero, `w AND mask = match` (R61, R69).  The two remaining tests of legality, R70 and R71,
are `Instr.wellFormed`; the meanings make them (R131, R180, R201). -/
def decode (c : Command) : Except DecodeError Instr :=
  match Mnemonic.ofOpcode? (opcOf c.word) with
  | none => .error .undefinedOpcode
  | some m =>
    if c.word &&& m.format.mask = m.matchWord then .ok (m.build c)
    else .error .unusedFieldNotZero

/-- The 4 bits that name a register (R60). -/
def regBits (r : Reg) : BitVec 4 := BitVec.ofNat 4 r.val

/-- A command word from its opcode and its six register fields (R60). -/
def wordOf (m : Mnemonic) (rd rd2 rd3 rs1 rs2 rs3 : Reg) : CommandWord :=
  m.opcode ++ regBits rd ++ regBits rd2 ++ regBits rd3 ++ regBits rs1 ++ regBits rs2 ++ regBits rs3

/-- The encoder: unused register fields are zero (R69), an ignored scalar is encoded as 0 (R74). -/
def encode : Instr → Command
  | .nop => ⟨wordOf .nop 0 0 0 0 0 0, 0, 0⟩
  | .rdsr a => ⟨wordOf .rdsr 0 0 0 0 0 0, a, 0⟩
  | .clrf => ⟨wordOf .clrf 0 0 0 0 0 0, 0, 0⟩
  | .setp rd a => ⟨wordOf .setp rd 0 0 0 0 0, a, 0⟩
  | .mov rd rs1 => ⟨wordOf .mov rd 0 0 rs1 0 0, 0, 0⟩
  | .wrl rd a b => ⟨wordOf .wrl rd 0 0 0 0 0, a, b⟩
  | .rdl rs1 a => ⟨wordOf .rdl 0 0 0 rs1 0 0, a, 0⟩
  | .len rs1 => ⟨wordOf .len 0 0 0 rs1 0 0, 0, 0⟩
  | .norm rd => ⟨wordOf .norm rd 0 0 0 0 0, 0, 0⟩
  | .add rd rs1 rs2 => ⟨wordOf .add rd 0 0 rs1 rs2 0, 0, 0⟩
  | .addp rd rs1 a => ⟨wordOf .addp rd 0 0 rs1 0 0, a, 0⟩
  | .sub rd rs1 rs2 => ⟨wordOf .sub rd 0 0 rs1 rs2 0, 0, 0⟩
  | .subp rd rs1 a => ⟨wordOf .subp rd 0 0 rs1 0 0, a, 0⟩
  | .cmp rs1 rs2 => ⟨wordOf .cmp 0 0 0 rs1 rs2 0, 0, 0⟩
  | .mul rd rs1 rs2 => ⟨wordOf .mul rd 0 0 rs1 rs2 0, 0, 0⟩
  | .divrem rd rd2 rs1 rs2 => ⟨wordOf .divrem rd rd2 0 rs1 rs2 0, 0, 0⟩
  | .div rd rs1 rs2 => ⟨wordOf .div rd 0 0 rs1 rs2 0, 0, 0⟩
  | .rem rd rs1 rs2 => ⟨wordOf .rem rd 0 0 rs1 rs2 0, 0, 0⟩
  | .getbit rs1 a => ⟨wordOf .getbit 0 0 0 rs1 0 0, a, 0⟩
  | .setbit rd a => ⟨wordOf .setbit rd 0 0 0 0 0, a, 0⟩
  | .clrbit rd a => ⟨wordOf .clrbit rd 0 0 0 0 0, a, 0⟩
  | .asgbit rd a b => ⟨wordOf .asgbit rd 0 0 0 0 0, a, b⟩
  | .getbits rd rs1 a b => ⟨wordOf .getbits rd 0 0 rs1 0 0, a, b⟩
  | .asgbits rd rs1 a b => ⟨wordOf .asgbits rd 0 0 rs1 0 0, a, b⟩
  | .cnt1 rs1 => ⟨wordOf .cnt1 0 0 0 rs1 0 0, 0, 0⟩
  | .cnt0 rs1 => ⟨wordOf .cnt0 0 0 0 rs1 0 0, 0, 0⟩
  | .lz rs1 => ⟨wordOf .lz 0 0 0 rs1 0 0, 0, 0⟩
  | .tz rs1 => ⟨wordOf .tz 0 0 0 rs1 0 0, 0, 0⟩
  | .bitlen rs1 => ⟨wordOf .bitlen 0 0 0 rs1 0 0, 0, 0⟩
  | .xgcd rd rd2 rd3 rs1 rs2 => ⟨wordOf .xgcd rd rd2 rd3 rs1 rs2 0, 0, 0⟩
  | .modpow rd rs1 rs2 rs3 => ⟨wordOf .modpow rd 0 0 rs1 rs2 rs3, 0, 0⟩

/-- The mnemonic of a command. -/
def Instr.mnemonic : Instr → Mnemonic
  | .nop => .nop
  | .rdsr _ => .rdsr
  | .clrf => .clrf
  | .setp _ _ => .setp
  | .mov _ _ => .mov
  | .wrl _ _ _ => .wrl
  | .rdl _ _ => .rdl
  | .len _ => .len
  | .norm _ => .norm
  | .add _ _ _ => .add
  | .addp _ _ _ => .addp
  | .sub _ _ _ => .sub
  | .subp _ _ _ => .subp
  | .cmp _ _ => .cmp
  | .mul _ _ _ => .mul
  | .divrem _ _ _ _ => .divrem
  | .div _ _ _ => .div
  | .rem _ _ _ => .rem
  | .getbit _ _ => .getbit
  | .setbit _ _ => .setbit
  | .clrbit _ _ => .clrbit
  | .asgbit _ _ _ => .asgbit
  | .getbits _ _ _ _ => .getbits
  | .asgbits _ _ _ _ => .asgbits
  | .cnt1 _ => .cnt1
  | .cnt0 _ => .cnt0
  | .lz _ => .lz
  | .tz _ => .tz
  | .bitlen _ => .bitlen
  | .xgcd _ _ _ _ _ => .xgcd
  | .modpow _ _ _ _ => .modpow

/-- A command laid out as one number of 160 bits: the word in bits 31:0, `A` in bits 95:32, `B64` in
bits 159:96.  DESIGN CHOICE (log 7): the spec transfers the three together and numbers no bit across
them (R60, R63). -/
def Command.ofBits (w : Nat) : Command :=
  ⟨BitVec.ofNat 32 w, BitVec.ofNat 64 (w >>> 32), BitVec.ofNat 64 (w >>> 96)⟩

/-- The instruction the decoder reads from an instruction whose low `nbits` bits are those of `w` and
whose other bits, the scalars among them, are zero. -/
def decodeTableWord (nbits w : Nat) : Option Instr :=
  match decode (Command.ofBits (w % 2 ^ nbits)) with
  | .ok i => some i
  | .error _ => none

end Sys2Proof
end

