-- ==== Sys2Proof/Config.lean ====
section
/-!
DEFINITION. The three open parameters of an instance (spec/00_scope.md R5, R6, R8; spec/10_state.md
R37).  The spec leaves nothing else open, so there is no free value here.
-/

namespace Sys2Proof

/-- The two legal limb widths (R5). -/
inductive LimbWidth where
  | w32
  | w64
  deriving DecidableEq, Repr

/-- The width `W` in bits (R5). -/
def LimbWidth.bits : LimbWidth → Nat
  | .w32 => 32
  | .w64 => 64

/-- The parameters of one instance, fixed for its life. -/
structure Config where
  /-- `W` (R5) -/
  width    : LimbWidth
  /-- `MAXLIMBS` (R6) -/
  maxLimbs : Nat
  /-- `KT`; `none` is `KT = infinity`, schoolbook only (R8) -/
  kt       : Option Nat
  deriving DecidableEq, Repr

/-- The legal parameter values: `2 <= MAXLIMBS <= 2^24` (R6) and `KT >= 8` (R8). -/
def Config.valid (c : Config) : Bool :=
  decide (2 ≤ c.maxLimbs) && decide (c.maxLimbs ≤ 16777216) && c.kt.all (fun k => decide (8 ≤ k))

/-- The reference instance of the spec's vectors: `W = 32`, `MAXLIMBS = 64`, `KT = 32`
(R5, R6, R8).  DESIGN CHOICE (log 2): the instance `State.reset` takes; no statement rests on it. -/
def Config.reference : Config :=
  { width := .w32, maxLimbs := 64, kt := some 32 }

end Sys2Proof
end

