-- ==== Sys2Proof/Machine/State.lean ====
section
/-!
DEFINITION. The state of one MLU instance (spec/10_state.md R20 to R37) and its reset value (R36),
with the host's side of the command port as plain data (log 3).
-/

namespace Sys2Proof.Machine

/-- The response codes (spec/60_exceptions.md R221).  A fault is a code other than `ok` (R210). -/
inductive Code where
  | ok
  | underflow
  | divisionByZero
  | overflow
  /-- reserved, never raised (R214) -/
  | invalidDigit
  /-- reserved, never raised (R215) -/
  | invalidBase
  | invalidBitRange
  | illegalCommand
  | capacityExceeded
  | halted
  | invariantViolation
  deriving DecidableEq, Repr

/-- A response: `CODE` and `DATA` (spec/30_encoding.md R65). -/
structure Response where
  code : Code
  data : Scalar
  deriving DecidableEq, Repr

/-- The port state (R32). -/
inductive Port where
  /-- IDLE: no command in hand, no response pending -/
  | idle
  /-- BUSY: the accepted command is executing -/
  | busy (c : Command)
  /-- RESP: a response is pending -/
  | resp (r : Response)
  deriving DecidableEq, Repr

/-- STATUS (SR0), its ten defined bits (R27, R28).  The reserved bits are hard-wired to 0 and are
put back where the word is read (`Status.toWord`). -/
structure Status where
  halt        : Bool
  fUnderflow  : Bool
  fDivZero    : Bool
  fOverflow   : Bool
  fInvDigit   : Bool
  fInvBase    : Bool
  fBitRange   : Bool
  fIllegal    : Bool
  fCapacity   : Bool
  fInvariant  : Bool
  deriving DecidableEq, Repr

/-- STATUS after reset: every bit 0 (R36). -/
def Status.clear : Status :=
  { halt := false, fUnderflow := false, fDivZero := false, fOverflow := false, fInvDigit := false,
    fInvBase := false, fBitRange := false, fIllegal := false, fCapacity := false,
    fInvariant := false }

/-- What the host does next at the port (R31, R32; spec/70_reset_and_hazards.md R242, R248). -/
inductive HostAction where
  /-- transfer a command: `cmd_valid = 1` in a cycle with `cmd_ready = 1` -/
  | command (c : Command)
  /-- take the response: `rsp_ready = 1` in a cycle with `rsp_valid = 1` -/
  | takeResponse
  /-- do nothing while the block goes on -/
  | wait
  /-- assert reset: `rst_n = 0` at a rising edge -/
  | reset
  deriving DecidableEq, Repr

/-- The limb store, the block's one memory: the limbs of the sixteen Natural registers
(spec/20_memory.md R40, R41).  A register is its list of limbs, so that in canonical form equal
values are equal lists. -/
abbrev Memory := Vector StoredLimbs 16

/-- The state of one instance and of the host's side of its port. -/
structure State where
  /-- the instance's parameters, which CFG (SR1) shows; no step writes them (R29, R37) -/
  cfg       : Config
  /-- the stored limbs of `N0` to `N15` (R21, R22) -/
  regs      : Memory
  /-- STATUS, SR0 (R27) -/
  status    : Status
  /-- the port state (R32) -/
  port      : Port
  /-- MODEL: the host's next actions, the next one first (log 3) -/
  inputs    : List HostAction
  /-- MODEL: the responses the host has taken, oldest first (log 3) -/
  delivered : List Response
  deriving DecidableEq, Repr

/-- The reset state of an instance: every register 0 (`LEN = 0`), STATUS 0, port IDLE (R36, R241);
the host has nothing to do and has taken nothing (DESIGN CHOICE, log 3). -/
def State.resetOf (cfg : Config) : State :=
  { cfg := cfg, regs := Vector.replicate 16 [], status := Status.clear, port := .idle,
    inputs := [], delivered := [] }

/-- The reset state of the reference instance (DESIGN CHOICE, log 2). -/
def State.reset : State := State.resetOf Config.reference

/-- The reasons a step of the model can stop.  A fault of the block is no stop: it is a response
code (spec/60_exceptions.md R210, R223). -/
inductive Fault where
  /-- Raised by the port, never by a command: the host's next transfer can never happen, since it
  offers a command while a response it does not take is pending, or waits to take a response while
  no command is in the block (spec/93_implementation_defined.md I20, stuck; R248).  Safe: the block
  waits for good with its state held. -/
  | hostStalled
  deriving DecidableEq, Repr

/-- The reasons the model refuses an instruction. -/
inductive Refusal where
  /-- Raised by an arm of `exec` whose instruction has no meaning yet; no arm is one.  Safe. -/
  | notModelled (mnemonic : String)
  deriving DecidableEq, Repr

/-- What a step answers. -/
abbrev StepResult := Host.Outcome State Fault Refusal

end Sys2Proof.Machine
end

