-- ==== Sys2Proof/Machine/Flags.lean ====
section
/-!
DEFINITION. The numbers of the response codes (spec/60_exceptions.md R221), the sticky bits of STATUS
and its word (spec/10_state.md R27, R28), and the word of CFG (R29).  The block has no arithmetic
flags (R34).
-/

namespace Sys2Proof.Machine

/-- The 8-bit number of a code (R221). -/
def Code.toByte : Code → BitVec 8
  | .ok => 0x00#8
  | .underflow => 0x01#8
  | .divisionByZero => 0x02#8
  | .overflow => 0x03#8
  | .invalidDigit => 0x04#8
  | .invalidBase => 0x05#8
  | .invalidBitRange => 0x06#8
  | .illegalCommand => 0x10#8
  | .capacityExceeded => 0x11#8
  | .halted => 0x12#8
  | .invariantViolation => 0x13#8

/-- The STATUS bit a code sets: `8 + (code - 1)` for codes 0x01 to 0x06, 14, 15 and 16 for 0x10, 0x11
and 0x13; OK and Halted set none (R28). -/
def Code.stickyBit : Code → Option Nat
  | .ok => none
  | .underflow => some 8
  | .divisionByZero => some 9
  | .overflow => some 10
  | .invalidDigit => some 11
  | .invalidBase => some 12
  | .invalidBitRange => some 13
  | .illegalCommand => some 14
  | .capacityExceeded => some 15
  | .halted => none
  | .invariantViolation => some 16

/-- STATUS after a command that answered `c`: the sticky bit of `c` set (R28), and HALT too for an
InvariantViolation (R220). -/
def Status.record (t : Status) (c : Code) : Status :=
  match c with
  | .ok | .halted => t
  | .underflow => { t with fUnderflow := true }
  | .divisionByZero => { t with fDivZero := true }
  | .overflow => { t with fOverflow := true }
  | .invalidDigit => { t with fInvDigit := true }
  | .invalidBase => { t with fInvBase := true }
  | .invalidBitRange => { t with fBitRange := true }
  | .illegalCommand => { t with fIllegal := true }
  | .capacityExceeded => { t with fCapacity := true }
  | .invariantViolation => { t with halt := true, fInvariant := true }

/-- `STATUS[15:8] <- 0` (spec/47_system.md R202): bits 8 to 15; HALT and F_INVARIANT stay. -/
def Status.clearFaults (t : Status) : Status :=
  { t with fUnderflow := false, fDivZero := false, fOverflow := false, fInvDigit := false,
           fInvBase := false, fBitRange := false, fIllegal := false, fCapacity := false }

/-- The STATUS word, SR0 (R27): HALT in bit 0, the sticky bits in 16:8, reserved bits 0. -/
def Status.toWord (t : Status) : Scalar :=
  0#47 ++ BitVec.ofBool t.fInvariant ++ BitVec.ofBool t.fCapacity ++ BitVec.ofBool t.fIllegal ++
  BitVec.ofBool t.fBitRange ++ BitVec.ofBool t.fInvBase ++ BitVec.ofBool t.fInvDigit ++
  BitVec.ofBool t.fOverflow ++ BitVec.ofBool t.fDivZero ++ BitVec.ofBool t.fUnderflow ++
  0#7 ++ BitVec.ofBool t.halt

end Sys2Proof.Machine

namespace Sys2Proof

/-- The CFG field KT: `min(KT, 65535)`; 65535 also stands for schoolbook only (R29). -/
def Config.ktField (c : Config) : Nat :=
  match c.kt with
  | some k => min k 65535
  | none => 65535

/-- The CFG word, SR1 (R29): KT in 63:48, MAXLIMBS in 47:16, NREG = 16 in 15:8, W in 7:0. -/
def Config.toWord (c : Config) : Scalar :=
  BitVec.ofNat 16 c.ktField ++ BitVec.ofNat 32 c.maxLimbs ++ 16#8 ++
  BitVec.ofNat 8 c.width.bits

end Sys2Proof
end

