-- ==== Sys2Proof/Machine/Operands.lean ====
section
/-!
DEFINITION. The quantities every command is written in (spec/00_scope.md R9, R10; spec/44_bits.md
R167), the stored form of a value (spec/10_state.md R22, spec/40_transfer.md R80), and the register
operands of each command (R24, R61).

A shift or a power is guarded by the bit length, so that an index up to `2^64 - 1` costs nothing;
the lemmas of Sys2Proof/Laws/Operands.lean give the spec's plain formulas.
-/

namespace Sys2Proof.Machine

/-- `bitlen(v)`: 0 for 0, else the least `k` with `v < 2^k` (R10). -/
def bitlen (v : Nat) : Nat := if v = 0 then 0 else Nat.log2 v + 1

/-- `shr(v, s) = floor(v / 2^s)` (R167). -/
def shr (v s : Nat) : Nat := if bitlen v ≤ s then 0 else v >>> s

/-- `shl(v, s) = v * 2^s` (R167). -/
def shl (v s : Nat) : Nat := if v = 0 then 0 else v <<< s

/-- `mask(v, k) = v mod 2^k` (R167). -/
def mask (v k : Nat) : Nat := if bitlen v ≤ k then v else v % 2 ^ k

/-- Bit `i` of a value, `floor(v / 2^i) mod 2` (R9, R150). -/
def bitAt (v i : Nat) : Nat := shr v i % 2

end Sys2Proof.Machine

namespace Sys2Proof

open Machine

/-- `W` in bits (R5). -/
def Config.w (c : Config) : Nat := c.width.bits

/-- `B = 2^W` (R5). -/
def Config.base (c : Config) : Nat := 2 ^ c.w

/-- `W * MAXLIMBS`, the capacity of a register in bits (R6). -/
def Config.capBits (c : Config) : Nat := c.w * c.maxLimbs

/-- A register holds exactly the values `v < 2^(W*MAXLIMBS)` (R6). -/
def Config.fits (c : Config) (v : Nat) : Bool := decide (bitlen v ≤ c.capBits)

end Sys2Proof

namespace Sys2Proof.Machine

/-- `len(v)`: the limb count of the canonical form, the least `n` with `v < B^n` (R10). -/
def lenOf (w v : Nat) : Nat := (bitlen v + (w - 1)) / w

/-- `limb(v, k) = floor(v / B^k) mod B` (R10). -/
def limbAt (w v k : Nat) : Nat := mask (shr v (w * k)) w

/-- The canonical limb sequence of a value: `LEN = len(v)`, `limb[k] = limb(v, k)` (R22). -/
def limbsOf (w v : Nat) : StoredLimbs := (List.range (lenOf w v)).map (limbAt w v)

/-- The value of a limb sequence, `sum limb[k] * B^k` (R22, spec/20_memory.md R44). -/
def valueOf (w : Nat) : StoredLimbs → Nat
  | [] => 0
  | l :: ls => l + 2 ^ w * valueOf w ls

/-- `normalize`: strip the zero limbs at the most significant end (R80). -/
def normalize : StoredLimbs → StoredLimbs
  | [] => []
  | l :: ls =>
    match normalize ls with
    | [] => if l = 0 then [] else [l]
    | k :: ks => l :: k :: ks

end Sys2Proof.Machine

namespace Sys2Proof

open Machine

/-- The invariant of R22, which every register read checks (R90): at most `MAXLIMBS` limbs, each
below `B`, the most significant one not zero.  (The cells of the hardware are `W` bits wide, so the
middle clause can only hold there: log 1.) -/
def Config.canonical (c : Config) (ls : StoredLimbs) : Bool :=
  decide (ls.length ≤ c.maxLimbs) && ls.all (fun l => decide (l < c.base)) &&
  decide (ls.getLast? ≠ some 0)

end Sys2Proof

namespace Sys2Proof.Machine

/-- Every register of the limb store is canonical (R22). -/
abbrev Memory.wf (c : Config) (m : Memory) : Prop := ∀ i : Reg, c.canonical m[i.val] = true

/-- The two storage forms, a function of the limb count (R23). -/
inductive StorageForm where
  | inlineForm
  | heapForm
  deriving DecidableEq, Repr

/-- `form(Ni)`: INLINE when `LEN <= 1`, HEAP when `LEN >= 2` (R23). -/
def storageForm (ls : StoredLimbs) : StorageForm :=
  if ls.length ≤ 1 then .inlineForm else .heapForm

end Sys2Proof.Machine

namespace Sys2Proof

/-- The registers a command reads, in the order of its fields: `RS1`, `RS2`, `RS3`, and `RD` where it
is modified in place (R24, R61). -/
def Instr.sources : Instr → List Reg
  | .nop | .rdsr _ | .clrf | .setp _ _ => []
  | .wrl rd _ _ | .norm rd | .setbit rd _ | .clrbit rd _ | .asgbit rd _ _ => [rd]
  | .mov _ rs1 | .rdl rs1 _ | .len rs1 | .addp _ rs1 _ | .subp _ rs1 _ | .getbit rs1 _
  | .getbits _ rs1 _ _ | .cnt1 rs1 | .cnt0 rs1 | .lz rs1 | .tz rs1 | .bitlen rs1 => [rs1]
  | .asgbits rd rs1 _ _ => [rd, rs1]
  | .add _ rs1 rs2 | .sub _ rs1 rs2 | .cmp rs1 rs2 | .mul _ rs1 rs2 | .divrem _ _ rs1 rs2
  | .div _ rs1 rs2 | .rem _ rs1 rs2 | .xgcd _ _ _ rs1 rs2 => [rs1, rs2]
  | .modpow _ rs1 rs2 rs3 => [rs1, rs2, rs3]

/-- The registers a command writes when it completes: `RD`, `RD2`, `RD3` (R24, R61). -/
def Instr.destinations : Instr → List Reg
  | .nop | .rdsr _ | .clrf | .rdl _ _ | .len _ | .cmp _ _ | .getbit _ _ | .cnt1 _ | .cnt0 _ | .lz _
  | .tz _ | .bitlen _ => []
  | .setp rd _ | .mov rd _ | .wrl rd _ _ | .norm rd | .add rd _ _ | .addp rd _ _ | .sub rd _ _
  | .subp rd _ _ | .mul rd _ _ | .div rd _ _ | .rem rd _ _ | .setbit rd _ | .clrbit rd _
  | .asgbit rd _ _ | .getbits rd _ _ _ | .asgbits rd _ _ _ | .modpow rd _ _ _ => [rd]
  | .divrem rd rd2 _ _ => [rd, rd2]
  | .xgcd rd rd2 rd3 _ _ => [rd, rd2, rd3]

end Sys2Proof
end

