-- ==== Sys2Proof/Machine/Ops.lean ====
section
/-!
DEFINITION. The operations every meaning is built from: reading and writing Natural registers
(spec/00_scope.md R10, R13), answering the host, and entering a fault (spec/60_exceptions.md R210,
R219, R223).
-/

namespace Sys2Proof.Machine

/-- The stored limbs of `Ni`. -/
def State.limbs (s : State) (i : Reg) : StoredLimbs := s.regs[i.val]

/-- The value `x[i]`, or none when the stored limbs are not canonical (R10, R90). -/
def State.readNat? (s : State) (i : Reg) : Option Nat :=
  if s.cfg.canonical (s.limbs i) then some (valueOf s.cfg.w (s.limbs i)) else none

/-- `x[i] <- v` for a value that fits: `Ni` holds the canonical limb sequence of `v` (R10, R80). -/
def State.writeNat (s : State) (i : Reg) (v : Nat) : State :=
  { s with regs := s.regs.set i.val (limbsOf s.cfg.w v) }

/-- All the register writes of one command, which take effect together (R13). -/
def State.writeAll (s : State) : List (Reg × Nat) → State
  | [] => s
  | (i, v) :: rest => (s.writeNat i v).writeAll rest

/-- The command ends with a response, which the port offers (R32, R65). -/
def State.respond (s : State) (code : Code) (data : Scalar) : State :=
  { s with port := .resp { code := code, data := data } }

/-- Fault entry, the one shared operation (R223; for InvariantViolation R220): no Natural register
changes, the sticky bit is set in STATUS, the response is `(code, 0)`.  There is no return from a
fault: nothing is entered (R225); the port is IDLE again when the response is taken. -/
def State.takeFault (s : State) (c : Code) : State :=
  { s with status := s.status.record c, port := .resp { code := c, data := 0 } }

/-- `raise <Fault>` (R13). -/
def raise (s : State) (c : Code) : StepResult := .next (s.takeFault c)

/-- The first common fault (R210 step 1): while STATUS.HALT = 1 the command is answered Halted and
changes nothing else (R219). -/
def unlessHalted (s : State) (k : StepResult) : StepResult :=
  if s.status.halt then .next (s.respond .halted 0) else k

/-- The third common fault (R210 step 3): a register read checks canonical form (R90). -/
def withReg (s : State) (i : Reg) (k : Nat → StepResult) : StepResult :=
  match s.readNat? i with
  | some v => k v
  | none => raise s .invariantViolation

/-- A command completes: every write must fit, else CapacityExceeded and nothing is written (R10,
R13, R217); then all are written together and the response is `(OK, data)`. -/
def finish (s : State) (writes : List (Reg × Nat)) (data : Scalar) : StepResult :=
  if writes.all (fun p => s.cfg.fits p.2) then .next ((s.writeAll writes).respond .ok data)
  else raise s .capacityExceeded

end Sys2Proof.Machine
end

