-- ==== Sys2Proof/Machine/AddSub.lean ====
section
/-!
DEFINITION. Addition, subtraction and comparison: ADD, ADDP, SUB, SUBP, CMP (spec/41_addsub.md R101 to
R108), with the limb datapaths of the family: the carry chain R103, the borrow chain R107 and the
comparator R108.
-/

namespace Sys2Proof.Machine

/-- ADD (R101). -/
def execAdd (rd rs1 rs2 : Reg) (s : State) : StepResult :=
  unlessHalted s <| withReg s rs1 fun a => withReg s rs2 fun b => finish s [(rd, a + b)] 0

/-- ADDP (R102). -/
def execAddp (rd rs1 : Reg) (p : Scalar) (s : State) : StepResult :=
  unlessHalted s <| withReg s rs1 fun a => finish s [(rd, a + p.toNat)] 0

/-- SUB (R104). -/
def execSub (rd rs1 rs2 : Reg) (s : State) : StepResult :=
  unlessHalted s <| withReg s rs1 fun a => withReg s rs2 fun b =>
    if a < b then raise s .underflow else finish s [(rd, a - b)] 0

/-- SUBP (R105). -/
def execSubp (rd rs1 : Reg) (p : Scalar) (s : State) : StepResult :=
  unlessHalted s <| withReg s rs1 fun a =>
    if a < p.toNat then raise s .underflow else finish s [(rd, a - p.toNat)] 0

/-- The three answers of CMP: 0 equal, 1 first greater, 2 first less (R108). -/
def compareCode (a b : Nat) : Scalar := if a = b then 0 else if a > b then 1 else 2

/-- CMP (R108). -/
def execCmp (rs1 rs2 : Reg) (s : State) : StepResult :=
  unlessHalted s <| withReg s rs1 fun a => withReg s rs2 fun b => finish s [] (compareCode a b)

/-- Limb `k` of a limb sequence, 0 at and beyond its length (R25, R41). -/
def limbOr0 (ls : StoredLimbs) (k : Nat) : Nat := ls.getD k 0

/-- The loop of the carry chain (R103): `n` passes from limb `k` with carry `c`; a carry out is a new
most significant limb. -/
def carryLoop (base : Nat) (a b : StoredLimbs) : Nat → Nat → Nat → StoredLimbs
  | 0, _, c => if c = 1 then [1] else []
  | n + 1, k, c =>
    (limbOr0 a k + limbOr0 b k + c) % base ::
      carryLoop base a b n (k + 1) ((limbOr0 a k + limbOr0 b k + c) / base)

/-- The carry chain (R103): the limbs of `a + b`. -/
def carryChain (base : Nat) (a b : StoredLimbs) : StoredLimbs :=
  carryLoop base a b (max a.length b.length) 0 0

/-- The loop of the borrow chain (R107): `n` passes from limb `k` with borrow `w`; none when the
borrow leaves the top limb. -/
def borrowLoop (base : Nat) (a b : StoredLimbs) : Nat → Nat → Nat → Option StoredLimbs
  | 0, _, w => if w = 1 then none else some []
  | n + 1, k, w =>
    let t : Int := (limbOr0 a k : Int) - limbOr0 b k - w
    if t < 0 then (borrowLoop base a b n (k + 1) 1).map ((t + base).toNat :: ·)
    else (borrowLoop base a b n (k + 1) 0).map (t.toNat :: ·)

/-- The borrow chain (R107): the limbs of `a - b`, stripped; none is Underflow. -/
def borrowChain (base : Nat) (a b : StoredLimbs) : Option StoredLimbs :=
  if b.length > a.length then none else (borrowLoop base a b a.length 0 0).map normalize

/-- Compare two limb sequences of one length given most significant limb first: the first difference
decides (R108). -/
def compareTopDown : StoredLimbs → StoredLimbs → Scalar
  | a :: as, b :: bs => if a = b then compareTopDown as bs else if a > b then 1 else 2
  | _, _ => 0

/-- The comparator (R108): `LEN` first, more limbs is greater, then the limbs from the most
significant down. -/
def compareLimbs (a b : StoredLimbs) : Scalar :=
  if a.length > b.length then 1
  else if a.length < b.length then 2
  else compareTopDown a.reverse b.reverse

end Sys2Proof.Machine
end

