-- ==== Sys2Proof/Machine/Bits.lean ====
section
/-!
DEFINITION. Bit-level access: GETBIT, SETBIT, CLRBIT, ASGBIT, GETBITS, ASGBITS, CNT1, CNT0, LZ, TZ,
BITLEN (spec/44_bits.md R150 to R164), with the per-limb aggregation of the counts R165 and the
barrel shifter on limbs R167.
-/

namespace Sys2Proof.Machine

/-- `x OR 2^A` (R152). -/
def setBit (v i : Nat) : Nat := if bitAt v i = 1 then v else v + shl 1 i

/-- `x AND NOT 2^A` (R153). -/
def clearBit (v i : Nat) : Nat := if bitAt v i = 1 then v - shl 1 i else v

/-- `floor(x / 2^start) mod 2^(end - start)` (R158). -/
def getBits (v start stop : Nat) : Nat := mask (shr v start) (stop - start)

/-- `low + mid * 2^start + high * 2^end` (R159): the low `end - start` bits of `src` overwrite the
range. -/
def assignBits (v src start stop : Nat) : Nat :=
  mask v start + shl (mask src (stop - start)) start + shl (shr v stop) stop

/-- `popcount`: the number of `j` with bit `j` 1 (R160). -/
def popcount (v : Nat) : Nat := (List.range (bitlen v)).countP (fun j => v.testBit j)

/-- The zeros below the top set bit (R161). -/
def countZeros (v : Nat) : Nat := bitlen v - popcount v

/-- `leading_zeros` relative to the value's own significant width: always 0 (R162). -/
def leadingZeros (_v : Nat) : Nat := 0

/-- The least `j` with bit `j` 1, and 0 for the value 0 (R163). -/
def trailingZeros (v : Nat) : Nat := ((List.range (bitlen v)).find? (fun j => v.testBit j)).getD 0

/-- GETBIT (R151). -/
def execGetbit (rs1 : Reg) (a : Scalar) (s : State) : StepResult :=
  unlessHalted s <| withReg s rs1 fun v => finish s [] (BitVec.ofNat 64 (bitAt v a.toNat))

/-- SETBIT on a register that has been read: the fault of R152, then the write. -/
def finishSetBit (rd : Reg) (a : Scalar) (v : Nat) (s : State) : StepResult :=
  if s.cfg.capBits ≤ a.toNat then raise s .capacityExceeded
  else finish s [(rd, setBit v a.toNat)] 0

/-- SETBIT (R152). -/
def execSetbit (rd : Reg) (a : Scalar) (s : State) : StepResult :=
  unlessHalted s <| withReg s rd fun v => finishSetBit rd a v s

/-- CLRBIT (R153). -/
def execClrbit (rd : Reg) (a : Scalar) (s : State) : StepResult :=
  unlessHalted s <| withReg s rd fun v => finish s [(rd, clearBit v a.toNat)] 0

/-- ASGBIT (R154): as SETBIT when `B64[0] = 1`, else as CLRBIT; bits 63:1 of `B64` are ignored. -/
def execAsgbit (rd : Reg) (a b : Scalar) (s : State) : StepResult :=
  unlessHalted s <| withReg s rd fun v =>
    if b.toNat % 2 = 1 then finishSetBit rd a v s else finish s [(rd, clearBit v a.toNat)] 0

/-- GETBITS (R158). -/
def execGetbits (rd rs1 : Reg) (a b : Scalar) (s : State) : StepResult :=
  unlessHalted s <| withReg s rs1 fun v =>
    if b.toNat < a.toNat then raise s .invalidBitRange
    else finish s [(rd, getBits v a.toNat b.toNat)] 0

/-- ASGBITS (R159): bits to insert that are not 0 at or above the capacity are CapacityExceeded
whatever they are (R156), so `mid * 2^start` is only formed below it. -/
def execAsgbits (rd rs1 : Reg) (a b : Scalar) (s : State) : StepResult :=
  unlessHalted s <| withReg s rd fun v => withReg s rs1 fun src =>
    if b.toNat < a.toNat then raise s .invalidBitRange
    else if s.cfg.capBits ≤ a.toNat ∧ mask src (b.toNat - a.toNat) ≠ 0 then
      raise s .capacityExceeded
    else finish s [(rd, assignBits v src a.toNat b.toNat)] 0

/-- CNT1 (R160). -/
def execCnt1 (rs1 : Reg) (s : State) : StepResult :=
  unlessHalted s <| withReg s rs1 fun v => finish s [] (BitVec.ofNat 64 (popcount v))

/-- CNT0 (R161). -/
def execCnt0 (rs1 : Reg) (s : State) : StepResult :=
  unlessHalted s <| withReg s rs1 fun v => finish s [] (BitVec.ofNat 64 (countZeros v))

/-- LZ (R162).  DEDUCED (log 6): it reads the register `RS1` names (R24), so it checks it (R90). -/
def execLz (rs1 : Reg) (s : State) : StepResult :=
  unlessHalted s <| withReg s rs1 fun v => finish s [] (BitVec.ofNat 64 (leadingZeros v))

/-- TZ (R163). -/
def execTz (rs1 : Reg) (s : State) : StepResult :=
  unlessHalted s <| withReg s rs1 fun v => finish s [] (BitVec.ofNat 64 (trailingZeros v))

/-- BITLEN (R164). -/
def execBitlen (rs1 : Reg) (s : State) : StepResult :=
  unlessHalted s <| withReg s rs1 fun v => finish s [] (BitVec.ofNat 64 (bitlen v))

/-- `popcount_W`: the 1 bits of one limb (R165). -/
def popcountLimb (w l : Nat) : Nat := (List.range w).countP (fun j => l.testBit j)

/-- `ctz_W` of a non-zero limb: the 0 bits below its lowest 1 bit (R165). -/
def ctzLimb (w l : Nat) : Nat := ((List.range w).find? (fun j => l.testBit j)).getD w

/-- `c = clz_W(l[L-1])`, the unused bits of the top limb; 0 for the value 0 (R165). -/
def topUnused (w : Nat) (ls : StoredLimbs) : Nat :=
  match ls.getLast? with
  | some top => w - bitlen top
  | none => 0

/-- `count_ones` from the limbs (R165). -/
def onesOfLimbs (w : Nat) (ls : StoredLimbs) : Nat := (ls.map (popcountLimb w)).sum

/-- `bitlen` from the limbs (R165). -/
def bitlenOfLimbs (w : Nat) (ls : StoredLimbs) : Nat := w * ls.length - topUnused w ls

/-- `count_zeros` from the limbs, with the top-limb width correction (R165). -/
def zerosOfLimbs (w : Nat) (ls : StoredLimbs) : Nat :=
  (ls.map (fun l => w - popcountLimb w l)).sum - topUnused w ls

/-- `leading_zeros` from the limbs, with the top-limb width correction (R165). -/
def leadingOfLimbs (w : Nat) (ls : StoredLimbs) : Nat := topUnused w ls - topUnused w ls

/-- `trailing_zeros` from the limbs: `W*k0 + ctz_W(l[k0])` for the least `k0` with `l[k0] != 0`
(R165). -/
def trailingOfLimbs (w : Nat) : StoredLimbs → Nat
  | [] => 0
  | l :: ls => if l = 0 then w + trailingOfLimbs w ls else ctzLimb w l

/-- Limb `k` of `shl(v, s)` from the limbs of `v` (R167): the low `W - (s mod W)` bits of limb
`k - floor(s/W)`, shifted up, and the high `s mod W` bits of the limb below. -/
def shlLimb (w v s k : Nat) : Nat :=
  let low := if s / w + 1 ≤ k then limbAt w v (k - s / w - 1) / 2 ^ (w - s % w) else 0
  let high := if s / w ≤ k then limbAt w v (k - s / w) % 2 ^ (w - s % w) * 2 ^ (s % w) else 0
  high + low

end Sys2Proof.Machine
end

