-- ==== Sys2Proof/Machine/Multiply.lean ====
section
/-!
DEFINITION. Multiplication: MUL (spec/42_multiply.md R120), with its two kernels, schoolbook R122 and
Karatsuba R123, which the parameter `KT` selects between (R124).
-/

namespace Sys2Proof.Machine

/-- MUL (R120): the exact product. -/
def execMul (rd rs1 rs2 : Reg) (s : State) : StepResult :=
  unlessHalted s <| withReg s rs1 fun a => withReg s rs2 fun b => finish s [(rd, a * b)] 0

/-- One row of the schoolbook kernel (R122), for one limb `bj` of `b`: `p` is the accumulator from
cell `j` up, `c` the carry; after the limbs of `a` the carry goes to cell `j + m`. -/
def macRow (base bj : Nat) : StoredLimbs → StoredLimbs → Nat → StoredLimbs
  | [], p, c => c :: p.tail
  | ai :: as, p, c =>
    (ai * bj + p.headD 0 + c) % base ::
      macRow base bj as p.tail ((ai * bj + p.headD 0 + c) / base)

/-- The rows of the schoolbook kernel (R122), one per limb of `b`, least significant first: after row
`j` cell `j` is final and the next row works from cell `j + 1`. -/
def schoolbookRows (base : Nat) (a : StoredLimbs) : StoredLimbs → StoredLimbs → StoredLimbs
  | [], p => p
  | bj :: bs, p =>
    match macRow base bj a p 0 with
    | [] => []
    | cell :: p' => cell :: schoolbookRows base a bs p'

/-- The schoolbook kernel (R122): the `m + n` cells of the product, which start at 0. -/
def schoolbook (w a b : Nat) : Nat :=
  valueOf w (schoolbookRows (2 ^ w) (limbsOf w a) (limbsOf w b)
    (List.replicate (lenOf w a + lenOf w b) 0))

/-- Kernel selection: schoolbook below the threshold, and always when `KT` is infinity (R8, R123). -/
def belowThreshold (kt : Option Nat) (combined : Nat) : Bool := kt.all (fun k => decide (combined < k))

/-- `mul(a, b)` (R123) with a bound on the depth of its recursion; none when the bound is too small. -/
def karatsuba (w : Nat) (kt : Option Nat) : Nat → Nat → Nat → Option Nat
  | 0, _, _ => none
  | depth + 1, a, b =>
    if a = 0 ∨ b = 0 then some 0
    else if belowThreshold kt (lenOf w a + lenOf w b) then some (schoolbook w a b)
    else
      let h := (max (lenOf w a) (lenOf w b) + 1) / 2
      let a0 := mask a (w * h)
      let a1 := shr a (w * h)
      let b0 := mask b (w * h)
      let b1 := shr b (w * h)
      match karatsuba w kt depth a0 b0, karatsuba w kt depth a1 b1,
            karatsuba w kt depth (a0 + a1) (b0 + b1) with
      | some z0, some z2, some z3 =>
        some (shl z2 (w * (2 * h)) + shl (z3 - z0 - z2) (w * h) + z0)
      | _, _, _ => none

/-- The multiplier (R123): the combined length bounds the depth, since it strictly falls (R124). -/
def mulKernel (w : Nat) (kt : Option Nat) (a b : Nat) : Option Nat :=
  karatsuba w kt (lenOf w a + lenOf w b + 1) a b

end Sys2Proof.Machine
end

