-- ==== Sys2Proof/Machine/Divide.lean ====
section
/-!
DEFINITION. Division: DIVREM, DIV, REM (spec/43_divide.md R131 to R134), with the long-division engine
R135, its quotient-digit estimator R136 and the single-limb pass R138.
-/

namespace Sys2Proof.Machine

/-- DIVREM (R131): equal destinations are IllegalCommand (R70), before any register is read (R210). -/
def execDivrem (rd rd2 rs1 rs2 : Reg) (s : State) : StepResult :=
  unlessHalted s <|
    if rd = rd2 then raise s .illegalCommand
    else withReg s rs1 fun a => withReg s rs2 fun b =>
      if b = 0 then raise s .divisionByZero else finish s [(rd, a / b), (rd2, a % b)] 0

/-- DIV (R132). -/
def execDiv (rd rs1 rs2 : Reg) (s : State) : StepResult :=
  unlessHalted s <| withReg s rs1 fun a => withReg s rs2 fun b =>
    if b = 0 then raise s .divisionByZero else finish s [(rd, a / b)] 0

/-- REM (R133). -/
def execRem (rd rs1 rs2 : Reg) (s : State) : StepResult :=
  unlessHalted s <| withReg s rs1 fun a => withReg s rs2 fun b =>
    if b = 0 then raise s .divisionByZero else finish s [(rd, a % b)] 0

/-- `clz_W(x) = W - bitlen(x)` for `0 < x < B` (R135). -/
def clzLimb (w x : Nat) : Nat := w - bitlen x

/-- The refinement loop of the estimator (R136): `vTop`, `vNext` are the top two limbs of the
divisor, `uNext` the third limb of the remaining dividend.  With a normalised divisor
(`vTop >= B/2`) the second pass always breaks, so two passes are all there are. -/
def refineEstimate (base vTop vNext uNext : Nat) : Nat → Nat → Nat → Nat
  | 0, qhat, _ => qhat
  | passes + 1, qhat, rhat =>
    if base ≤ qhat ∨ rhat * base + uNext < qhat * vNext then
      if base ≤ rhat + vTop then qhat - 1
      else refineEstimate base vTop vNext uNext passes (qhat - 1) (rhat + vTop)
    else qhat

/-- The quotient-digit estimator (R136) for a divisor of `n >= 2` limbs. -/
def estimate (w n u v j : Nat) : Nat :=
  let num := limbAt w u (j + n) * 2 ^ w + limbAt w u (j + n - 1)
  refineEstimate (2 ^ w) (limbAt w v (n - 1)) (limbAt w v (n - 2)) (limbAt w u (j + n - 2)) 2
    (num / limbAt w v (n - 1)) (num % limbAt w v (n - 1))

/-- The first correction loop (R135): while `t < 0`, the digit was too high: lower it and add the
divisor back.  With the digit at 0 nothing was subtracted, so `t` is not negative. -/
def addBack (v : Nat) : Nat → Int → Nat × Int
  | 0, t => (0, t)
  | qhat + 1, t => if t < 0 then addBack v qhat (t + v) else (qhat + 1, t)

/-- The second correction loop (R135): while `t >= v`, the digit was too low.  `passes` bounds the
loop; `t` passes are enough, since `t` falls. -/
def subtractAgain (v : Nat) : Nat → Nat → Int → Nat × Int
  | 0, qhat, t => (qhat, t)
  | passes + 1, qhat, t =>
    if (v : Int) ≤ t then subtractAgain v passes (qhat + 1) (t - v) else (qhat, t)

/-- The two correction loops (R135) on a remaining dividend `window` and an estimate of its digit:
the digit and what is left. -/
def correctDigit (window v qhat : Nat) : Nat × Nat :=
  let low := addBack v qhat ((window : Int) - qhat * v)
  let exact := subtractAgain v low.2.toNat low.1 low.2
  (exact.1, exact.2.toNat)

/-- The passes of the engine (R135), `j` from `passes - 1` down to 0, on the dividend `u`: each finds
the quotient limb at index `j` and replaces `u[j+n] .. u[j]` by what is left of it.  Answers the
quotient and the last `u`. -/
def enginePasses (w n v : Nat) : Nat → Nat → Nat × Nat
  | 0, u => (0, u)
  | j + 1, u =>
    let digit := correctDigit (shr u (w * j)) v (estimate w n u v j)
    let lower := enginePasses w n v j (shl digit.2 (w * j) + mask u (w * j))
    (shl digit.1 (w * j) + lower.1, lower.2)

/-- One step of the single-limb pass (R138): `state` is the quotient so far and the remainder. -/
def shortDivStep (base d : Nat) (state : Nat × Nat) (limb : Nat) : Nat × Nat :=
  (state.1 * base + (state.2 * base + limb) / d, (state.2 * base + limb) % d)

/-- The single-limb pass (R138), most significant limb first. -/
def divremByLimb (w a d : Nat) : Nat × Nat :=
  (limbsOf w a).reverse.foldl (shortDivStep (2 ^ w) d) (0, 0)

/-- The long-division engine (R135): `divrem(a, b)` for `b != 0`. -/
def divremEngine (w a b : Nat) : Nat × Nat :=
  if a < b then (0, a)
  else if lenOf w b = 1 then divremByLimb w a (limbAt w b 0)
  else
    let m := lenOf w a
    let n := lenOf w b
    let shift := clzLimb w (limbAt w b (n - 1))
    let result := enginePasses w n (shl b shift) (m - n + 1) (shl a shift)
    (result.1, shr result.2 shift)

end Sys2Proof.Machine
end

