-- ==== Sys2Proof/Machine/Modpow.lean ====
section
/-!
DEFINITION. Modular exponentiation: MODPOW (spec/46_modpow.md R190 to R193), by the square-and-multiply
sequencer R191.
-/

namespace Sys2Proof.Machine

/-- The passes of R191 for exponent bits `i - 1` down to 0, from a running result: square and reduce,
then multiply by the base and reduce when the bit is 1. -/
def modpowLoop (b e m : Nat) : Nat → Nat → Nat
  | 0, result => result
  | i + 1, result =>
    let squared := result * result % m
    modpowLoop b e m i (if bitAt e i = 1 then squared * b % m else squared)

/-- `modpow(b, e, m)` (R191): the bits of `e` from most to least significant. -/
def modpow (b e m : Nat) : Nat := modpowLoop b e m (bitlen e) 1

/-- MODPOW (R190): a zero modulus is DivisionByZero, a modulus of 1 gives 0 (R192). -/
def execModpow (rd rs1 rs2 rs3 : Reg) (s : State) : StepResult :=
  unlessHalted s <| withReg s rs1 fun b => withReg s rs2 fun e => withReg s rs3 fun m =>
    if m = 0 then raise s .divisionByZero
    else if m = 1 then finish s [(rd, 0)] 0
    else finish s [(rd, modpow b e m)] 0

end Sys2Proof.Machine
end

