-- ==== Sys2Proof/Machine/System.lean ====
section
/-!
DEFINITION. System commands: NOP, RDSR, CLRF (spec/47_system.md R200 to R202).
-/

namespace Sys2Proof.Machine

/-- NOP (R200). -/
def execNop (s : State) : StepResult :=
  unlessHalted s <| finish s [] 0

/-- RDSR (R201): SR0 is STATUS as it was before the command, SR1 is CFG; a legal RDSR executes in
halt too (R219), another is Halted there and IllegalCommand otherwise (R71). -/
def execRdsr (a : Scalar) (s : State) : StepResult :=
  if a = 0 then finish s [] s.status.toWord
  else if a = 1 then finish s [] s.cfg.toWord
  else unlessHalted s <| raise s .illegalCommand

/-- CLRF (R202). -/
def execClrf (s : State) : StepResult :=
  unlessHalted s <| finish { s with status := s.status.clearFaults } [] 0

end Sys2Proof.Machine
end

