-- ==== Sys2Proof/Machine/Transfer.lean ====
section
/-!
DEFINITION. Transfer commands: SETP, MOV, WRL, RDL, LEN, NORM (spec/40_transfer.md R81 to R86).
-/

namespace Sys2Proof.Machine

/-- `MemWrite((i,k), 1, l)` on the value: `v - limb(v,k)*B^k + l*B^k` (R12, R83).  Writing a zero limb
at or above `len(v)` changes nothing, at any index. -/
def setLimb (w v k l : Nat) : Nat :=
  if l = 0 ∧ lenOf w v ≤ k then v
  else v - shl (limbAt w v k) (w * k) + shl l (w * k)

/-- SETP (R81). -/
def execSetp (rd : Reg) (a : Scalar) (s : State) : StepResult :=
  unlessHalted s <| finish s [(rd, a.toNat)] 0

/-- MOV (R82). -/
def execMov (rd rs1 : Reg) (s : State) : StepResult :=
  unlessHalted s <| withReg s rs1 fun v => finish s [(rd, v)] 0

/-- WRL (R83): Overflow for a limb of more than `W` bits, then CapacityExceeded for a non-zero limb
at an index the register does not have (R222). -/
def execWrl (rd : Reg) (a b : Scalar) (s : State) : StepResult :=
  unlessHalted s <| withReg s rd fun v =>
    if s.cfg.base ≤ b.toNat then raise s .overflow
    else if b.toNat ≠ 0 ∧ s.cfg.maxLimbs ≤ a.toNat then raise s .capacityExceeded
    else finish s [(rd, setLimb s.cfg.w v a.toNat b.toNat)] 0

/-- RDL (R84). -/
def execRdl (rs1 : Reg) (a : Scalar) (s : State) : StepResult :=
  unlessHalted s <| withReg s rs1 fun v =>
    finish s [] (BitVec.ofNat 64 (limbAt s.cfg.w v a.toNat))

/-- LEN (R85). -/
def execLen (rs1 : Reg) (s : State) : StepResult :=
  unlessHalted s <| withReg s rs1 fun v => finish s [] (BitVec.ofNat 64 (lenOf s.cfg.w v))

/-- NORM (R86): `x[RD] <- x[RD]`. -/
def execNorm (rd : Reg) (s : State) : StepResult :=
  unlessHalted s <| withReg s rd fun v => finish s [(rd, v)] 0

end Sys2Proof.Machine
end

