-- ==== Sys2Proof/Machine/Xgcd.lean ====
section
/-!
DEFINITION. Extended GCD: XGCD (spec/45_xgcd.md R180 to R183), by the iterative extended Euclidean
algorithm R181.
-/

namespace Sys2Proof.Machine

/-- The loop of R181: while `r1 != 0`.  `passes` bounds the passes; `r1` strictly decreases (R185), so
`r1` passes are enough. -/
def xgcdLoop : Nat → Nat → Nat → Int → Int → Int → Int → Nat × Int × Int
  | 0, r0, _, s0, _, t0, _ => (r0, s0, t0)
  | passes + 1, r0, r1, s0, s1, t0, t1 =>
    if r1 = 0 then (r0, s0, t0)
    else
      let q := r0 / r1
      xgcdLoop passes r1 (r0 - q * r1) s1 (s0 - q * s1) t1 (t0 - q * t1)

/-- `xgcd(a, b) = (g, x, y)` (R181): the pairs start at `(1, 0)` and `(0, 1)`. -/
def xgcd (a b : Nat) : Nat × Int × Int := xgcdLoop b a b 1 0 0 1

/-- The sign bits of `x` and `y`: bit 0 and bit 1, 1 means negative (R183). -/
def signBits (x y : Int) : Scalar :=
  BitVec.ofNat 64 ((if x < 0 then 1 else 0) + 2 * (if y < 0 then 1 else 0))

/-- XGCD (R180): equal destinations are IllegalCommand (R70). -/
def execXgcd (rd rd2 rd3 rs1 rs2 : Reg) (s : State) : StepResult :=
  unlessHalted s <|
    if rd = rd2 ∨ rd = rd3 ∨ rd2 = rd3 then raise s .illegalCommand
    else withReg s rs1 fun a => withReg s rs2 fun b =>
      let result := xgcd a b
      finish s [(rd, result.1), (rd2, result.2.1.natAbs), (rd3, result.2.2.natAbs)]
        (signBits result.2.1 result.2.2)

end Sys2Proof.Machine
end

