-- ==== Sys2Proof/Machine/Dispatch.lean ====
section
/-!
DEFINITION. One arm per command (spec/30_encoding.md R67): the meaning of each.
-/

namespace Sys2Proof.Machine

def exec (i : Instr) (s : State) : Host.Outcome State Fault Refusal :=
  match i with
  | .nop => Sys2Proof.Machine.execNop s
  | .rdsr a => Sys2Proof.Machine.execRdsr a s
  | .clrf => Sys2Proof.Machine.execClrf s
  | .setp rd a => Sys2Proof.Machine.execSetp rd a s
  | .mov rd rs1 => Sys2Proof.Machine.execMov rd rs1 s
  | .wrl rd a b => Sys2Proof.Machine.execWrl rd a b s
  | .rdl rs1 a => Sys2Proof.Machine.execRdl rs1 a s
  | .len rs1 => Sys2Proof.Machine.execLen rs1 s
  | .norm rd => Sys2Proof.Machine.execNorm rd s
  | .add rd rs1 rs2 => Sys2Proof.Machine.execAdd rd rs1 rs2 s
  | .addp rd rs1 a => Sys2Proof.Machine.execAddp rd rs1 a s
  | .sub rd rs1 rs2 => Sys2Proof.Machine.execSub rd rs1 rs2 s
  | .subp rd rs1 a => Sys2Proof.Machine.execSubp rd rs1 a s
  | .cmp rs1 rs2 => Sys2Proof.Machine.execCmp rs1 rs2 s
  | .mul rd rs1 rs2 => Sys2Proof.Machine.execMul rd rs1 rs2 s
  | .divrem rd rd2 rs1 rs2 => Sys2Proof.Machine.execDivrem rd rd2 rs1 rs2 s
  | .div rd rs1 rs2 => Sys2Proof.Machine.execDiv rd rs1 rs2 s
  | .rem rd rs1 rs2 => Sys2Proof.Machine.execRem rd rs1 rs2 s
  | .getbit rs1 a => Sys2Proof.Machine.execGetbit rs1 a s
  | .setbit rd a => Sys2Proof.Machine.execSetbit rd a s
  | .clrbit rd a => Sys2Proof.Machine.execClrbit rd a s
  | .asgbit rd a b => Sys2Proof.Machine.execAsgbit rd a b s
  | .getbits rd rs1 a b => Sys2Proof.Machine.execGetbits rd rs1 a b s
  | .asgbits rd rs1 a b => Sys2Proof.Machine.execAsgbits rd rs1 a b s
  | .cnt1 rs1 => Sys2Proof.Machine.execCnt1 rs1 s
  | .cnt0 rs1 => Sys2Proof.Machine.execCnt0 rs1 s
  | .lz rs1 => Sys2Proof.Machine.execLz rs1 s
  | .tz rs1 => Sys2Proof.Machine.execTz rs1 s
  | .bitlen rs1 => Sys2Proof.Machine.execBitlen rs1 s
  | .xgcd rd rd2 rd3 rs1 rs2 => Sys2Proof.Machine.execXgcd rd rd2 rd3 rs1 rs2 s
  | .modpow rd rs1 rs2 rs3 => Sys2Proof.Machine.execModpow rd rs1 rs2 rs3 s

end Sys2Proof.Machine
end

