-- ==== Sys2Proof/Machine/Port.lean ====
section
/-!
DEFINITION. The command port (spec/10_state.md R31, R32): accepting a command, running it, taking its
response, reset (spec/70_reset_and_hazards.md R240 to R242), and the output signals.
-/

namespace Sys2Proof.Machine

/-- The command in hand is executed whole (R49): a legal word runs its meaning; a word the decoder
refuses is IllegalCommand (R68, R69, R218), after Halted (R222). -/
def runCommand (c : Command) (s : State) : StepResult :=
  match decode c with
  | .ok i => exec i s
  | .error _ => unlessHalted s <| raise s .illegalCommand

/-- IDLE to BUSY: the command transfer (R32). -/
def State.acceptCommand (s : State) (c : Command) : State := { s with port := .busy c }

/-- RESP to IDLE: the response transfer (R32). -/
def State.deliver (s : State) (r : Response) : State :=
  { s with port := .idle, delivered := s.delivered ++ [r] }

/-- Reset (R241, R242): the reset state of the instance, a command in hand or a pending response
dropped.  The host's own record is not the block's and stays. -/
def State.resetBlock (s : State) : State :=
  { State.resetOf s.cfg with inputs := s.inputs, delivered := s.delivered }

/-- The host's actions after a step in which the block executed its command: doing nothing meanwhile
is done; anything else is still to come. -/
def afterBusy : List HostAction → List HostAction
  | .wait :: rest => rest
  | actions => actions

/-- One transition of the port (log 5).  Reset is taken in every state (R242).  BUSY goes to RESP by
executing (R32).  Otherwise the host's next transfer happens, or the block waits with its state held
(R230, R248); a transfer that can never happen is stuck (spec/93_implementation_defined.md I20). -/
def portStep (s : State) : StepResult :=
  match s.inputs, s.port with
  | .reset :: rest, _ => .next { s.resetBlock with inputs := rest }
  | actions, .busy c => runCommand c { s with inputs := afterBusy actions }
  | .command c :: rest, .idle => .next (State.acceptCommand { s with inputs := rest } c)
  | .takeResponse :: rest, .resp r => .next (State.deliver { s with inputs := rest } r)
  | .wait :: rest, _ => .next { s with inputs := rest }
  | [], _ => .next s
  | .command _ :: _, .resp _ => .fault .hostStalled
  | .takeResponse :: _, .idle => .fault .hostStalled

/-- Whether an action is a reset. -/
def HostAction.isReset : HostAction → Bool
  | .reset => true
  | .command _ | .takeResponse | .wait => false

/-- A command put into the block's hand: port BUSY, and no reset next that would abandon it (log 7). -/
def State.presentCommand (s : State) (c : Command) : State :=
  { s with port := .busy c, inputs := s.inputs.dropWhile HostAction.isReset }

/-- `cmd_ready` (R31, R32). -/
def State.cmdReady (s : State) : Bool :=
  match s.port with
  | .idle => true
  | .busy _ | .resp _ => false

/-- `rsp_valid` (R31, R32). -/
def State.rspValid (s : State) : Bool :=
  match s.port with
  | .resp _ => true
  | .idle | .busy _ => false

/-- `rsp_code` while `rsp_valid = 1` (R31). -/
def State.rspCode (s : State) : Option (BitVec 8) :=
  match s.port with
  | .resp r => some r.code.toByte
  | .idle | .busy _ => none

/-- `rsp_data` while `rsp_valid = 1` (R31). -/
def State.rspData (s : State) : Option Scalar :=
  match s.port with
  | .resp r => some r.data
  | .idle | .busy _ => none

/-- `halted` equals STATUS.HALT (R31). -/
def State.haltedOut (s : State) : Bool := s.status.halt

end Sys2Proof.Machine
end

