-- ==== Sys2Proof/Machine/Step.lean ====
section
/-!
DEFINITION. The step of the machine: one transition of the command port.
-/

namespace Sys2Proof.Machine

/-- One step: the transition of the port (spec/10_state.md R32). -/
def step (s : State) : Host.Outcome State Fault Refusal := portStep s

/-- `s` with the instruction whose low `nbits` bits are those of `w`, the others 0, in the block's
hand, so that the next step runs it.  A command has no address: the host transfers it (R33, R43;
log 7). -/
def State.withFetchWord (s : State) (nbits w : Nat) : State :=
  s.presentCommand (Command.ofBits (w % 2 ^ nbits))

end Sys2Proof.Machine
end

