-- ==== Sys2Proof/Machine/Assembler.lean ====
section
/-!
DEFINITION. The written form of commands (spec/30_encoding.md R72) and the pseudo-instructions (R73).
-/

namespace Sys2Proof

/-- A register operand, `n0` to `n15` (R72). -/
def asmReg (r : Reg) : String := "n" ++ toString r.val

/-- A scalar operand, decimal after `#` (R72). -/
def asmScalar (a : Scalar) : String := "#" ++ toString a.toNat

/-- The lower-case mnemonic (R72). -/
def Mnemonic.asm : Mnemonic → String
  | .nop => "nop"
  | .rdsr => "rdsr"
  | .clrf => "clrf"
  | .setp => "setp"
  | .mov => "mov"
  | .wrl => "wrl"
  | .rdl => "rdl"
  | .len => "len"
  | .norm => "norm"
  | .add => "add"
  | .addp => "addp"
  | .sub => "sub"
  | .subp => "subp"
  | .cmp => "cmp"
  | .mul => "mul"
  | .divrem => "divrem"
  | .div => "div"
  | .rem => "rem"
  | .getbit => "getbit"
  | .setbit => "setbit"
  | .clrbit => "clrbit"
  | .asgbit => "asgbit"
  | .getbits => "getbits"
  | .asgbits => "asgbits"
  | .cnt1 => "cnt1"
  | .cnt0 => "cnt0"
  | .lz => "lz"
  | .tz => "tz"
  | .bitlen => "bitlen"
  | .xgcd => "xgcd"
  | .modpow => "modpow"

/-- The register operands of a command, destinations then sources, and its scalars (R72). -/
def Instr.operands : Instr → List Reg × List Scalar
  | .nop | .clrf => ([], [])
  | .rdsr a => ([], [a])
  | .setp rd a | .setbit rd a | .clrbit rd a => ([rd], [a])
  | .wrl rd a b | .asgbit rd a b => ([rd], [a, b])
  | .rdl rs1 a | .getbit rs1 a => ([rs1], [a])
  | .norm rd => ([rd], [])
  | .len rs1 | .cnt1 rs1 | .cnt0 rs1 | .lz rs1 | .tz rs1 | .bitlen rs1 => ([rs1], [])
  | .mov rd rs1 => ([rd, rs1], [])
  | .addp rd rs1 a | .subp rd rs1 a => ([rd, rs1], [a])
  | .getbits rd rs1 a b | .asgbits rd rs1 a b => ([rd, rs1], [a, b])
  | .cmp rs1 rs2 => ([rs1, rs2], [])
  | .add rd rs1 rs2 | .sub rd rs1 rs2 | .mul rd rs1 rs2 | .div rd rs1 rs2 | .rem rd rs1 rs2 =>
    ([rd, rs1, rs2], [])
  | .divrem rd rd2 rs1 rs2 => ([rd, rd2, rs1, rs2], [])
  | .modpow rd rs1 rs2 rs3 => ([rd, rs1, rs2, rs3], [])
  | .xgcd rd rd2 rd3 rs1 rs2 => ([rd, rd2, rd3, rs1, rs2], [])

/-- A command as one line of assembly (R72). -/
def Instr.asm (i : Instr) : String :=
  match i.operands.1.map asmReg ++ i.operands.2.map asmScalar with
  | [] => i.mnemonic.asm
  | operands => i.mnemonic.asm ++ " " ++ ", ".intercalate operands

/-- The WRLs of `ldn nd, [l0, ..., lk]`, `j = 0 .. k` in ascending order, from index `j` on (R73). -/
def loadLimbs (nd : Reg) : Nat → List Scalar → List Instr
  | _, [] => []
  | j, l :: ls => .wrl nd (BitVec.ofNat 64 j) l :: loadLimbs nd (j + 1) ls

/-- The expansion of a pseudo-instruction (R73). -/
def Pseudo.expand : Pseudo → List Instr
  | .clr nd => [.setp nd 0]
  | .inc nd => [.addp nd nd 1]
  | .dec nd => [.subp nd nd 1]
  | .ldn nd limbs => .setp nd 0 :: loadLimbs nd 0 limbs

end Sys2Proof

namespace Sys2Proof.Machine

/-- A sequence of commands executed one after another, the host taking every response: what a command
leaves at the port does not reach the next (spec/20_memory.md R51). -/
def execAll : List Instr → State → StepResult
  | [], s => .next s
  | i :: rest, s =>
    match exec i s with
    | .next t => execAll rest t
    | .fault r => .fault r
    | .refused r => .refused r

end Sys2Proof.Machine
end

