-- ==== Sys2Proof/Safety.lean ====
section
/-!
DEFINITION. What a good state of the block is, in the terms the statements use (spec/10_state.md R22,
R27; spec/40_transfer.md R90; spec/60_exceptions.md R220, R223).
-/

namespace Sys2Proof.Machine

/-- STATUS as the spec says its bits stand: F_INVARIANT equals HALT, and the bits of the two codes that
are never raised are 0 (R27). -/
abbrev Status.coherent (t : Status) : Prop :=
  t.fInvariant = t.halt ∧ t.fInvDigit = false ∧ t.fInvBase = false

/-- A response as the block makes them: a fault has `DATA = 0`, and the two reserved codes are never
returned (R65, R214, R215). -/
abbrev Response.coherent (r : Response) : Prop :=
  (r.code ≠ .ok → r.data = 0) ∧ r.code ≠ .invalidDigit ∧ r.code ≠ .invalidBase

/-- What the port holds: a pending response is one the block makes. -/
def Port.coherent : Port → Prop
  | .resp r => r.coherent
  | .idle | .busy _ => True

/-- The invariant of the block: legal parameters, every register canonical, STATUS and the pending
response as the spec says. -/
structure State.Inv (s : State) : Prop where
  parameters : s.cfg.valid = true
  canonical  : Memory.wf s.cfg s.regs
  status     : s.status.coherent
  response   : s.port.coherent

/-- The invariant of a block that has not halted: the states reachable from reset by commands
(R87, R90, R220). -/
structure State.Running (s : State) : Prop extends State.Inv s where
  notHalted : s.status.halt = false

/-- The registers a command reads hold canonical limbs, so that no read of it is an
InvariantViolation (R90). -/
abbrev State.readable (s : State) (rs : List Reg) : Prop :=
  ∀ i ∈ rs, s.cfg.canonical (s.limbs i) = true

/-- `x[i]`, the value of the stored limbs (R10). -/
def State.x (s : State) (i : Reg) : Nat := valueOf s.cfg.w (s.limbs i)

/-- A command completes from `s` with the result `r`: a next state whose pending response is
`(OK, data)`, in which every register named in `writes` holds its value in canonical form, and
everything else is as it was: every other register's limbs, STATUS, the parameters and the host's
side (R13, R28, R80). -/
def Completes (s : State) (r : StepResult) (writes : List (Reg × Nat)) (data : Scalar) : Prop :=
  ∃ t, r = .next t ∧ t.port = .resp ⟨.ok, data⟩ ∧
    (∀ p ∈ writes, t.cfg.canonical (t.limbs p.1) = true ∧ t.x p.1 = p.2) ∧
    (∀ j, j ∉ writes.map Prod.fst → t.limbs j = s.limbs j) ∧
    t.status = s.status ∧ t.cfg = s.cfg ∧ t.inputs = s.inputs ∧ t.delivered = s.delivered

/-- A command ends from `s` with the fault `c` as the result `r`: a next state whose pending response
is `(c, 0)` and in which no Natural register changed, the fault is recorded in STATUS, and the
parameters and the host's side are as they were (R223). -/
def Faults (s : State) (r : StepResult) (c : Code) : Prop :=
  ∃ t, r = .next t ∧ t.port = .resp ⟨c, 0⟩ ∧ t.regs = s.regs ∧ t.status = s.status.record c ∧
    t.cfg = s.cfg ∧ t.inputs = s.inputs ∧ t.delivered = s.delivered

end Sys2Proof.Machine
end

