-- ==== Sys2Proof/Certificates/Slice0/Obligations.lean ====
section
/-!
DEFINITION. The statements for the provers.  Each says which rules of spec/ it formalises.

`s.x i` is the value of register `Ni`, `s.readable rs` that the registers `rs` hold canonical limbs,
`Completes s r ws d` and `Faults s r c` are the two ways a command ends, with their frames
(Sys2Proof/Safety.lean).
-/

open Sys2Proof Sys2Proof.Machine

/-! ### Encoding -/

/-- Decoding an encoded command gives it back, every operand at every value (R60, R61, R64, R67, R69,
R74). -/
def Obligations.DecodeOfEncodeIsTheCommand : Prop :=
  ∀ i : Instr, decode (encode i) = .ok i

/-- Every command word matches exactly one row of the opcode map and decodes to that row's command, or
matches none and is refused (R61, R67, R68, R69). -/
def Obligations.EveryWordMatchesOneRowOrIsRefused : Prop :=
  ∀ c : Command,
    (∃ m : Mnemonic, c.word &&& m.format.mask = m.matchWord ∧
      (∀ m' : Mnemonic, c.word &&& m'.format.mask = m'.matchWord → m' = m) ∧
      ∃ i, decode c = .ok i ∧ i.mnemonic = m) ∨
    ((∀ m : Mnemonic, c.word &&& m.format.mask ≠ m.matchWord) ∧ ∃ e, decode c = .error e)

/-- No bit of a legal word is dropped: the command it decodes to encodes to that very word (R60, R69). -/
def Obligations.DecodedWordIsTheWordOfItsCommand : Prop :=
  ∀ (c : Command) (i : Instr), decode c = .ok i → (encode i).word = c.word

/-- A scalar a command does not use may hold any value: of a command without scalar operands both, of
a command with one scalar operand `B64` (R64, R69). -/
def Obligations.IgnoredScalarsChangeNothing : Prop :=
  ∀ (w : CommandWord) (a b : Scalar) (i : Instr), decode ⟨w, a, b⟩ = .ok i →
    (i.operands.2 = [] → ∀ a' b', decode ⟨w, a', b'⟩ = .ok i) ∧
    (i.operands.2.length ≤ 1 → ∀ b', decode ⟨w, a, b'⟩ = .ok i)

/-- Words written out from the spec's encoding decode to the commands they stand for (R60, R67, R74),
and an unused field that is not zero or an undefined opcode is refused (R68, R69). -/
def Obligations.WrittenWordsDecode : Prop :=
  decode ⟨0x00000000#32, 0xDEADBEEF#64, 0x12345678#64⟩ = .ok .nop ∧
  decode ⟨0x12000000#32, 1#64, 0xE8#64⟩ = .ok (.wrl 0 1#64 0xE8#64) ∧
  decode ⟨0x20200010#32, 0#64, 0#64⟩ = .ok (.add 2 0 1) ∧
  decode ⟨0x30F00ED0#32, 0#64, 0#64⟩ = .ok (.mul 15 14 13) ∧
  decode ⟨0x40FE0DC0#32, 0#64, 0#64⟩ = .ok (.divrem 15 14 13 12) ∧
  decode ⟨0x54100000#32, 12#64, 40#64⟩ = .ok (.getbits 1 0 12#64 40#64) ∧
  decode ⟨0x60234010#32, 0#64, 0#64⟩ = .ok (.xgcd 2 3 4 0 1) ∧
  decode ⟨0x70F00EDC#32, 0#64, 0#64⟩ = .ok (.modpow 15 14 13 12) ∧
  decode ⟨0x20200011#32, 0#64, 0#64⟩ = .error .unusedFieldNotZero ∧
  decode ⟨0x56000000#32, 0#64, 0#64⟩ = .error .undefinedOpcode

/-- IllegalCommand, code 0x10, is raised for exactly the commands that fail one of the four tests of
R210 step 2: no defined opcode or a non-zero unused field (the decoder refuses), equal destinations
of DIVREM or XGCD, RDSR with `A >= 2` (R218). -/
def Obligations.IllegalCommandForExactlyTheIllegalCommands : Prop :=
  Code.illegalCommand.toByte = 0x10#8 ∧
  ∀ (c : Command) (s : State), s.status.halt = false →
    (((∃ e, decode c = .error e) ∨
      (∃ rd rs1 rs2, decode c = .ok (.divrem rd rd rs1 rs2)) ∨
      (∃ rd rd2 rd3 rs1 rs2, decode c = .ok (.xgcd rd rd2 rd3 rs1 rs2) ∧
        (rd = rd2 ∨ rd = rd3 ∨ rd2 = rd3)) ∨
      (∃ a : Scalar, decode c = .ok (.rdsr a) ∧ 2 ≤ a.toNat)) →
      Faults s (runCommand c s) .illegalCommand) ∧
    (∀ t d, runCommand c s = .next t → t.port = .resp ⟨.illegalCommand, d⟩ →
      ∀ i, decode c = .ok i → i.wellFormed = false)

/-! ### The command port -/

/-- A step with a command in hand runs the decoded command; a host that waits meanwhile has waited;
a word the decoder refuses is IllegalCommand (R32, R49, R68).  That a wait is used up by the step that
executes is the model's choice (log 3, DESIGN CHOICE). -/
def Obligations.BusyStepRunsTheDecodedCommand : Prop :=
  ∀ (s : State) (c : Command), s.port = .busy c →
    (∀ i, decode c = .ok i → s.inputs.head? ≠ some .reset → s.inputs.head? ≠ some .wait →
      step s = exec i s) ∧
    (∀ i rest, decode c = .ok i → s.inputs = .wait :: rest →
      step s = exec i { s with inputs := rest }) ∧
    (∀ e, decode c = .error e → s.status.halt = false → s.inputs.head? ≠ some .reset →
      s.inputs.head? ≠ some .wait → Faults s (step s) .illegalCommand)

/-- The port goes IDLE, BUSY, RESP, IDLE: a command the host transfers and whose response it takes is
run in three steps, and the host has exactly that command's response (R32, R51, R65); the host's side is
the model's own (log 3). -/
def Obligations.PortRunsOneCommandPerResponse : Prop :=
  ∀ (s : State) (c : Command) (rest : List HostAction),
    s.port = .idle → s.inputs = .command c :: .takeResponse :: rest →
    ∃ (t : State) (r : Response),
      runCommand c { s with port := .busy c, inputs := .takeResponse :: rest } = .next t ∧
      t.port = .resp r ∧
      Host.Core.run core 3 s =
        .next { t with port := .idle, inputs := rest, delivered := s.delivered ++ [r] }

/-- The output signals in each port state, and `halted` (R31, R32). -/
def Obligations.PortSignalsFollowThePortState : Prop :=
  ∀ s : State,
    s.haltedOut = s.status.halt ∧
    (s.port = .idle → s.cmdReady = true ∧ s.rspValid = false) ∧
    (∀ c, s.port = .busy c → s.cmdReady = false ∧ s.rspValid = false) ∧
    (∀ r, s.port = .resp r → s.cmdReady = false ∧ s.rspValid = true ∧
      s.rspCode = some r.code.toByte ∧ s.rspData = some r.data)

/-- Reset, in every state: every register 0, STATUS 0, the port IDLE with no response pending and none
delivered for an abandoned command, `halted` 0, CFG unchanged (R241, R36, R242).  The host's own record
(`inputs`, `delivered`) is the model's (log 3). -/
def Obligations.ResetGivesTheResetState : Prop :=
  ∀ (s : State) (rest : List HostAction), s.inputs = .reset :: rest →
    ∃ t, step s = .next t ∧
      (∀ i, t.limbs i = [] ∧ t.x i = 0) ∧ t.status.toWord = 0 ∧ t.port = .idle ∧
      t.cmdReady = true ∧ t.rspValid = false ∧ t.haltedOut = false ∧ t.cfg = s.cfg ∧
      t.inputs = rest ∧ t.delivered = s.delivered

/-- Once STATUS.HALT = 1 the registers and STATUS never change until reset, every command but a legal
RDSR answers Halted, and reset ends the halt (R227, R219). -/
def Obligations.HaltLastsUntilReset : Prop :=
  ∀ s : State, s.status.halt = true →
    (∀ t, step s = .next t → s.inputs.head? ≠ some .reset →
      t.regs = s.regs ∧ t.status = s.status) ∧
    (∀ c : Command, (∀ a : Scalar, decode c = .ok (.rdsr a) → 2 ≤ a.toNat) →
      ∃ t, runCommand c s = .next t ∧ t = { s with port := .resp ⟨.halted, 0⟩ }) ∧
    (∀ rest t, s.inputs = .reset :: rest → step s = .next t → t.status.halt = false)

/-- A step never refuses, and stops only where the host's next transfer can never happen: it offers a
command while a response is pending, or waits to take one while no command is in the block.  With no
action of the host pending the block holds its state, unless it has a command to run.  (Log 4, a
DESIGN CHOICE, from R248 and 93_implementation_defined.md I20.) -/
def Obligations.StepStopsOnlyWhereTheHostStalls : Prop :=
  ∀ s : State,
    (∀ r, step s ≠ .refused r) ∧
    ((∃ r, step s = .fault r) ↔
      (∃ c rest r, s.inputs = .command c :: rest ∧ s.port = .resp r) ∨
      (∃ rest, s.inputs = .takeResponse :: rest ∧ s.port = .idle)) ∧
    (s.inputs = [] → (∀ c, s.port ≠ .busy c) → step s = .next s)

/-! ### The whole machine -/

/-- Every command, in every state, is answered by exactly one response, and a fault's `DATA` is 0
(R37, R65). -/
def Obligations.EveryCommandIsAnswered : Prop :=
  ∀ (i : Instr) (s : State), ∃ t r, exec i s = .next t ∧ t.port = .resp r ∧
    (r.code ≠ .ok → r.data = 0)

/-- A fault changes no register; it changes STATUS by recording its code and nothing else (R13, R223,
R224). -/
def Obligations.FaultsChangeNoRegister : Prop :=
  ∀ (i : Instr) (s t : State) (c : Code) (d : Scalar),
    exec i s = .next t → t.port = .resp ⟨c, d⟩ → c ≠ .ok →
    t.regs = s.regs ∧ t.status = s.status.record c ∧ d = 0 ∧ t.cfg = s.cfg ∧
    t.inputs = s.inputs ∧ t.delivered = s.delivered

/-- A command that completes changes no register but its destinations, and STATUS only if it is CLRF
(R24, R28, R40). -/
def Obligations.CompletedCommandsChangeOnlyDestinations : Prop :=
  ∀ (i : Instr) (s t : State) (d : Scalar),
    exec i s = .next t → t.port = .resp ⟨.ok, d⟩ →
    (∀ j, j ∉ i.destinations → t.limbs j = s.limbs j) ∧ (i ≠ .clrf → t.status = s.status) ∧
    t.cfg = s.cfg ∧ t.inputs = s.inputs ∧ t.delivered = s.delivered

/-- What a command answers, records and writes depends only on the registers it reads, on STATUS and
on the parameters: two states that agree on these answer alike, whatever the other registers, the
port and the host's side hold (R24, R25, R35, R246). -/
def Obligations.CommandsDependOnlyOnTheirSources : Prop :=
  ∀ (i : Instr) (s₁ s₂ : State), s₁.cfg = s₂.cfg → s₁.status = s₂.status →
    (∀ j ∈ i.sources, s₁.limbs j = s₂.limbs j) →
    ∃ t₁ t₂, exec i s₁ = .next t₁ ∧ exec i s₂ = .next t₂ ∧ t₁.port = t₂.port ∧
      t₁.status = t₂.status ∧
      (∀ d, t₁.port = .resp ⟨.ok, d⟩ → ∀ j ∈ i.destinations, t₁.limbs j = t₂.limbs j)

/-- A legal command that reads a register whose stored limbs are not canonical raises
InvariantViolation, before any fault of its own, and halts the block (R90, R210, R220, R222).  That LZ
reads the register it names is the model's reading (log 6, DEDUCED). -/
def Obligations.NonCanonicalSourceHaltsTheBlock : Prop :=
  ∀ (i : Instr) (s : State) (j : Reg), s.status.halt = false → i.wellFormed = true →
    j ∈ i.sources → s.cfg.canonical (s.limbs j) = false →
    Faults s (exec i s) .invariantViolation ∧
    ∀ t, exec i s = .next t → t.status.halt = true ∧ t.status.fInvariant = true ∧
      t.haltedOut = true

/-- The reset state of every legal instance, and State.reset, meet the invariant and have not halted
(R36, R241, R243). -/
def Obligations.ResetStateIsRunning : Prop :=
  (∀ cfg : Config, cfg.valid = true → (State.resetOf cfg).Running) ∧ State.reset.Running

/-- Every step keeps the invariant: legal parameters, every register canonical, F_INVARIANT = HALT,
the two reserved sticky bits 0, a pending response of the block's own making (R22, R27, R80). -/
def Obligations.StepKeepsTheInvariant : Prop :=
  ∀ s t : State, s.Inv → step s = .next t → t.Inv

/-- A block that meets the invariant and has not halted stays so: no sequence of commands makes a
register non-canonical or halts the block (R80, R87, R90, R220). -/
def Obligations.RunningBlockStaysRunning : Prop :=
  ∀ s t : State, s.Running → step s = .next t → t.Running

/-- A running block answers no command with Halted or InvariantViolation (R90, R219, R220). -/
def Obligations.RunningBlockNeverAnswersHalted : Prop :=
  ∀ (c : Command) (s t : State) (r : Response), s.Running → runCommand c s = .next t →
    t.port = .resp r → r.code ≠ .halted ∧ r.code ≠ .invariantViolation

/-- The sticky bits: a fault sets its own bit as part of the command, at `8 + (code - 1)` for codes
0x01 to 0x06 and at 14, 15, 16 for 0x10, 0x11, 0x13; a command that answers OK or Halted sets none; a
bit once set stays set in every step until CLRF (bits 8 to 15) or reset, which clears all (R28). -/
def Obligations.StickyBitsRecordFaults : Prop :=
  (∀ (i : Instr) (s t : State) (c : Code) (d : Scalar),
    exec i s = .next t → t.port = .resp ⟨c, d⟩ →
    (1 ≤ c.toByte.toNat → c.toByte.toNat ≤ 6 →
      t.status.toWord.getLsbD (8 + (c.toByte.toNat - 1)) = true) ∧
    (c = .illegalCommand → t.status.toWord.getLsbD 14 = true) ∧
    (c = .capacityExceeded → t.status.toWord.getLsbD 15 = true) ∧
    (c = .invariantViolation → t.status.toWord.getLsbD 16 = true) ∧
    ((c = .ok ∨ c = .halted) →
      ∀ k, t.status.toWord.getLsbD k = true → s.status.toWord.getLsbD k = true)) ∧
  (∀ s t : State, step s = .next t →
    (s.inputs.head? ≠ some .reset → ∀ k, s.status.toWord.getLsbD k = true →
      (k < 8 ∨ 15 < k ∨ ∀ c, s.port = .busy c → decode c ≠ .ok .clrf) →
      t.status.toWord.getLsbD k = true) ∧
    (s.inputs.head? = some .reset → t.status.toWord = 0))

/-- CFG: W in bits 7:0, NREG = 16 in 15:8, MAXLIMBS in 47:16, `min(KT, 65535)` in 63:48 and 65535 for
schoolbook only; no step changes it (R29). -/
def Obligations.CfgShowsTheParameters : Prop :=
  (∀ cfg : Config, cfg.valid = true →
    (cfg.toWord.extractLsb' 0 8).toNat = cfg.width.bits ∧
    (cfg.toWord.extractLsb' 8 8).toNat = 16 ∧
    (cfg.toWord.extractLsb' 16 32).toNat = cfg.maxLimbs ∧
    (∀ k, cfg.kt = some k → (cfg.toWord.extractLsb' 48 16).toNat = min k 65535) ∧
    (cfg.kt = none → (cfg.toWord.extractLsb' 48 16).toNat = 65535)) ∧
  ∀ s t : State, step s = .next t → t.cfg = s.cfg

/-- The STATUS word, bit by bit: HALT in bit 0, the sticky bits in 8 to 16, every other bit 0 (R27). -/
def Obligations.StatusWordLayout : Prop :=
  ∀ (t : Status) (k : Nat), t.toWord.getLsbD k =
    match k with
    | 0 => t.halt
    | 8 => t.fUnderflow
    | 9 => t.fDivZero
    | 10 => t.fOverflow
    | 11 => t.fInvDigit
    | 12 => t.fInvBase
    | 13 => t.fBitRange
    | 14 => t.fIllegal
    | 15 => t.fCapacity
    | 16 => t.fInvariant
    | _ => false

/-- The numbers of the response codes (R221). -/
def Obligations.ResponseCodeNumbers : Prop :=
  [Code.ok, .underflow, .divisionByZero, .overflow, .invalidDigit, .invalidBase, .invalidBitRange,
    .illegalCommand, .capacityExceeded, .halted, .invariantViolation].map Code.toByte =
  [0x00#8, 0x01#8, 0x02#8, 0x03#8, 0x04#8, 0x05#8, 0x06#8, 0x10#8, 0x11#8, 0x12#8, 0x13#8]

/-! ### System commands -/

/-- NOP: its word is all zeros; it answers (OK, 0) and changes no state; Halted in halt; a non-zero
register field makes the word illegal (R200). -/
def Obligations.NopChangesNothing : Prop :=
  (encode .nop).word = 0#32 ∧
  (∀ s : State, s.status.halt = false →
    exec .nop s = .next { s with port := .resp ⟨.ok, 0⟩ }) ∧
  (∀ s : State, s.status.halt = true →
    exec .nop s = .next { s with port := .resp ⟨.halted, 0⟩ }) ∧
  (∀ (c : Command) (s : State), opcOf c.word = 0x00#8 → c.word ≠ 0#32 →
    s.status.halt = false → Faults s (runCommand c s) .illegalCommand)

/-- RDSR: `A = 0` reads STATUS as it was before the command and `A = 1` reads CFG, in halt too; any
other `A` is IllegalCommand, and Halted in halt; reading changes nothing (R201). -/
def Obligations.RdsrReadsSystemRegisters : Prop :=
  (∀ s : State, Completes s (exec (.rdsr 0) s) [] s.status.toWord) ∧
  (∀ s : State, Completes s (exec (.rdsr 1) s) [] s.cfg.toWord) ∧
  (∀ (s : State) (a : Scalar), 2 ≤ a.toNat → s.status.halt = false →
    Faults s (exec (.rdsr a) s) .illegalCommand) ∧
  (∀ (s : State) (a : Scalar), 2 ≤ a.toNat → s.status.halt = true →
    exec (.rdsr a) s = .next { s with port := .resp ⟨.halted, 0⟩ }) ∧
  (∀ (c : Command) (s : State), opcOf c.word = 0x01#8 → c.word ≠ 0x01000000#32 →
    s.status.halt = false → Faults s (runCommand c s) .illegalCommand)

/-- CLRF: `STATUS[15:8] <- 0`; HALT, F_INVARIANT and the registers are not touched; an illegal CLRF
clears nothing (R202). -/
def Obligations.ClrfClearsStickyBits : Prop :=
  (∀ s : State, s.status.halt = false →
    ∃ t, exec .clrf s = .next t ∧ t.port = .resp ⟨.ok, 0⟩ ∧
      t.status.toWord = s.status.toWord &&& ~~~0xFF00#64 ∧ t.status.halt = s.status.halt ∧
      t.status.fInvariant = s.status.fInvariant ∧ t.regs = s.regs ∧ t.cfg = s.cfg ∧
      t.inputs = s.inputs ∧ t.delivered = s.delivered) ∧
  (∀ s : State, s.status.halt = true →
    exec .clrf s = .next { s with port := .resp ⟨.halted, 0⟩ }) ∧
  (∀ (c : Command) (s : State), opcOf c.word = 0x02#8 → c.word ≠ 0x02000000#32 →
    s.status.halt = false → Faults s (runCommand c s) .illegalCommand)

/-! ### Transfer -/

/-- SETP writes its primitive, on every legal instance, whatever the registers hold (R81). -/
def Obligations.SetpCreatesThePrimitive : Prop :=
  ∀ (s : State) (rd : Reg) (a : Scalar), s.status.halt = false → s.cfg.valid = true →
    Completes s (exec (.setp rd a) s) [(rd, a.toNat)] 0

/-- MOV copies a value; NORM leaves its register's limbs as they are (R82, R86). -/
def Obligations.MovCopiesAndNormKeeps : Prop :=
  (∀ (s : State) (rd rs1 : Reg), s.status.halt = false → s.readable [rs1] →
    Completes s (exec (.mov rd rs1) s) [(rd, s.x rs1)] 0) ∧
  (∀ (s : State) (rd : Reg), s.status.halt = false → s.readable [rd] →
    Completes s (exec (.norm rd) s) [] 0)

/-- In every running state NORM does what NOP does: every register, STATUS and the response (R87). -/
def Obligations.NormIsNop : Prop :=
  ∀ (s : State) (rd : Reg), s.Running → exec (.norm rd) s = exec .nop s

/-- WRL replaces limb `A` and keeps the others, in value and limb by limb (R12, R83). -/
def Obligations.WrlReplacesOneLimb : Prop :=
  ∀ (s : State) (rd : Reg) (a b : Scalar), s.status.halt = false → s.readable [rd] →
    b.toNat < 2 ^ s.cfg.w → (b.toNat = 0 ∨ a.toNat < s.cfg.maxLimbs) →
    let B := 2 ^ s.cfg.w
    let v := s.x rd - s.x rd / B ^ a.toNat % B * B ^ a.toNat + b.toNat * B ^ a.toNat
    Completes s (exec (.wrl rd a b) s) [(rd, v)] 0 ∧
    ∀ k, v / B ^ k % B = if k = a.toNat then b.toNat else s.x rd / B ^ k % B

/-- WRL's faults: a limb of more than `W` bits is Overflow, before the test of the index; a non-zero
limb at an index the register does not have is CapacityExceeded (R83, R213, R217, R222). -/
def Obligations.WrlFaultsInOrder : Prop :=
  ∀ (s : State) (rd : Reg) (a b : Scalar), s.status.halt = false → s.readable [rd] →
    (2 ^ s.cfg.w ≤ b.toNat → Faults s (exec (.wrl rd a b) s) .overflow) ∧
    (b.toNat < 2 ^ s.cfg.w → b.toNat ≠ 0 → s.cfg.maxLimbs ≤ a.toNat →
      Faults s (exec (.wrl rd a b) s) .capacityExceeded) ∧
    (s.cfg.width = .w64 → b.toNat < 2 ^ s.cfg.w)

/-- RDL answers limb `A` of the value, 0 beyond the length at every index; LEN answers the limb count,
which is at most 1 exactly in inline form (R23, R84, R85). -/
def Obligations.RdlAndLenRead : Prop :=
  ∀ (s : State) (rs1 : Reg), s.status.halt = false → s.readable [rs1] →
    (∀ a : Scalar, Completes s (exec (.rdl rs1 a) s) []
      (BitVec.ofNat 64 (s.x rs1 / (2 ^ s.cfg.w) ^ a.toNat % 2 ^ s.cfg.w))) ∧
    (∀ a : Scalar, (s.limbs rs1).getD a.toNat 0 =
      s.x rs1 / (2 ^ s.cfg.w) ^ a.toNat % 2 ^ s.cfg.w) ∧
    Completes s (exec (.len rs1) s) [] (BitVec.ofNat 64 (s.limbs rs1).length) ∧
    (∀ n, (s.limbs rs1).length ≤ n ↔ s.x rs1 < (2 ^ s.cfg.w) ^ n) ∧
    (storageForm (s.limbs rs1) = .inlineForm ↔ s.x rs1 < 2 ^ s.cfg.w)

/-- Loading a limb array (`ldn`): clear the register, then one WRL per limb in ascending order.  The
register then holds the array with its most significant zero limbs removed, whatever it held, and no
other register changes (R56, R73, R247). -/
def Obligations.LoadingALimbArray : Prop :=
  ∀ (s : State) (nd : Reg) (limbs : List Scalar), s.Running →
    (∀ l ∈ limbs, l.toNat < 2 ^ s.cfg.w) → limbs.length ≤ s.cfg.maxLimbs →
    ∃ t, execAll (Pseudo.ldn nd limbs).expand s = .next t ∧
      t.limbs nd = Machine.normalize (limbs.map BitVec.toNat) ∧ (∀ j, j ≠ nd → t.limbs j = s.limbs j) ∧
      t.status = s.status ∧ t.port = .resp ⟨.ok, 0⟩

/-- Primitive round trip: after SETP the limbs read back give the primitive (R89). -/
def Obligations.PrimitiveRoundTrip : Prop :=
  ∀ (s : State) (nd : Reg) (n : Scalar), s.status.halt = false → s.cfg.valid = true →
    ∃ t, exec (.setp nd n) s = .next t ∧ t.port = .resp ⟨.ok, 0⟩ ∧
      (s.cfg.width = .w64 → Completes t (exec (.rdl nd 0) t) [] n) ∧
      (s.cfg.width = .w32 →
        Completes t (exec (.rdl nd 0) t) [] (BitVec.ofNat 64 (n.toNat % 2 ^ 32)) ∧
        Completes t (exec (.rdl nd 1) t) [] (BitVec.ofNat 64 (n.toNat / 2 ^ 32))) ∧
      Completes t (exec (.len nd) t) [] (BitVec.ofNat 64 (lenOf s.cfg.w n.toNat))

/-- Normalising any sequence of in-range limbs gives the one canonical sequence of its value, and two
canonical sequences with one value are one sequence (R22, R80, R88). -/
def Obligations.CanonicalFormIsUnique : Prop :=
  ∀ c : Config,
    (∀ ls : StoredLimbs, (∀ l ∈ ls, l < 2 ^ c.w) → ls.length ≤ c.maxLimbs →
      c.canonical (Machine.normalize ls) = true ∧ valueOf c.w (Machine.normalize ls) = valueOf c.w ls) ∧
    (∀ ls ks : StoredLimbs, c.canonical ls = true → c.canonical ks = true →
      valueOf c.w ls = valueOf c.w ks → ls = ks)

/-! ### Addition, subtraction, comparison -/

/-- ADD and ADDP write the exact sum, or raise CapacityExceeded when it does not fit (R101, R102,
R217). -/
def Obligations.AddAndAddpWriteTheSum : Prop :=
  (∀ (s : State) (rd rs1 rs2 : Reg), s.status.halt = false → s.readable [rs1, rs2] →
    (s.x rs1 + s.x rs2 < 2 ^ (s.cfg.w * s.cfg.maxLimbs) →
      Completes s (exec (.add rd rs1 rs2) s) [(rd, s.x rs1 + s.x rs2)] 0) ∧
    (2 ^ (s.cfg.w * s.cfg.maxLimbs) ≤ s.x rs1 + s.x rs2 →
      Faults s (exec (.add rd rs1 rs2) s) .capacityExceeded)) ∧
  (∀ (s : State) (rd rs1 : Reg) (a : Scalar), s.status.halt = false → s.readable [rs1] →
    (s.x rs1 + a.toNat < 2 ^ (s.cfg.w * s.cfg.maxLimbs) →
      Completes s (exec (.addp rd rs1 a) s) [(rd, s.x rs1 + a.toNat)] 0) ∧
    (2 ^ (s.cfg.w * s.cfg.maxLimbs) ≤ s.x rs1 + a.toNat →
      Faults s (exec (.addp rd rs1 a) s) .capacityExceeded))

/-- SUB and SUBP write the exact difference, or raise Underflow when the minuend is less than the
subtrahend (R104, R105, R211). -/
def Obligations.SubAndSubpWriteTheDifference : Prop :=
  (∀ (s : State) (rd rs1 rs2 : Reg), s.status.halt = false → s.readable [rs1, rs2] →
    (s.x rs2 ≤ s.x rs1 → ∃ d, s.x rs1 = s.x rs2 + d ∧
      Completes s (exec (.sub rd rs1 rs2) s) [(rd, d)] 0) ∧
    (s.x rs1 < s.x rs2 → Faults s (exec (.sub rd rs1 rs2) s) .underflow)) ∧
  (∀ (s : State) (rd rs1 : Reg) (a : Scalar), s.status.halt = false → s.readable [rs1] →
    (a.toNat ≤ s.x rs1 → ∃ d, s.x rs1 = a.toNat + d ∧
      Completes s (exec (.subp rd rs1 a) s) [(rd, d)] 0) ∧
    (s.x rs1 < a.toNat → Faults s (exec (.subp rd rs1 a) s) .underflow))

/-- CMP answers 0 for equal values, 1 when the first is greater, 2 when it is less, and writes nothing
(R108). -/
def Obligations.CmpOrdersTwoValues : Prop :=
  ∀ (s : State) (rs1 rs2 : Reg), s.status.halt = false → s.readable [rs1, rs2] →
    (s.x rs1 = s.x rs2 → Completes s (exec (.cmp rs1 rs2) s) [] 0) ∧
    (s.x rs2 < s.x rs1 → Completes s (exec (.cmp rs1 rs2) s) [] 1) ∧
    (s.x rs1 < s.x rs2 → Completes s (exec (.cmp rs1 rs2) s) [] 2)

/-- The carry chain gives the canonical limbs of the sum, the borrow chain those of the difference or
Underflow, exactly when the minuend is less (R103, R107, R110). -/
def Obligations.LimbChainsAddAndSubtract : Prop :=
  ∀ w a b : Nat, 0 < w →
    carryChain (2 ^ w) (limbsOf w a) (limbsOf w b) = limbsOf w (a + b) ∧
    (b ≤ a → borrowChain (2 ^ w) (limbsOf w a) (limbsOf w b) = some (limbsOf w (a - b))) ∧
    (a < b → borrowChain (2 ^ w) (limbsOf w a) (limbsOf w b) = none)

/-- The limb comparator, `LEN` first and then the limbs from the most significant down, orders canonical
operands as their values (R108, R88). -/
def Obligations.LimbComparatorOrdersValues : Prop :=
  ∀ w a b : Nat, 0 < w →
    (a = b → compareLimbs (limbsOf w a) (limbsOf w b) = 0) ∧
    (b < a → compareLimbs (limbsOf w a) (limbsOf w b) = 1) ∧
    (a < b → compareLimbs (limbsOf w a) (limbsOf w b) = 2)

/-- The laws of ADD and MUL on the block: swapped operands give the same step, and SUB undoes ADD
(R109, R125). -/
def Obligations.AddAndMulCommute : Prop :=
  (∀ (s : State) (nd ni nj : Reg), exec (.add nd ni nj) s = exec (.add nd nj ni) s) ∧
  (∀ (s : State) (nd ni nj : Reg), exec (.mul nd ni nj) s = exec (.mul nd nj ni) s) ∧
  (∀ (s t : State) (nd ns ni nt : Reg) (d : Scalar), s.status.halt = false → ns ≠ nt →
    exec (.add ns ni nt) s = .next t → t.port = .resp ⟨.ok, d⟩ →
    Completes t (exec (.sub nd ns nt) t) [(nd, s.x ni)] 0)

/-! ### Multiplication -/

/-- MUL writes the exact product, or raises CapacityExceeded when it does not fit (R120, R121, R126). -/
def Obligations.MulWritesTheProduct : Prop :=
  ∀ (s : State) (rd rs1 rs2 : Reg), s.status.halt = false → s.readable [rs1, rs2] →
    (s.x rs1 * s.x rs2 < 2 ^ (s.cfg.w * s.cfg.maxLimbs) →
      Completes s (exec (.mul rd rs1 rs2) s) [(rd, s.x rs1 * s.x rs2)] 0) ∧
    (2 ^ (s.cfg.w * s.cfg.maxLimbs) ≤ s.x rs1 * s.x rs2 →
      Faults s (exec (.mul rd rs1 rs2) s) .capacityExceeded)

/-- The multiplier, schoolbook below the threshold and Karatsuba above it, ends and gives the exact
product for every legal `KT`, schoolbook only included (R8, R122, R123, R124). -/
def Obligations.MultiplierKernelsGiveTheProduct : Prop :=
  ∀ (w : Nat) (kt : Option Nat) (a b : Nat), 0 < w → (∀ k, kt = some k → 8 ≤ k) →
    mulKernel w kt a b = some (a * b)

/-! ### Division -/

/-- DIVREM, DIV and REM write the unique quotient and remainder of a non-zero divisor (R130 to R133). -/
def Obligations.DivisionWritesQuotientAndRemainder : Prop :=
  ∀ (s : State) (rs1 rs2 : Reg), s.status.halt = false → s.readable [rs1, rs2] → s.x rs2 ≠ 0 →
    ∃ q r, s.x rs1 = q * s.x rs2 + r ∧ r < s.x rs2 ∧
      (∀ rd rd2, rd ≠ rd2 →
        Completes s (exec (.divrem rd rd2 rs1 rs2) s) [(rd, q), (rd2, r)] 0) ∧
      (∀ rd, Completes s (exec (.div rd rs1 rs2) s) [(rd, q)] 0) ∧
      (∀ rd, Completes s (exec (.rem rd rs1 rs2) s) [(rd, r)] 0)

/-- DivisionByZero, code 0x02: raised by DIVREM, DIV and REM for a zero divisor and by MODPOW for a zero
modulus, whatever the other operands; never by XGCD (R212). -/
def Obligations.ZeroDivisorFaults : Prop :=
  Code.divisionByZero.toByte = 0x02#8 ∧
  (∀ (s : State) (rs1 rs2 : Reg), s.status.halt = false → s.readable [rs1, rs2] → s.x rs2 = 0 →
    (∀ rd rd2, rd ≠ rd2 → Faults s (exec (.divrem rd rd2 rs1 rs2) s) .divisionByZero) ∧
    (∀ rd, Faults s (exec (.div rd rs1 rs2) s) .divisionByZero) ∧
    (∀ rd, Faults s (exec (.rem rd rs1 rs2) s) .divisionByZero)) ∧
  (∀ (s : State) (rd rs1 rs2 rs3 : Reg), s.status.halt = false → s.readable [rs1, rs2, rs3] →
    s.x rs3 = 0 → Faults s (exec (.modpow rd rs1 rs2 rs3) s) .divisionByZero) ∧
  (∀ (s t : State) (rd rd2 rd3 rs1 rs2 : Reg) (d : Scalar),
    exec (.xgcd rd rd2 rd3 rs1 rs2) s = .next t → t.port ≠ .resp ⟨.divisionByZero, d⟩)

/-- The division identity on the block: after `divrem nq, nr, na, nb` the sequence `mul nt, nq, nb;
add nt, nt, nr; cmp nt, na` answers 0 and raises no fault, and `cmp nr, nb` answers 2; DIV and REM
write the same quotient and remainder (R139). -/
def Obligations.DivisionIdentity : Prop :=
  ∀ (s : State) (nq nr na nb nt : Reg), s.status.halt = false → s.readable [na, nb] →
    s.x nb ≠ 0 → nq ≠ nr → nq ≠ na → nq ≠ nb → nr ≠ na → nr ≠ nb → nt ≠ na → nt ≠ nb → nt ≠ nr →
    ∃ t u v, exec (.divrem nq nr na nb) s = .next t ∧
      exec (.mul nt nq nb) t = .next u ∧ u.port = .resp ⟨.ok, 0⟩ ∧
      exec (.add nt nt nr) u = .next v ∧ v.port = .resp ⟨.ok, 0⟩ ∧
      Completes v (exec (.cmp nt na) v) [] 0 ∧
      Completes v (exec (.cmp nr nb) v) [] 2 ∧
      Completes s (exec (.div nq na nb) s) [(nq, t.x nq)] 0 ∧
      Completes s (exec (.rem nr na nb) s) [(nr, t.x nr)] 0

/-- The long-division engine, with its normalising shift, digit estimates and corrections and its
single-limb pass, gives the floor quotient and the remainder (R130, R135, R137, R138). -/
def Obligations.LongDivisionEngineDivides : Prop :=
  ∀ w a b : Nat, 0 < w → b ≠ 0 → divremEngine w a b = (a / b, a % b)

/-- The quotient-digit estimator: for a normalised divisor of `n >= 2` limbs and a remaining dividend
below `v * B`, the estimate is the true digit or one more (R136, which marks this bound "from general
knowledge, not in source"). -/
def Obligations.EstimateIsExactOrOneHigh : Prop :=
  ∀ w n u v j : Nat, 0 < w → 2 ≤ n → v < 2 ^ (w * n) → 2 ^ (w * n) ≤ 2 * v →
    u / 2 ^ (w * j) < v * 2 ^ w →
    u / 2 ^ (w * j) / v ≤ estimate w n u v j ∧
    estimate w n u v j ≤ u / 2 ^ (w * j) / v + 1

/-! ### Bits -/

/-- GETBIT answers the bit, 0 beyond the value at every index; SETBIT, CLRBIT and ASGBIT change that
bit and no other; a bit set at or beyond the capacity is CapacityExceeded, a bit cleared there is not
(R151 to R154). -/
def Obligations.SingleBitCommands : Prop :=
  ∀ (s : State) (r : Reg) (a : Scalar), s.status.halt = false → s.readable [r] →
    Completes s (exec (.getbit r a) s) [] (BitVec.ofNat 64 (s.x r / 2 ^ a.toNat % 2)) ∧
    (a.toNat < s.cfg.w * s.cfg.maxLimbs → ∃ v,
      (∀ j, v.testBit j = if j = a.toNat then true else (s.x r).testBit j) ∧
      Completes s (exec (.setbit r a) s) [(r, v)] 0 ∧
      ∀ b : Scalar, b.getLsbD 0 = true → Completes s (exec (.asgbit r a b) s) [(r, v)] 0) ∧
    (s.cfg.w * s.cfg.maxLimbs ≤ a.toNat →
      Faults s (exec (.setbit r a) s) .capacityExceeded ∧
      ∀ b : Scalar, b.getLsbD 0 = true →
        Faults s (exec (.asgbit r a b) s) .capacityExceeded) ∧
    (∃ v, (∀ j, v.testBit j = if j = a.toNat then false else (s.x r).testBit j) ∧
      Completes s (exec (.clrbit r a) s) [(r, v)] 0 ∧
      ∀ b : Scalar, b.getLsbD 0 = false → Completes s (exec (.asgbit r a b) s) [(r, v)] 0)

/-- GETBITS extracts the half-open range, bit `j` of the result being bit `start + j` of the source;
ASGBITS overwrites it with the low bits of the source register and raises CapacityExceeded exactly when
a 1 would land at or beyond the capacity; `start > end` is InvalidBitRange (R155 to R159, R216). -/
def Obligations.BitRangeCommands : Prop :=
  ∀ (s : State) (rd rs1 : Reg) (a b : Scalar), s.status.halt = false → s.readable [rs1] →
    (b.toNat < a.toNat → Faults s (exec (.getbits rd rs1 a b) s) .invalidBitRange) ∧
    (a.toNat ≤ b.toNat → ∃ v,
      (∀ j, v.testBit j = (decide (j < b.toNat - a.toNat) && (s.x rs1).testBit (a.toNat + j))) ∧
      Completes s (exec (.getbits rd rs1 a b) s) [(rd, v)] 0) ∧
    (s.readable [rd] → b.toNat < a.toNat →
      Faults s (exec (.asgbits rd rs1 a b) s) .invalidBitRange) ∧
    (s.readable [rd] → a.toNat ≤ b.toNat → ∃ v,
      (∀ j, v.testBit j = if a.toNat ≤ j ∧ j < b.toNat then (s.x rs1).testBit (j - a.toNat)
        else (s.x rd).testBit j) ∧
      (v < 2 ^ (s.cfg.w * s.cfg.maxLimbs) →
        Completes s (exec (.asgbits rd rs1 a b) s) [(rd, v)] 0) ∧
      (2 ^ (s.cfg.w * s.cfg.maxLimbs) ≤ v →
        Faults s (exec (.asgbits rd rs1 a b) s) .capacityExceeded))

/-- CNT1, CNT0, LZ, TZ and BITLEN answer the counts of the value's own bits: BITLEN the least width,
CNT1 the 1 bits, CNT0 the 0 bits below that width, TZ the index of the lowest 1 bit, LZ always 0, and
all of them 0 for the value 0 (R160 to R164). -/
def Obligations.CountingCommands : Prop :=
  ∀ (s : State) (r : Reg), s.status.halt = false → s.readable [r] →
    ∃ width ones low : Nat,
      (∀ k, width ≤ k ↔ s.x r < 2 ^ k) ∧
      ones = ((Finset.range width).filter (fun j => (s.x r).testBit j = true)).card ∧
      (s.x r = 0 → low = 0) ∧
      (s.x r ≠ 0 → (s.x r).testBit low = true ∧ ∀ j, j < low → (s.x r).testBit j = false) ∧
      Completes s (exec (.bitlen r) s) [] (BitVec.ofNat 64 width) ∧
      Completes s (exec (.cnt1 r) s) [] (BitVec.ofNat 64 ones) ∧
      Completes s (exec (.cnt0 r) s) [] (BitVec.ofNat 64 (width - ones)) ∧
      Completes s (exec (.lz r) s) [] 0 ∧
      Completes s (exec (.tz r) s) [] (BitVec.ofNat 64 low)

/-- The counts aggregated from the limbs with the top-limb width correction are the counts of the value
(R165). -/
def Obligations.PerLimbCountsAggregate : Prop :=
  ∀ w v : Nat, 0 < w →
    onesOfLimbs w (limbsOf w v) = popcount v ∧
    bitlenOfLimbs w (limbsOf w v) = bitlen v ∧
    zerosOfLimbs w (limbsOf w v) = countZeros v ∧
    leadingOfLimbs w (limbsOf w v) = leadingZeros v ∧
    trailingOfLimbs w (limbsOf w v) = trailingZeros v

/-- The barrel shifter on limbs forms the limbs of `v * 2^s` for every shift amount, and a 64-bit limb
is two 32-bit limbs, the lower index the less significant (R44, R46, R167). -/
def Obligations.LimbShiftsAndLimbWidths : Prop :=
  (∀ w v s k : Nat, 0 < w → shlLimb w v s k = v * 2 ^ s / (2 ^ w) ^ k % 2 ^ w) ∧
  (∀ v k : Nat, limbAt 64 v k = limbAt 32 v (2 * k) + 2 ^ 32 * limbAt 32 v (2 * k + 1))

/-- Bit round trips: assigning the bit GETBIT answers changes nothing and raises no fault, at every
index; assigning the bits GETBITS extracts over the same range changes nothing and raises no fault
(R166). -/
def Obligations.BitRoundTrip : Prop :=
  (∀ (s : State) (nd : Reg) (i : Scalar), s.status.halt = false → s.readable [nd] →
    ∃ t v, exec (.getbit nd i) s = .next t ∧ t.port = .resp ⟨.ok, v⟩ ∧
      t.limbs nd = s.limbs nd ∧ Completes t (exec (.asgbit nd i v) t) [] 0) ∧
  (∀ (s : State) (nt nd : Reg) (i j : Scalar), s.status.halt = false → s.readable [nd] →
    nt ≠ nd → i.toNat ≤ j.toNat →
    ∃ t, exec (.getbits nt nd i j) s = .next t ∧ t.port = .resp ⟨.ok, 0⟩ ∧
      t.limbs nd = s.limbs nd ∧ Completes t (exec (.asgbits nd nt i j) t) [] 0)

/-! ### Extended GCD and modular exponentiation -/

/-- XGCD completes on all operands with the triple of R181, `xgcd(a, b) = (g, x, y)`, that pair and no
other: it writes `g`, `|x|` and `|y|` and answers the sign bits, a zero coefficient being non-negative;
`g` is the gcd, `a*x + b*y = g` (R180, R181, R183, R184), and neither magnitude is above `max(a, b, 1)`
(R185, which marks this bound "from general knowledge, not in source").  That the function is R181's
loop is Obligations.XgcdRunsTheEuclideanLoop. -/
def Obligations.XgcdWritesBezoutCoefficients : Prop :=
  ∀ (s : State) (rd rd2 rd3 rs1 rs2 : Reg) (g : Nat) (x y : Int), s.status.halt = false →
    s.cfg.valid = true → s.readable [rs1, rs2] → rd ≠ rd2 → rd ≠ rd3 → rd2 ≠ rd3 →
    xgcd (s.x rs1) (s.x rs2) = (g, x, y) →
    Completes s (exec (.xgcd rd rd2 rd3 rs1 rs2) s) [(rd, g), (rd2, x.natAbs), (rd3, y.natAbs)]
      (signBits x y) ∧
    (∀ k, (signBits x y).getLsbD k =
      if k = 0 then decide (x < 0) else if k = 1 then decide (y < 0) else false) ∧
    g = Nat.gcd (s.x rs1) (s.x rs2) ∧ (s.x rs1 : Int) * x + s.x rs2 * y = g ∧
    x.natAbs ≤ max (max (s.x rs1) (s.x rs2)) 1 ∧ y.natAbs ≤ max (max (s.x rs1) (s.x rs2)) 1

/-- The corner cases of the extended Euclidean algorithm (R182), and the source's worked result
(R180). -/
def Obligations.XgcdCornerCases : Prop :=
  (∀ a : Nat, xgcd a 0 = (a, 1, 0)) ∧
  (∀ b : Nat, b ≠ 0 → xgcd 0 b = (b, 0, 1)) ∧
  (∀ a b : Nat, b ≠ 0 → b ∣ a → xgcd a b = (b, 0, 1)) ∧
  xgcd 240 46 = (2, -9, 47) ∧ xgcd 46 240 = (2, 47, -9) ∧ xgcd 12 18 = (6, -1, 1)

/-- MODPOW with a non-zero modulus writes `base^exponent mod modulus`: 0 for modulus 1, and 1 for
exponent 0 otherwise (R190 to R193). -/
def Obligations.ModpowWritesThePower : Prop :=
  ∀ (s : State) (rd rs1 rs2 rs3 : Reg), s.status.halt = false → s.readable [rs1, rs2, rs3] →
    s.x rs3 ≠ 0 →
    Completes s (exec (.modpow rd rs1 rs2 rs3) s) [(rd, s.x rs1 ^ s.x rs2 % s.x rs3)] 0

/-- The function of XGCD is the loop of R181: for every run of it, remainders `r`, quotients `q` and
coefficients `x`, `y` started at `(1, 0)` and `(0, 1)`, that ends when the remainder is 0, the result is
the last remainder before it with its coefficients; at the top of every pass both equalities hold
(R181). -/
def Obligations.XgcdRunsTheEuclideanLoop : Prop :=
  ∀ (n : Nat) (r q : Nat → Nat) (x y : Nat → Int),
    x 0 = 1 → x 1 = 0 → y 0 = 0 → y 1 = 1 →
    (∀ k, k < n → r k = q k * r (k + 1) + r (k + 2) ∧ r (k + 2) < r (k + 1) ∧
      x (k + 2) = x k - q k * x (k + 1) ∧ y (k + 2) = y k - q k * y (k + 1)) →
    r (n + 1) = 0 →
    xgcd (r 0) (r 1) = (r n, x n, y n) ∧
    ∀ k, k ≤ n + 1 → (r 0 : Int) * x k + r 1 * y k = r k
end

