-- ==== Sys2Proof/Laws/Operands.lean ====
section
/-!
SUPPORT. The quantities of Sys2Proof/Machine/Operands.lean in the spec's own formulas (spec/00_scope.md
R9, R10; spec/10_state.md R22; spec/44_bits.md R167), and the round trip between a value and its
canonical limbs.
-/

namespace Sys2Proof.Machine

theorem bitlen_zero : bitlen 0 = 0 := rfl

/-- `bitlen(v)` is the least `k` with `v < 2^k` (R10). -/
theorem bitlen_le_iff (v k : Nat) : bitlen v ≤ k ↔ v < 2 ^ k := by
  unfold bitlen
  split
  · subst v; simp
  · rename_i h
    rw [Nat.succ_le_iff, Nat.log2_lt h]

theorem lt_two_pow_bitlen (v : Nat) : v < 2 ^ bitlen v := (bitlen_le_iff v _).1 le_rfl

theorem lt_bitlen_iff (v k : Nat) : k < bitlen v ↔ 2 ^ k ≤ v := by
  rw [← not_iff_not, not_lt, not_le, bitlen_le_iff]

theorem bitlen_mono {v u : Nat} (h : v ≤ u) : bitlen v ≤ bitlen u :=
  (bitlen_le_iff v _).2 (lt_of_le_of_lt h (lt_two_pow_bitlen u))

theorem bitlen_eq_zero_iff (v : Nat) : bitlen v = 0 ↔ v = 0 := by
  rw [← Nat.le_zero, bitlen_le_iff]; omega

theorem bitlen_eq_size (v : Nat) : bitlen v = Nat.size v := by
  apply le_antisymm
  · rw [bitlen_le_iff]; exact Nat.lt_size_self v
  · rw [Nat.size_le]; exact lt_two_pow_bitlen v

theorem shr_eq (v s : Nat) : shr v s = v / 2 ^ s := by
  unfold shr
  split
  · rename_i h
    exact (Nat.div_eq_of_lt ((bitlen_le_iff v s).1 h)).symm
  · exact Nat.shiftRight_eq_div_pow v s

theorem shl_eq (v s : Nat) : shl v s = v * 2 ^ s := by
  unfold shl
  split
  · simp [*]
  · exact Nat.shiftLeft_eq v s

theorem mask_eq (v k : Nat) : mask v k = v % 2 ^ k := by
  unfold mask
  split
  · rename_i h
    exact (Nat.mod_eq_of_lt ((bitlen_le_iff v k).1 h)).symm
  · rfl

theorem bitAt_eq (v i : Nat) : bitAt v i = v / 2 ^ i % 2 := by rw [bitAt, shr_eq]

theorem bitAt_eq_one_iff (v i : Nat) : bitAt v i = 1 ↔ v.testBit i = true := by
  rw [bitAt_eq, Nat.testBit_eq_decide_div_mod_eq, decide_eq_true_iff]

theorem limbAt_eq (w v k : Nat) : limbAt w v k = v / 2 ^ (w * k) % 2 ^ w := by
  rw [limbAt, mask_eq, shr_eq]

theorem limbAt_lt (w v k : Nat) : limbAt w v k < 2 ^ w := by
  rw [limbAt_eq]; exact Nat.mod_lt _ (by positivity)

/-- `len(v)` is the least `n` with `v < B^n` (R10). -/
theorem lenOf_le_iff {w : Nat} (hw : 0 < w) (v n : Nat) : lenOf w v ≤ n ↔ v < 2 ^ (w * n) := by
  rw [← bitlen_le_iff, lenOf, ← Nat.lt_succ_iff, Nat.div_lt_iff_lt_mul hw, Nat.succ_mul,
    Nat.mul_comm n w]
  omega

theorem lt_pow_lenOf {w : Nat} (hw : 0 < w) (v : Nat) : v < 2 ^ (w * lenOf w v) :=
  (lenOf_le_iff hw v _).1 le_rfl

theorem lt_lenOf_iff {w : Nat} (hw : 0 < w) (v n : Nat) : n < lenOf w v ↔ 2 ^ (w * n) ≤ v := by
  rw [← not_iff_not, not_lt, not_le, lenOf_le_iff hw]

theorem lenOf_mono {w : Nat} (hw : 0 < w) {v u : Nat} (h : v ≤ u) : lenOf w v ≤ lenOf w u :=
  (lenOf_le_iff hw v _).2 (lt_of_le_of_lt h (lt_pow_lenOf hw u))

theorem lenOf_zero {w : Nat} (hw : 0 < w) : lenOf w 0 = 0 := by
  rw [← Nat.le_zero, lenOf_le_iff hw]; simp

theorem lenOf_eq_zero_iff {w : Nat} (hw : 0 < w) (v : Nat) : lenOf w v = 0 ↔ v = 0 := by
  rw [← Nat.le_zero, lenOf_le_iff hw]; simp

/-- One more limb below a value: `len(l + B*u) = len(u) + 1` unless both are zero. -/
theorem lenOf_cons {w : Nat} (hw : 0 < w) {l : Nat} (hl : l < 2 ^ w) (u : Nat)
    (h : l ≠ 0 ∨ u ≠ 0) : lenOf w (l + 2 ^ w * u) = lenOf w u + 1 := by
  apply le_antisymm
  · rw [lenOf_le_iff hw, Nat.mul_succ, Nat.pow_add, Nat.mul_comm (2 ^ _)]
    have := lt_pow_lenOf hw u
    nlinarith [Nat.two_pow_pos w]
  · rw [Nat.succ_le_iff, lt_lenOf_iff hw]
    rcases Nat.eq_zero_or_pos u with rfl | hu
    · rw [lenOf_zero hw]; simp; omega
    · obtain ⟨n, hn⟩ : ∃ n, lenOf w u = n + 1 :=
        Nat.exists_eq_succ_of_ne_zero (by rw [Ne, lenOf_eq_zero_iff hw]; omega)
      have : 2 ^ (w * n) ≤ u := (lt_lenOf_iff hw u n).1 (by omega)
      rw [hn, Nat.mul_succ, Nat.pow_add, Nat.mul_comm (2 ^ _)]
      nlinarith [Nat.two_pow_pos w]

theorem limbAt_zero (w v : Nat) : limbAt w v 0 = v % 2 ^ w := by simp [limbAt_eq]

theorem limbAt_succ (w v k : Nat) : limbAt w v (k + 1) = limbAt w (v / 2 ^ w) k := by
  rw [limbAt_eq, limbAt_eq, Nat.mul_succ, Nat.add_comm, Nat.pow_add, Nat.div_div_eq_div_mul]

theorem limbAt_eq_zero {w : Nat} (hw : 0 < w) {v k : Nat} (h : lenOf w v ≤ k) : limbAt w v k = 0 := by
  rw [limbAt_eq, Nat.div_eq_of_lt ((lenOf_le_iff hw v k).1 h), Nat.zero_mod]

theorem limbsOf_zero {w : Nat} (hw : 0 < w) : limbsOf w 0 = [] := by simp [limbsOf, lenOf_zero hw]

theorem length_limbsOf (w v : Nat) : (limbsOf w v).length = lenOf w v := by simp [limbsOf]

/-- The limbs of a non-zero value: its lowest limb, then the limbs of the rest. -/
theorem limbsOf_of_pos {w : Nat} (hw : 0 < w) {v : Nat} (hv : v ≠ 0) :
    limbsOf w v = v % 2 ^ w :: limbsOf w (v / 2 ^ w) := by
  have hlen : lenOf w v = lenOf w (v / 2 ^ w) + 1 := by
    have h := lenOf_cons hw (Nat.mod_lt v (Nat.two_pow_pos w)) (v / 2 ^ w) (by
      by_contra hc
      push Not at hc
      have := Nat.mod_add_div v (2 ^ w)
      rw [hc.1, hc.2] at this; simp at this; omega)
    rwa [Nat.mod_add_div] at h
  rw [limbsOf, hlen, List.range_succ_eq_map, List.map_cons, List.map_map, limbAt_zero, limbsOf]
  congr 1
  apply List.map_congr_left
  intro k _
  exact limbAt_succ w v k

/-- The value of the canonical limbs of `v` is `v` (R22). -/
theorem valueOf_limbsOf {w : Nat} (hw : 0 < w) (v : Nat) : valueOf w (limbsOf w v) = v := by
  induction v using Nat.strong_induction_on with
  | _ v ih =>
    rcases Nat.eq_zero_or_pos v with rfl | hv
    · rw [limbsOf_zero hw, valueOf]
    · rw [limbsOf_of_pos hw (by omega), valueOf,
        ih _ (Nat.div_lt_self hv (Nat.one_lt_two_pow (by omega))), Nat.mod_add_div]

theorem limbsOf_lt (w v : Nat) : ∀ l ∈ limbsOf w v, l < 2 ^ w := by
  intro l hl
  obtain ⟨k, _, rfl⟩ := List.mem_map.1 hl
  exact limbAt_lt w v k

theorem getLast?_limbsOf {w : Nat} (hw : 0 < w) (v : Nat) : (limbsOf w v).getLast? ≠ some 0 := by
  rcases Nat.eq_zero_or_pos (lenOf w v) with h | h
  · simp [limbsOf, h]
  · obtain ⟨n, hn⟩ := Nat.exists_eq_succ_of_ne_zero (by omega : lenOf w v ≠ 0)
    have hle : 2 ^ (w * n) ≤ v := (lt_lenOf_iff hw v n).1 (by omega)
    have hlt : v < 2 ^ (w * (n + 1)) := by
      have := lt_pow_lenOf hw v
      rwa [hn] at this
    rw [limbsOf, hn, List.range_succ, List.map_append]
    simp only [List.map_cons, List.map_nil, List.getLast?_append, List.getLast?_singleton,
      Option.some_or, ne_eq, Option.some.injEq]
    rw [limbAt_eq, Nat.mod_eq_of_lt]
    · exact (Nat.div_pos hle (Nat.two_pow_pos _)).ne'
    · rw [Nat.div_lt_iff_lt_mul (Nat.two_pow_pos _), ← Nat.pow_add]
      rwa [Nat.mul_succ, Nat.add_comm] at hlt

/-- The value of a limb sequence of in-range limbs fits its length. -/
theorem valueOf_lt {w : Nat} (ls : StoredLimbs) (h : ∀ l ∈ ls, l < 2 ^ w) :
    valueOf w ls < 2 ^ (w * ls.length) := by
  induction ls with
  | nil => simp [valueOf]
  | cons l ls ih =>
    have hl := h l (by simp)
    have := ih fun k hk => h k (by simp [hk])
    have hm := Nat.mul_le_mul_left (2 ^ w) (Nat.succ_le_of_lt this)
    rw [Nat.mul_succ] at hm
    rw [valueOf, List.length_cons, Nat.mul_succ, Nat.pow_add, Nat.mul_comm (2 ^ (w * _))]
    exact lt_of_lt_of_le (Nat.add_lt_add_right hl _) (by rw [Nat.add_comm]; exact hm)

theorem valueOf_append (w : Nat) (as bs : StoredLimbs) :
    valueOf w (as ++ bs) = valueOf w as + 2 ^ (w * as.length) * valueOf w bs := by
  induction as with
  | nil => simp [valueOf]
  | cons a as ih =>
    rw [List.cons_append, valueOf, ih, valueOf, List.length_cons, Nat.mul_succ, Nat.pow_add]
    ring

/-- The canonical limbs of the value of a sequence of in-range limbs whose last one is not zero are
that sequence: one representation per value (R22). -/
theorem limbsOf_valueOf {w : Nat} (hw : 0 < w) (ls : StoredLimbs) (h : ∀ l ∈ ls, l < 2 ^ w)
    (htop : ls.getLast? ≠ some 0) : limbsOf w (valueOf w ls) = ls := by
  induction ls with
  | nil => exact limbsOf_zero hw
  | cons l ls ih =>
    have hl := h l (by simp)
    have hne : valueOf w (l :: ls) ≠ 0 := by
      intro hz
      rw [valueOf, Nat.add_eq_zero_iff, Nat.mul_eq_zero] at hz
      cases ls with
      | nil => simp at htop; exact htop hz.1
      | cons k ks =>
        have hv : valueOf w (k :: ks) = 0 := hz.2.resolve_left (Nat.two_pow_pos w).ne'
        have := ih (fun m hm => h m (List.mem_cons_of_mem _ hm)) (by simpa [List.getLast?_cons] using htop)
        rw [hv, limbsOf_zero hw] at this
        cases this
    rw [limbsOf_of_pos hw hne, valueOf, Nat.add_mul_mod_self_left, Nat.mod_eq_of_lt hl,
      Nat.add_mul_div_left _ _ (Nat.two_pow_pos w), Nat.div_eq_of_lt hl, Nat.zero_add]
    cases ls with
    | nil => rw [valueOf, limbsOf_zero hw]
    | cons k ks =>
      rw [ih (fun m hm => h m (List.mem_cons_of_mem _ hm))
        (by simpa [List.getLast?_cons] using htop)]

end Sys2Proof.Machine

namespace Sys2Proof

open Machine

theorem LimbWidth.bits_pos (w : LimbWidth) : 0 < w.bits := by cases w <;> decide

theorem Config.w_pos (c : Config) : 0 < c.w := c.width.bits_pos

/-- A value fits a register exactly below `2^(W*MAXLIMBS)` (R6). -/
theorem Config.fits_iff (c : Config) (v : Nat) : c.fits v = true ↔ v < 2 ^ c.capBits := by
  rw [Config.fits, decide_eq_true_iff, bitlen_le_iff]

theorem Config.fits_mono {c : Config} {v u : Nat} (h : v ≤ u) (hu : c.fits u = true) :
    c.fits v = true := by
  rw [Config.fits_iff] at *; omega

/-- The canonical form, clause by clause (R22). -/
theorem Config.canonical_iff (c : Config) (ls : StoredLimbs) :
    c.canonical ls = true ↔
      ls.length ≤ c.maxLimbs ∧ (∀ l ∈ ls, l < 2 ^ c.w) ∧ ls.getLast? ≠ some 0 := by
  simp only [Config.canonical, Config.base, Bool.and_eq_true, decide_eq_true_iff, List.all_eq_true,
    and_assoc]
  exact ⟨fun ⟨a, b, c⟩ => ⟨a, fun l hl => of_decide_eq_true (b l hl), c⟩,
    fun ⟨a, b, c⟩ => ⟨a, fun l hl => decide_eq_true (b l hl), c⟩⟩

/-- The limbs a write stores are canonical exactly when the value fits (R80, R217). -/
theorem Config.canonical_limbsOf_iff (c : Config) (v : Nat) :
    c.canonical (limbsOf c.w v) = true ↔ c.fits v = true := by
  rw [Config.canonical_iff, Config.fits_iff, Config.capBits, length_limbsOf,
    lenOf_le_iff c.w_pos]
  exact ⟨fun h => h.1, fun h => ⟨h, limbsOf_lt _ _, getLast?_limbsOf c.w_pos _⟩⟩

/-- The value of canonical limbs fits (R22). -/
theorem Config.fits_valueOf {c : Config} {ls : StoredLimbs} (h : c.canonical ls = true) :
    c.fits (valueOf c.w ls) = true := by
  obtain ⟨hlen, hlt, _⟩ := (c.canonical_iff ls).1 h
  rw [Config.fits_iff, Config.capBits]
  exact lt_of_lt_of_le (valueOf_lt ls hlt) (Nat.pow_le_pow_right (by omega) (Nat.mul_le_mul_left _ hlen))

/-- Canonical limbs are the limbs of their value (R22). -/
theorem Config.limbsOf_valueOf {c : Config} {ls : StoredLimbs} (h : c.canonical ls = true) :
    limbsOf c.w (valueOf c.w ls) = ls :=
  let ⟨_, hlt, htop⟩ := (c.canonical_iff ls).1 h
  Machine.limbsOf_valueOf c.w_pos ls hlt htop

end Sys2Proof
end

