-- ==== Sys2Proof/Laws/AddSub.lean ====
section
/-!
SUPPORT. The loops of the carry chain, the borrow chain and the comparator on values
(spec/41_addsub.md R103, R107, R108).
-/

namespace Sys2Proof.Machine

variable {w : Nat} {a b : StoredLimbs}

theorem valueOf_drop (w : Nat) (a : StoredLimbs) (k : Nat) :
    valueOf w (a.drop k) = limbOr0 a k + 2 ^ w * valueOf w (a.drop (k + 1)) := by
  unfold limbOr0
  by_cases h : k < a.length
  · rw [List.drop_eq_getElem_cons h, valueOf, List.getD_eq_getElem _ _ h]
  · rw [List.drop_eq_nil_of_le (by omega), List.drop_eq_nil_of_le (by omega),
      List.getD_eq_default _ _ (by omega)]
    simp [valueOf]

theorem limbOr0_lt (h : ∀ l ∈ a, l < 2 ^ w) (k : Nat) : limbOr0 a k < 2 ^ w := by
  unfold limbOr0
  by_cases hk : k < a.length
  · rw [List.getD_eq_getElem _ _ hk]; exact h _ (List.getElem_mem hk)
  · rw [List.getD_eq_default _ _ (by omega)]; positivity

/-- In-range limbs whose value needs their number are the canonical limbs of that value. -/
theorem limbsOf_of_top (hw : 0 < w) (ls : StoredLimbs) (h : ∀ l ∈ ls, l < 2 ^ w)
    (ht : ls = [] ∨ 2 ^ (w * (ls.length - 1)) ≤ valueOf w ls) : limbsOf w (valueOf w ls) = ls := by
  apply limbsOf_valueOf hw ls h
  intro h0
  rcases ht with rfl | ht
  · simp at h0
  · obtain ⟨ys, rfl⟩ : ∃ ys, ls = ys ++ [0] := by rwa [List.getLast?_eq_some_iff] at h0
    rw [valueOf_append] at ht
    simp [valueOf] at ht
    have := valueOf_lt ys (fun l hl => h l (by simp [hl]))
    omega

/-- The carry loop adds: its value, its limbs in range, and its length, one more than the passes
exactly when a carry of 1 is left over (R103). -/
theorem carryLoop_spec (ha : ∀ l ∈ a, l < 2 ^ w) (hb : ∀ l ∈ b, l < 2 ^ w) (hw : 0 < w) :
    ∀ n k c, c ≤ 1 → a.length ≤ k + n → b.length ≤ k + n →
      valueOf w (carryLoop (2 ^ w) a b n k c) = valueOf w (a.drop k) + valueOf w (b.drop k) + c ∧
      (∀ l ∈ carryLoop (2 ^ w) a b n k c, l < 2 ^ w) ∧
      ((carryLoop (2 ^ w) a b n k c).length = n ∨
        ∃ ys, ys.length = n ∧ carryLoop (2 ^ w) a b n k c = ys ++ [1]) := by
  intro n
  induction n with
  | zero =>
    intro k c hc h1 h2
    rw [List.drop_eq_nil_of_le (by omega), List.drop_eq_nil_of_le (by omega), carryLoop]
    have : 1 < 2 ^ w := Nat.one_lt_two_pow (by omega)
    split
    · exact ⟨by simp [valueOf, *], by simpa using this, .inr ⟨[], rfl, rfl⟩⟩
    · exact ⟨by simp [valueOf]; omega, by simp, .inl rfl⟩
  | succ n ih =>
    intro k c hc h1 h2
    have la := limbOr0_lt ha k
    have lb := limbOr0_lt hb k
    rw [carryLoop]
    have hc' : (limbOr0 a k + limbOr0 b k + c) / 2 ^ w ≤ 1 := by
      rw [← Nat.lt_succ_iff, Nat.div_lt_iff_lt_mul (by positivity)]; omega
    obtain ⟨e1, e2, e3⟩ := ih (k + 1) _ hc' (by omega) (by omega)
    refine ⟨?_, ?_, ?_⟩
    · rw [valueOf, e1, valueOf_drop w a k, valueOf_drop w b k]
      have := Nat.mod_add_div (limbOr0 a k + limbOr0 b k + c) (2 ^ w)
      generalize (limbOr0 a k + limbOr0 b k + c) / 2 ^ w = q at *
      linarith
    · intro l hl
      rcases List.mem_cons.1 hl with rfl | hl
      · exact Nat.mod_lt _ (by positivity)
      · exact e2 l hl
    · rcases e3 with e3 | ⟨ys, e3, e4⟩
      · left; simp [e3]
      · right; exact ⟨_ :: ys, by simp [e3], by rw [e4, List.cons_append]⟩

/-- The borrow loop subtracts: in-range limbs of the difference, or none exactly when the rest of the
subtrahend and the borrow exceed the rest of the minuend (R107). -/
theorem borrowLoop_spec (ha : ∀ l ∈ a, l < 2 ^ w) (hb : ∀ l ∈ b, l < 2 ^ w) :
    ∀ n k c, c ≤ 1 → a.length ≤ k + n → b.length ≤ k + n →
      (valueOf w (b.drop k) + c ≤ valueOf w (a.drop k) →
        ∃ xs, borrowLoop (2 ^ w) a b n k c = some xs ∧ (∀ l ∈ xs, l < 2 ^ w) ∧
          valueOf w xs + valueOf w (b.drop k) + c = valueOf w (a.drop k)) ∧
      (valueOf w (a.drop k) < valueOf w (b.drop k) + c →
        borrowLoop (2 ^ w) a b n k c = none) := by
  intro n
  induction n with
  | zero =>
    intro k c hc h1 h2
    rw [List.drop_eq_nil_of_le (by omega), List.drop_eq_nil_of_le (by omega), borrowLoop]
    simp only [valueOf]
    exact ⟨fun h => ⟨[], by rw [if_neg (by omega)], by simp, by simp [valueOf]; omega⟩,
      fun h => by rw [if_pos (by omega)]⟩
  | succ n ih =>
    intro k c hc h1 h2
    have la := limbOr0_lt ha k
    have lb := limbOr0_lt hb k
    have le_of : ∀ x y : Nat, x ≤ y → 2 ^ w * x ≤ 2 ^ w * y := fun _ _ => Nat.mul_le_mul_left _
    have lt_of : ∀ x y : Nat, x < y → 2 ^ w * x + 2 ^ w ≤ 2 ^ w * y := fun x y h => by
      have := Nat.mul_le_mul_left (2 ^ w) (Nat.succ_le_of_lt h); rwa [Nat.mul_succ] at this
    rw [borrowLoop, valueOf_drop w a k, valueOf_drop w b k]
    generalize hA : valueOf w (a.drop (k + 1)) = A at *
    generalize hB : valueOf w (b.drop (k + 1)) = B at *
    by_cases hlt : limbOr0 a k < limbOr0 b k + c
    · rw [if_pos (by omega)]
      obtain ⟨e1, e2⟩ := ih (k + 1) 1 (by omega) (by omega) (by omega)
      rw [hA, hB] at e1 e2
      refine ⟨fun h => ?_, fun h => ?_⟩
      · obtain ⟨xs, hx, hl, hv⟩ := e1 (by
          by_contra hcc
          have := le_of A B (by omega)
          omega)
        refine ⟨((limbOr0 a k : Int) - limbOr0 b k - c + (2 ^ w : Nat)).toNat :: xs,
          by rw [hx]; rfl, ?_, ?_⟩
        · intro l h'
          rcases List.mem_cons.1 h' with rfl | h'
          · omega
          · exact hl l h'
        · rw [valueOf, ← hv]
          have : (2 ^ w : Nat) + limbOr0 a k =
              ((limbOr0 a k : Int) - limbOr0 b k - c + (2 ^ w : Nat)).toNat +
                (limbOr0 b k + c) := by omega
          generalize ((limbOr0 a k : Int) - limbOr0 b k - c + (2 ^ w : Nat)).toNat = z at *
          ring_nf at this ⊢
          omega
      · rw [e2]
        · rfl
        · by_contra hcc
          have := lt_of B A (by omega)
          omega
    · rw [if_neg (by omega)]
      obtain ⟨e1, e2⟩ := ih (k + 1) 0 (by omega) (by omega) (by omega)
      rw [hA, hB] at e1 e2
      refine ⟨fun h => ?_, fun h => ?_⟩
      · obtain ⟨xs, hx, hl, hv⟩ := e1 (by
          by_contra hcc
          have := lt_of A B (by omega)
          omega)
        refine ⟨((limbOr0 a k : Int) - limbOr0 b k - c).toNat :: xs, by rw [hx]; rfl, ?_, ?_⟩
        · intro l h'
          rcases List.mem_cons.1 h' with rfl | h'
          · omega
          · exact hl l h'
        · rw [valueOf, ← hv]
          have : limbOr0 a k =
              ((limbOr0 a k : Int) - limbOr0 b k - c).toNat + (limbOr0 b k + c) := by omega
          generalize ((limbOr0 a k : Int) - limbOr0 b k - c).toNat = z at *
          ring_nf at this ⊢
          omega
      · rw [e2]
        · rfl
        · by_contra hcc
          have := le_of B A (by omega)
          omega

/-- The comparator's scan of two sequences of one length, most significant limb first, orders their
values (R108). -/
theorem compareTopDown_spec : ∀ as bs : StoredLimbs, as.length = bs.length →
    (∀ l ∈ as, l < 2 ^ w) → (∀ l ∈ bs, l < 2 ^ w) →
    compareTopDown as bs = compareCode (valueOf w as.reverse) (valueOf w bs.reverse) := by
  intro as
  induction as with
  | nil =>
    intro bs h _ _
    cases bs with
    | nil => rfl
    | cons => simp at h
  | cons a as ih =>
    intro bs h ha hb
    cases bs with
    | nil => simp at h
    | cons b bs =>
      simp only [List.length_cons, Nat.add_right_cancel_iff] at h
      have ha' := fun l hl => ha l (List.mem_cons_of_mem _ hl)
      have hb' := fun l hl => hb l (List.mem_cons_of_mem _ hl)
      have i1 := valueOf_lt (w := w) as.reverse (by simpa using ha')
      have i2 := valueOf_lt (w := w) bs.reverse (by simpa using hb')
      rw [compareTopDown, List.reverse_cons, List.reverse_cons, valueOf_append, valueOf_append,
        List.length_reverse, List.length_reverse, ← h]
      rw [List.length_reverse] at i1 i2
      rw [← h] at i2
      simp only [valueOf, Nat.mul_zero, Nat.add_zero]
      split
      · subst b
        rw [ih bs h ha' hb', compareCode, compareCode]
        simp
      · rw [compareCode]
        by_cases hgt : a > b
        · have := Nat.mul_le_mul_left (2 ^ (w * as.length)) (show b + 1 ≤ a by omega)
          rw [Nat.mul_add, mul_one] at this
          rw [if_pos hgt, if_neg (by omega), if_pos (by omega)]
        · have := Nat.mul_le_mul_left (2 ^ (w * as.length)) (show a + 1 ≤ b by omega)
          rw [Nat.mul_add, mul_one] at this
          rw [if_neg hgt, if_neg (by omega), if_neg (by omega)]

end Sys2Proof.Machine
end

