-- ==== Sys2Proof/Laws/Bits.lean ====
section
/-!
SUPPORT. The bit operations bit by bit (spec/44_bits.md R150 to R163), and the counts of a value from
its lowest limb and the rest (R165).
-/

namespace Sys2Proof.Machine

/-- SETBIT changes its bit and no other (R152). -/
theorem testBit_setBit (v i j : Nat) :
    (setBit v i).testBit j = if j = i then true else v.testBit j := by
  unfold setBit
  rw [shl_eq, one_mul]
  split
  · rename_i h
    split
    · subst j; exact (bitAt_eq_one_iff v i).1 h
    · rfl
  · rename_i h
    rw [bitAt_eq] at h
    have hl : v % 2 ^ i < 2 ^ i := Nat.mod_lt _ (by positivity)
    have e : v = 2 ^ i * (2 * (v / 2 ^ i / 2)) + v % 2 ^ i := by
      have := Nat.div_add_mod v (2 ^ i)
      rw [show 2 * (v / 2 ^ i / 2) = v / 2 ^ i by omega, this]
    have e2 : v + 2 ^ i = 2 ^ i * (2 * (v / 2 ^ i / 2) + 1) + v % 2 ^ i := by
      rw [Nat.mul_add, mul_one]; omega
    rw [e2, Nat.testBit_two_pow_mul_add _ hl]
    conv_rhs => rw [e, Nat.testBit_two_pow_mul_add _ hl]
    by_cases hj : j < i
    · rw [if_pos hj, if_pos hj, if_neg (by omega)]
    · rw [if_neg hj, if_neg hj]
      obtain ⟨d, rfl⟩ := Nat.exists_eq_add_of_le (Nat.le_of_not_lt hj)
      rw [Nat.add_sub_cancel_left]
      cases d with
      | zero => simp
      | succ d =>
        rw [if_neg (by omega), Nat.testBit_succ, Nat.testBit_succ]
        congr 1; omega

/-- CLRBIT changes its bit and no other (R153). -/
theorem testBit_clearBit (v i j : Nat) :
    (clearBit v i).testBit j = if j = i then false else v.testBit j := by
  unfold clearBit
  rw [shl_eq, one_mul]
  by_cases h : bitAt v i = 1
  · rw [if_pos h]
    have hv : 2 ^ i ≤ v := Nat.ge_two_pow_of_testBit ((bitAt_eq_one_iff v i).1 h)
    have h0 : bitAt (v - 2 ^ i) i ≠ 1 := by
      rw [bitAt_eq] at h ⊢
      have h4 : v / 2 ^ i = (v - 2 ^ i) / 2 ^ i + 1 := by
        conv_lhs => rw [show v = (v - 2 ^ i) + 2 ^ i by omega]
        exact Nat.add_div_right _ (by positivity)
      omega
    have e : v = setBit (v - 2 ^ i) i := by
      unfold setBit
      rw [shl_eq, one_mul, if_neg h0]; omega
    by_cases hk : j = i
    · subst hk
      rw [if_pos rfl]
      exact Bool.eq_false_iff.2 fun hc => h0 ((bitAt_eq_one_iff _ _).2 hc)
    · rw [if_neg hk]
      conv_rhs => rw [e, testBit_setBit, if_neg hk]
  · rw [if_neg h]
    split
    · subst j; exact Bool.eq_false_iff.2 fun hc => h ((bitAt_eq_one_iff v _).2 hc)
    · rfl

/-- Bit `j` of an extracted range is bit `start + j` of the source (R158). -/
theorem testBit_getBits (v start stop j : Nat) :
    (getBits v start stop).testBit j = (decide (j < stop - start) && v.testBit (start + j)) := by
  unfold getBits
  rw [mask_eq, shr_eq, Nat.testBit_mod_two_pow, Nat.testBit_div_two_pow, Nat.add_comm start j]

/-- Overwriting a range bit by bit (R159). -/
theorem testBit_assignBits (v src : Nat) {start stop : Nat} (h : start ≤ stop) (j : Nat) :
    (assignBits v src start stop).testBit j =
      if start ≤ j ∧ j < stop then src.testBit (j - start) else v.testBit j := by
  unfold assignBits
  rw [mask_eq, shl_eq, shl_eq, mask_eq, shr_eq]
  obtain ⟨d, rfl⟩ := Nat.exists_eq_add_of_le h
  rw [Nat.add_sub_cancel_left]
  have h1 : v % 2 ^ start < 2 ^ start := Nat.mod_lt _ (by positivity)
  have h2 : src % 2 ^ d < 2 ^ d := Nat.mod_lt _ (by positivity)
  have h3 : v % 2 ^ start + src % 2 ^ d * 2 ^ start < 2 ^ (start + d) := by
    rw [Nat.pow_add]
    have := Nat.mul_le_mul_right (2 ^ start) (Nat.succ_le_of_lt h2)
    rw [Nat.succ_mul] at this
    linarith
  rw [show v % 2 ^ start + src % 2 ^ d * 2 ^ start + v / 2 ^ (start + d) * 2 ^ (start + d) =
    2 ^ (start + d) * (v / 2 ^ (start + d)) + (v % 2 ^ start + src % 2 ^ d * 2 ^ start) by ring,
    Nat.testBit_two_pow_mul_add _ h3, Nat.testBit_div_two_pow]
  split
  · rename_i hj
    rw [show v % 2 ^ start + src % 2 ^ d * 2 ^ start =
      2 ^ start * (src % 2 ^ d) + v % 2 ^ start by ring, Nat.testBit_two_pow_mul_add _ h1]
    split
    · rw [if_neg (by omega), Nat.testBit_mod_two_pow]; simp [*]
    · rw [if_pos (by omega), Nat.testBit_mod_two_pow]; simp; omega
  · rw [if_neg (by omega)]; congr 1; omega

/-- Counting bits over any range that reaches the bit length gives the population count (R160). -/
theorem countP_range_eq_popcount (v n : Nat) (h : bitlen v ≤ n) :
    (List.range n).countP (fun j => v.testBit j) = popcount v := by
  obtain ⟨d, rfl⟩ := Nat.exists_eq_add_of_le h
  rw [popcount, List.range_add, List.countP_append, List.countP_map, Nat.add_eq_left,
    List.countP_eq_zero]
  intro j _
  simp only [Function.comp]
  rw [Nat.testBit_lt_two_pow]
  · simp
  · exact lt_of_lt_of_le (lt_two_pow_bitlen v) (Nat.pow_le_pow_right (by omega) (by omega))

/-- The bit length above the lowest limb (R165). -/
theorem bitlen_split {w v : Nat} (h : v / 2 ^ w ≠ 0) : bitlen v = w + bitlen (v / 2 ^ w) := by
  apply le_antisymm
  · rw [bitlen_le_iff, Nat.pow_add, Nat.mul_comm, ← Nat.div_lt_iff_lt_mul (by positivity)]
    exact lt_two_pow_bitlen _
  · by_contra hc
    push Not at hc
    have h1 : w < bitlen v := by
      rw [lt_bitlen_iff]
      by_contra h2
      exact h (Nat.div_eq_of_lt (by omega))
    obtain ⟨d, hd⟩ := Nat.exists_eq_add_of_le h1.le
    have h2 := lt_two_pow_bitlen v
    rw [hd, Nat.pow_add, Nat.mul_comm, ← Nat.div_lt_iff_lt_mul (by positivity),
      ← bitlen_le_iff] at h2
    omega

/-- The population count from the lowest limb and the rest (R165). -/
theorem popcount_split (w v : Nat) :
    popcount v = popcountLimb w (v % 2 ^ w) + popcount (v / 2 ^ w) := by
  have hb : bitlen v ≤ w + bitlen (v / 2 ^ w) := by
    by_cases h : v / 2 ^ w = 0
    · rw [h, bitlen_le_iff]
      exact lt_of_lt_of_le ((Nat.div_eq_zero_iff_lt (by positivity)).1 h)
        (Nat.pow_le_pow_right (by omega) (by omega))
    · exact (bitlen_split h).le
  rw [← countP_range_eq_popcount v _ hb, List.range_add, List.countP_append, List.countP_map,
    popcountLimb, popcount]
  congr 1
  · apply List.countP_congr
    intro j hj
    rw [List.mem_range] at hj
    rw [Nat.testBit_mod_two_pow]; simp [hj]
  · apply List.countP_congr
    intro j _
    rw [Function.comp, Nat.testBit_div_two_pow, Nat.add_comm]

theorem popcountLimb_le (w l : Nat) : popcountLimb w l ≤ w := by
  unfold popcountLimb
  exact List.countP_le_length.trans (by simp)

/-- TZ names the lowest 1 bit of a value that is not 0 (R163). -/
theorem trailingZeros_spec {v : Nat} (h : v ≠ 0) :
    v.testBit (trailingZeros v) = true ∧ ∀ j, j < trailingZeros v → v.testBit j = false := by
  unfold trailingZeros
  rcases hf : (List.range (bitlen v)).find? (fun j => v.testBit j) with _ | k
  · exfalso
    rw [List.find?_eq_none] at hf
    obtain ⟨i, hi⟩ := Nat.exists_testBit_of_ne_zero h
    exact hf i (List.mem_range.2 ((lt_bitlen_iff _ _).2 (Nat.ge_two_pow_of_testBit hi))) hi
  · rw [Option.getD_some]
    refine ⟨by simpa using List.find?_some hf, fun j hj => ?_⟩
    rw [List.find?_range_eq_some] at hf
    simpa using hf.2.2 j hj

theorem trailingZeros_unique {v k : Nat} (h : v ≠ 0) (h1 : v.testBit k = true)
    (h2 : ∀ j, j < k → v.testBit j = false) : trailingZeros v = k := by
  obtain ⟨a, b⟩ := trailingZeros_spec h
  rcases lt_trichotomy k (trailingZeros v) with hlt | he | hgt
  · rw [b _ hlt] at h1; cases h1
  · exact he.symm
  · rw [h2 _ hgt] at a; cases a

/-- `ctz_W` of a limb is the trailing zero count of its value (R165). -/
theorem ctzLimb_eq {w l : Nat} (hl : l < 2 ^ w) (h : l ≠ 0) : ctzLimb w l = trailingZeros l := by
  obtain ⟨a, b⟩ := trailingZeros_spec h
  have hk : trailingZeros l < w := by
    by_contra hc
    rw [Nat.testBit_lt_two_pow (lt_of_lt_of_le hl (Nat.pow_le_pow_right (by omega) (by omega)))] at a
    cases a
  have : (List.range w).find? (fun j => l.testBit j) = some (trailingZeros l) := by
    rw [List.find?_range_eq_some]
    exact ⟨a, by simpa using hk, fun j hj => by simp [b j hj]⟩
  rw [ctzLimb, this, Option.getD_some]

end Sys2Proof.Machine
end

