-- ==== Sys2Proof/Laws/State.lean ====
section
/-!
SUPPORT. What each update of the state leaves in each field: one lemma per field per update.
-/

namespace Sys2Proof.Machine

variable (s : State) (i : Reg) (v : Nat) (c : Code) (d : Scalar)

@[simp] theorem State.respond_cfg : (s.respond c d).cfg = s.cfg := rfl
@[simp] theorem State.respond_regs : (s.respond c d).regs = s.regs := rfl
@[simp] theorem State.respond_status : (s.respond c d).status = s.status := rfl
@[simp] theorem State.respond_port : (s.respond c d).port = .resp ⟨c, d⟩ := rfl
@[simp] theorem State.respond_inputs : (s.respond c d).inputs = s.inputs := rfl
@[simp] theorem State.respond_delivered : (s.respond c d).delivered = s.delivered := rfl
@[simp] theorem State.respond_limbs : (s.respond c d).limbs i = s.limbs i := rfl

@[simp] theorem State.takeFault_cfg : (s.takeFault c).cfg = s.cfg := rfl
@[simp] theorem State.takeFault_regs : (s.takeFault c).regs = s.regs := rfl
@[simp] theorem State.takeFault_status : (s.takeFault c).status = s.status.record c := rfl
@[simp] theorem State.takeFault_port : (s.takeFault c).port = .resp ⟨c, 0⟩ := rfl
@[simp] theorem State.takeFault_inputs : (s.takeFault c).inputs = s.inputs := rfl
@[simp] theorem State.takeFault_delivered : (s.takeFault c).delivered = s.delivered := rfl
@[simp] theorem State.takeFault_limbs : (s.takeFault c).limbs i = s.limbs i := rfl

@[simp] theorem State.writeNat_cfg : (s.writeNat i v).cfg = s.cfg := rfl
@[simp] theorem State.writeNat_status : (s.writeNat i v).status = s.status := rfl
@[simp] theorem State.writeNat_port : (s.writeNat i v).port = s.port := rfl
@[simp] theorem State.writeNat_inputs : (s.writeNat i v).inputs = s.inputs := rfl
@[simp] theorem State.writeNat_delivered : (s.writeNat i v).delivered = s.delivered := rfl

/-- A write reaches the register it names and no other (R24). -/
theorem State.writeNat_limbs (j : Reg) :
    (s.writeNat i v).limbs j = if j = i then limbsOf s.cfg.w v else s.limbs j := by
  simp only [State.limbs, State.writeNat, Vector.getElem_set, Fin.ext_iff, eq_comm]

@[simp] theorem State.writeNat_limbs_self : (s.writeNat i v).limbs i = limbsOf s.cfg.w v := by
  rw [State.writeNat_limbs, if_pos rfl]

theorem State.writeNat_limbs_of_ne {i j : Reg} (h : j ≠ i) :
    (s.writeNat i v).limbs j = s.limbs j := by
  rw [State.writeNat_limbs, if_neg h]

@[simp] theorem State.acceptCommand_cfg (k : Command) : (s.acceptCommand k).cfg = s.cfg := rfl
@[simp] theorem State.acceptCommand_regs (k : Command) : (s.acceptCommand k).regs = s.regs := rfl
@[simp] theorem State.acceptCommand_status (k : Command) :
    (s.acceptCommand k).status = s.status := rfl
@[simp] theorem State.acceptCommand_port (k : Command) : (s.acceptCommand k).port = .busy k := rfl

@[simp] theorem State.deliver_cfg (r : Response) : (s.deliver r).cfg = s.cfg := rfl
@[simp] theorem State.deliver_regs (r : Response) : (s.deliver r).regs = s.regs := rfl
@[simp] theorem State.deliver_status (r : Response) : (s.deliver r).status = s.status := rfl
@[simp] theorem State.deliver_port (r : Response) : (s.deliver r).port = .idle := rfl
@[simp] theorem State.deliver_delivered (r : Response) :
    (s.deliver r).delivered = s.delivered ++ [r] := rfl

@[simp] theorem State.resetBlock_cfg : s.resetBlock.cfg = s.cfg := rfl
@[simp] theorem State.resetBlock_status : s.resetBlock.status = Status.clear := rfl
@[simp] theorem State.resetBlock_port : s.resetBlock.port = .idle := rfl
@[simp] theorem State.resetBlock_inputs : s.resetBlock.inputs = s.inputs := rfl
@[simp] theorem State.resetBlock_delivered : s.resetBlock.delivered = s.delivered := rfl

@[simp] theorem State.presentCommand_cfg (k : Command) : (s.presentCommand k).cfg = s.cfg := rfl
@[simp] theorem State.presentCommand_regs (k : Command) : (s.presentCommand k).regs = s.regs := rfl
@[simp] theorem State.presentCommand_status (k : Command) :
    (s.presentCommand k).status = s.status := rfl
@[simp] theorem State.presentCommand_port (k : Command) :
    (s.presentCommand k).port = .busy k := rfl

/-- Every register of the reset state has no limb (R36). -/
@[simp] theorem State.resetOf_limbs (cfg : Config) : (State.resetOf cfg).limbs i = [] := by
  simp [State.limbs, State.resetOf]

end Sys2Proof.Machine
end

