-- ==== Sys2Proof/Laws/Ops.lean ====
section
/-!
SUPPORT. Everything the shared operations can do, said once: a register read, the register writes of a
command, and the answer of a command.
-/

namespace Sys2Proof.Machine

/-- A register read answers the value of canonical limbs (R90). -/
theorem State.readNat?_of_canonical {s : State} {i : Reg} (h : s.cfg.canonical (s.limbs i) = true) :
    s.readNat? i = some (valueOf s.cfg.w (s.limbs i)) := by
  rw [State.readNat?, if_pos h]

theorem State.readNat?_eq_some {s : State} {i : Reg} {v : Nat} (h : s.readNat? i = some v) :
    s.cfg.canonical (s.limbs i) = true ∧ v = valueOf s.cfg.w (s.limbs i) := by
  rw [State.readNat?] at h
  split at h
  · exact ⟨‹_›, (Option.some.inj h).symm⟩
  · cases h

@[simp] theorem State.writeAll_cfg (ws : List (Reg × Nat)) (s : State) :
    (s.writeAll ws).cfg = s.cfg := by
  induction ws generalizing s with
  | nil => rfl
  | cons p ws ih => rw [State.writeAll, ih, State.writeNat_cfg]

@[simp] theorem State.writeAll_status (ws : List (Reg × Nat)) (s : State) :
    (s.writeAll ws).status = s.status := by
  induction ws generalizing s with
  | nil => rfl
  | cons p ws ih => rw [State.writeAll, ih, State.writeNat_status]

@[simp] theorem State.writeAll_inputs (ws : List (Reg × Nat)) (s : State) :
    (s.writeAll ws).inputs = s.inputs := by
  induction ws generalizing s with
  | nil => rfl
  | cons p ws ih => rw [State.writeAll, ih, State.writeNat_inputs]

@[simp] theorem State.writeAll_delivered (ws : List (Reg × Nat)) (s : State) :
    (s.writeAll ws).delivered = s.delivered := by
  induction ws generalizing s with
  | nil => rfl
  | cons p ws ih => rw [State.writeAll, ih, State.writeNat_delivered]

/-- A register no write names keeps its limbs. -/
theorem State.writeAll_limbs_of_notMem (ws : List (Reg × Nat)) (s : State) {j : Reg}
    (h : j ∉ ws.map Prod.fst) : (s.writeAll ws).limbs j = s.limbs j := by
  induction ws generalizing s with
  | nil => rfl
  | cons p ws ih =>
    rw [List.map_cons, List.mem_cons, not_or] at h
    rw [State.writeAll, ih _ h.2, State.writeNat_limbs_of_ne _ _ h.1]

/-- Of writes to distinct registers each one lands. -/
theorem State.writeAll_limbs_of_mem (ws : List (Reg × Nat)) (s : State)
    (hd : (ws.map Prod.fst).Nodup) {i : Reg} {v : Nat} (h : (i, v) ∈ ws) :
    (s.writeAll ws).limbs i = limbsOf s.cfg.w v := by
  induction ws generalizing s with
  | nil => cases h
  | cons p ws ih =>
    rw [List.map_cons, List.nodup_cons] at hd
    rcases List.mem_cons.1 h with rfl | h
    · rw [State.writeAll, State.writeAll_limbs_of_notMem _ _ hd.1, State.writeNat_limbs_self]
    · rw [State.writeAll, ih _ hd.2 h, State.writeNat_cfg]

/-- After the writes a register holds the limbs of a value written to it, or what it held. -/
theorem State.writeAll_limbs (ws : List (Reg × Nat)) (s : State) (j : Reg) :
    (∃ v, (j, v) ∈ ws ∧ (s.writeAll ws).limbs j = limbsOf s.cfg.w v) ∨
      (s.writeAll ws).limbs j = s.limbs j := by
  induction ws generalizing s with
  | nil => exact .inr rfl
  | cons p ws ih =>
    rw [State.writeAll]
    rcases ih (s.writeNat p.1 p.2) with ⟨v, hv, h⟩ | h
    · exact .inl ⟨v, List.mem_cons_of_mem _ hv, h⟩
    · rw [h, State.writeNat_limbs]
      split
      · rename_i hj
        exact .inl ⟨p.2, by rw [hj]; exact List.mem_cons_self .., rfl⟩
      · exact .inr rfl

/-- What a command can answer from `s`: the three shapes of a next state.  `base` is `s`, but for
CLRF, whose own effect on STATUS is in it. -/
inductive Answer (s base : State) (dests : List Reg) : State → Prop
  /-- Halted: nothing changes (R219) -/
  | halted (h : s.status.halt = true) : Answer s base dests (s.respond .halted 0)
  /-- a fault of R221 is entered (R223) -/
  | fault (h : s.status.halt = false) (c : Code) (hc : c ≠ .ok ∧ c ≠ .halted ∧ c ≠ .invalidDigit ∧
      c ≠ .invalidBase) : Answer s base dests (s.takeFault c)
  /-- the command completes (R13) -/
  | done (ws : List (Reg × Nat)) (d : Scalar) (hd : ws.map Prod.fst = dests)
      (hf : ∀ p ∈ ws, s.cfg.fits p.2 = true) :
      Answer s base dests ((base.writeAll ws).respond .ok d)

/-- A step result that is such an answer. -/
def Answered (s base : State) (dests : List Reg) (r : StepResult) : Prop :=
  ∃ t, r = .next t ∧ Answer s base dests t

theorem answered_raise {s base : State} {dests : List Reg} (h : s.status.halt = false) {c : Code}
    (hc : c ≠ .ok ∧ c ≠ .halted ∧ c ≠ .invalidDigit ∧ c ≠ .invalidBase) :
    Answered s base dests (raise s c) :=
  ⟨_, rfl, .fault h c hc⟩

theorem answered_unlessHalted {s base : State} {dests : List Reg} {k : StepResult}
    (h : s.status.halt = false → Answered s base dests k) :
    Answered s base dests (unlessHalted s k) := by
  rw [unlessHalted]
  split
  · exact ⟨_, rfl, .halted ‹_›⟩
  · exact h (Bool.eq_false_iff.2 ‹_›)

theorem answered_withReg {s base : State} {dests : List Reg} {i : Reg} {k : Nat → StepResult}
    (hh : s.status.halt = false) (h : ∀ v, s.cfg.fits v = true → Answered s base dests (k v)) :
    Answered s base dests (withReg s i k) := by
  rw [withReg]
  split
  · rename_i v hv
    obtain ⟨hc, rfl⟩ := State.readNat?_eq_some hv
    exact h _ (Config.fits_valueOf hc)
  · exact answered_raise hh (by decide)

theorem answered_finish {s : State} (h : s.status.halt = false) (ws : List (Reg × Nat))
    (d : Scalar) : Answered s s (ws.map Prod.fst) (finish s ws d) := by
  rw [finish]
  split
  · rename_i hf
    exact ⟨_, rfl, .done ws d rfl (by simpa using hf)⟩
  · exact answered_raise h (by decide)

theorem answered_ite {s base : State} {dests : List Reg} {p : Prop} [Decidable p]
    {k₁ k₂ : StepResult} (h₁ : p → Answered s base dests k₁) (h₂ : ¬p → Answered s base dests k₂) :
    Answered s base dests (if p then k₁ else k₂) := by
  split
  · exact h₁ ‹_›
  · exact h₂ ‹_›

theorem unlessHalted_of_not {s : State} (h : s.status.halt = false) (k : StepResult) :
    unlessHalted s k = k := by
  rw [unlessHalted, h]; rfl

theorem unlessHalted_of_halted {s : State} (h : s.status.halt = true) (k : StepResult) :
    unlessHalted s k = .next (s.respond .halted 0) := by
  rw [unlessHalted, h]; rfl

theorem withReg_of_canonical {s : State} {i : Reg} (h : s.cfg.canonical (s.limbs i) = true)
    (k : Nat → StepResult) : withReg s i k = k (valueOf s.cfg.w (s.limbs i)) := by
  rw [withReg, State.readNat?_of_canonical h]

theorem withReg_of_not_canonical {s : State} {i : Reg} (h : s.cfg.canonical (s.limbs i) ≠ true)
    (k : Nat → StepResult) : withReg s i k = raise s .invariantViolation := by
  rw [withReg, State.readNat?, if_neg h]

theorem finish_of_fits {s : State} {ws : List (Reg × Nat)} (h : ∀ p ∈ ws, s.cfg.fits p.2 = true)
    (d : Scalar) : finish s ws d = .next ((s.writeAll ws).respond .ok d) := by
  rw [finish, if_pos (by simpa using h)]

theorem finish_of_not_fits {s : State} {ws : List (Reg × Nat)} {p : Reg × Nat} (hp : p ∈ ws)
    (h : s.cfg.fits p.2 ≠ true) (d : Scalar) : finish s ws d = raise s .capacityExceeded := by
  rw [finish, if_neg]
  intro hall
  exact h (by simpa using List.all_eq_true.1 hall p hp)

end Sys2Proof.Machine
end

