-- ==== Sys2Proof/Laws/Completes.lean ====
section
/-!
SUPPORT. The two ways a command ends, `Completes` and `Faults` (Sys2Proof/Safety.lean), for each of
the shared operations of Sys2Proof/Machine/Ops.lean; the meanings are chains of these.
-/

namespace Sys2Proof.Machine

variable {s : State}

theorem State.x_def (i : Reg) : s.x i = valueOf s.cfg.w (s.limbs i) := rfl

/-- The value of a readable register fits a register (R22). -/
theorem State.fits_x {i : Reg} (h : s.cfg.canonical (s.limbs i) = true) :
    s.cfg.fits (s.x i) = true := Config.fits_valueOf h

theorem State.x_lt {i : Reg} (h : s.cfg.canonical (s.limbs i) = true) :
    s.x i < 2 ^ s.cfg.capBits := (s.cfg.fits_iff _).1 (State.fits_x h)

/-- The stored limbs of a readable register are the limbs of its value (R22). -/
theorem State.limbs_eq {i : Reg} (h : s.cfg.canonical (s.limbs i) = true) :
    s.limbs i = limbsOf s.cfg.w (s.x i) := (Config.limbsOf_valueOf h).symm

theorem withReg_eq {i : Reg} (h : s.cfg.canonical (s.limbs i) = true) (k : Nat → StepResult) :
    withReg s i k = k (s.x i) := withReg_of_canonical h k

theorem readable_one {i : Reg} (h : s.readable [i]) : s.cfg.canonical (s.limbs i) = true :=
  h i (by simp)

theorem readable_two {i j : Reg} (h : s.readable [i, j]) :
    s.cfg.canonical (s.limbs i) = true ∧ s.cfg.canonical (s.limbs j) = true :=
  ⟨h i (by simp), h j (by simp)⟩

theorem readable_three {i j k : Reg} (h : s.readable [i, j, k]) :
    s.cfg.canonical (s.limbs i) = true ∧ s.cfg.canonical (s.limbs j) = true ∧
      s.cfg.canonical (s.limbs k) = true :=
  ⟨h i (by simp), h j (by simp), h k (by simp)⟩

/-- A command whose writes go to distinct registers and fit completes (R10, R13). -/
theorem completes_finish {ws : List (Reg × Nat)} (hn : (ws.map Prod.fst).Nodup)
    (hf : ∀ p ∈ ws, s.cfg.fits p.2 = true) (d : Scalar) : Completes s (finish s ws d) ws d := by
  refine ⟨_, finish_of_fits hf d, rfl, fun p hp => ?_, fun j hj => ?_, ?_, ?_, ?_, ?_⟩
  · have h := State.writeAll_limbs_of_mem ws s hn (i := p.1) (v := p.2) hp
    simp only [State.respond_cfg, State.writeAll_cfg, State.respond_limbs, State.x, h]
    exact ⟨(s.cfg.canonical_limbsOf_iff _).2 (hf p hp), valueOf_limbsOf s.cfg.w_pos _⟩
  · rw [State.respond_limbs, State.writeAll_limbs_of_notMem _ _ hj]
  all_goals simp

/-- One write of a value that fits. -/
theorem completes_one {rd : Reg} {v : Nat} (h : s.cfg.fits v = true) (d : Scalar) :
    Completes s (finish s [(rd, v)] d) [(rd, v)] d :=
  completes_finish (by simp) (by simpa using h) d

/-- A command that only answers. -/
theorem completes_none (d : Scalar) : Completes s (finish s [] d) [] d :=
  completes_finish (by simp) (by simp) d

/-- A write that stores the limbs already there is no write. -/
theorem completes_same {rd : Reg} {v : Nat} (h : limbsOf s.cfg.w v = s.limbs rd)
    (hf : s.cfg.fits v = true) (d : Scalar) : Completes s (finish s [(rd, v)] d) [] d := by
  obtain ⟨t, ht, hp, hw, hl, rest⟩ := completes_one (rd := rd) hf d
  refine ⟨t, ht, hp, by simp, fun j _ => ?_, rest⟩
  by_cases hj : j = rd
  · rw [finish_of_fits (by simpa using hf)] at ht
    cases ht
    subst hj
    simp [State.writeAll, h]
  · exact hl j (by simpa using hj)

/-- A raised fault is entered (R223). -/
theorem faults_raise (c : Code) : Faults s (raise s c) c :=
  ⟨_, rfl, rfl, rfl, rfl, rfl, rfl, rfl⟩

/-- A write that does not fit is CapacityExceeded (R10, R217). -/
theorem faults_finish {ws : List (Reg × Nat)} {p : Reg × Nat} (hp : p ∈ ws)
    (h : s.cfg.fits p.2 ≠ true) (d : Scalar) :
    Faults s (finish s ws d) .capacityExceeded := by
  rw [finish_of_not_fits hp h]; exact faults_raise _

end Sys2Proof.Machine
end

