-- ==== Sys2Proof/Laws/Decode.lean ====
section
/-!
SUPPORT. The fields of an encoded word read back (spec/30_encoding.md R60), and what the decoder does
with a word that matches a row (R61, R68).
-/

namespace Sys2Proof

variable (m : Mnemonic) (rd rd2 rd3 rs1 rs2 rs3 : Reg)

theorem toFin_regBits (r : Reg) : (regBits r).toFin = r := by revert r; decide

@[simp] theorem opcOf_wordOf : opcOf (wordOf m rd rd2 rd3 rs1 rs2 rs3) = m.opcode := by
  unfold opcOf wordOf
  erw [BitVec.extractLsb'_append_eq_of_le (by decide), BitVec.extractLsb'_append_eq_of_le (by decide),
    BitVec.extractLsb'_append_eq_of_le (by decide), BitVec.extractLsb'_append_eq_of_le (by decide),
    BitVec.extractLsb'_append_eq_of_le (by decide), BitVec.extractLsb'_append_eq_left]

@[simp] theorem rdOf_wordOf : rdOf (wordOf m rd rd2 rd3 rs1 rs2 rs3) = rd := by
  unfold rdOf regAt wordOf
  erw [BitVec.extractLsb'_append_eq_of_le (by decide), BitVec.extractLsb'_append_eq_of_le (by decide),
    BitVec.extractLsb'_append_eq_of_le (by decide), BitVec.extractLsb'_append_eq_of_le (by decide),
    BitVec.extractLsb'_append_eq_of_le (by decide), BitVec.extractLsb'_append_eq_right]
  exact toFin_regBits _

@[simp] theorem rd2Of_wordOf : rd2Of (wordOf m rd rd2 rd3 rs1 rs2 rs3) = rd2 := by
  unfold rd2Of regAt wordOf
  erw [BitVec.extractLsb'_append_eq_of_le (by decide), BitVec.extractLsb'_append_eq_of_le (by decide),
    BitVec.extractLsb'_append_eq_of_le (by decide), BitVec.extractLsb'_append_eq_of_le (by decide),
    BitVec.extractLsb'_append_eq_right]
  exact toFin_regBits _

@[simp] theorem rd3Of_wordOf : rd3Of (wordOf m rd rd2 rd3 rs1 rs2 rs3) = rd3 := by
  unfold rd3Of regAt wordOf
  erw [BitVec.extractLsb'_append_eq_of_le (by decide), BitVec.extractLsb'_append_eq_of_le (by decide),
    BitVec.extractLsb'_append_eq_of_le (by decide), BitVec.extractLsb'_append_eq_right]
  exact toFin_regBits _

@[simp] theorem rs1Of_wordOf : rs1Of (wordOf m rd rd2 rd3 rs1 rs2 rs3) = rs1 := by
  unfold rs1Of regAt wordOf
  erw [BitVec.extractLsb'_append_eq_of_le (by decide), BitVec.extractLsb'_append_eq_of_le (by decide),
    BitVec.extractLsb'_append_eq_right]
  exact toFin_regBits _

@[simp] theorem rs2Of_wordOf : rs2Of (wordOf m rd rd2 rd3 rs1 rs2 rs3) = rs2 := by
  unfold rs2Of regAt wordOf
  erw [BitVec.extractLsb'_append_eq_of_le (by decide), BitVec.extractLsb'_append_eq_right]
  exact toFin_regBits _

@[simp] theorem rs3Of_wordOf : rs3Of (wordOf m rd rd2 rd3 rs1 rs2 rs3) = rs3 := by
  unfold rs3Of regAt wordOf
  erw [BitVec.extractLsb'_append_eq_right]
  exact toFin_regBits _

/-- The opcode map lists each opcode once (R67, R68). -/
theorem ofOpcode?_opcode : Mnemonic.ofOpcode? m.opcode = some m := by cases m <;> decide

theorem ofOpcode?_eq_some {opc : BitVec 8} {m : Mnemonic} (h : Mnemonic.ofOpcode? opc = some m) :
    m.opcode = opc := by simpa using List.find?_some h

/-- A word that matches the row of its opcode decodes to that row's command (R61). -/
theorem decode_of_match {c : Command} {m : Mnemonic} (ho : opcOf c.word = m.opcode)
    (hm : c.word &&& m.format.mask = m.matchWord) : decode c = .ok (m.build c) := by
  rw [decode, ho, ofOpcode?_opcode]
  exact if_pos hm

/-- What the decoder takes matches a row, and is that row's command (R61, R68). -/
theorem decode_eq_ok {c : Command} {i : Instr} (h : decode c = .ok i) :
    ∃ m : Mnemonic, opcOf c.word = m.opcode ∧ c.word &&& m.format.mask = m.matchWord ∧
      i = m.build c := by
  rw [decode] at h
  split at h
  · cases h
  · rename_i m hm
    split at h
    · rename_i hmask
      exact ⟨m, (ofOpcode?_eq_some hm).symm, hmask, (Except.ok.inj h).symm⟩
    · cases h

/-- The bits of an encoded word that a row compares, field by field. -/
theorem wordOf_and (ko : BitVec 8) (k1 k2 k3 k4 k5 k6 : BitVec 4) :
    wordOf m rd rd2 rd3 rs1 rs2 rs3 &&& (ko ++ k1 ++ k2 ++ k3 ++ k4 ++ k5 ++ k6 : BitVec 32) =
      ((m.opcode &&& ko) ++ (regBits rd &&& k1) ++ (regBits rd2 &&& k2) ++ (regBits rd3 &&& k3) ++
        (regBits rs1 &&& k4) ++ (regBits rs2 &&& k5) ++ (regBits rs3 &&& k6) : BitVec 32) := by
  unfold wordOf
  erw [BitVec.and_append, BitVec.and_append, BitVec.and_append, BitVec.and_append,
    BitVec.and_append, BitVec.and_append]

end Sys2Proof
end

