-- ==== Sys2Proof/Laws/Divide.lean ====
section
/-!
SUPPORT. The loops of the long-division engine (spec/43_divide.md R135, R136).
-/

namespace Sys2Proof.Machine

/-- The first correction loop ends on a digit that is not too high (R135). -/
theorem addBack_spec (v : Nat) : ∀ (qhat : Nat) (t : Int) (x : Nat), t = (x : Int) - qhat * v →
    ∃ q : Nat, addBack v qhat t = (q, (x : Int) - q * v) ∧ q * v ≤ x := by
  intro qhat
  induction qhat with
  | zero => intro t x h; exact ⟨0, by simp [addBack, h], by simp⟩
  | succ q ih =>
    intro t x h
    rw [addBack]
    split
    · exact ih _ x (by rw [h]; push_cast; ring)
    · refine ⟨q + 1, by rw [h], ?_⟩
      have : 0 ≤ t := by omega
      rw [h] at this
      zify; push_cast at *; linarith

/-- The second correction loop ends on the true digit (R135). -/
theorem subtractAgain_spec {v : Nat} (hv : 0 < v) (x : Nat) : ∀ passes q t : Nat,
    x = q * v + t → t ≤ passes →
    subtractAgain v passes q t = (x / v, ((x % v : Nat) : Int)) := by
  have base : ∀ q t : Nat, x = q * v + t → t < v →
      ((q, (t : Int)) : Nat × Int) = (x / v, ((x % v : Nat) : Int)) := by
    intro q t h1 h2
    rw [h1, Nat.mul_comm q v, Nat.mul_add_div hv, Nat.mul_add_mod, Nat.div_eq_of_lt h2,
      Nat.mod_eq_of_lt h2, Nat.add_zero]
  intro passes
  induction passes with
  | zero => intro q t h1 h2; exact base _ _ h1 (by omega)
  | succ n ih =>
    intro q t h1 h2
    rw [subtractAgain]
    split
    · rw [show (t : Int) - v = ((t - v : Nat) : Int) by omega]
      refine ih _ _ ?_ (by omega)
      rw [Nat.add_mul, one_mul]; omega
    · exact base _ _ h1 (by omega)

/-- Whatever the estimate, the two correction loops give the digit and what is left (R135, R137). -/
theorem correctDigit_spec {v : Nat} (hv : 0 < v) (x q : Nat) :
    correctDigit x v q = (x / v, x % v) := by
  unfold correctDigit
  obtain ⟨q', h1, h2⟩ := addBack_spec v q _ x rfl
  dsimp only
  rw [h1]
  dsimp only
  have e : (x : Int) - q' * v = ((x - q' * v : Nat) : Int) := by push_cast [h2]; rfl
  rw [e, Int.toNat_natCast, subtractAgain_spec hv x _ q' (x - q' * v) (by omega) le_rfl]
  rfl

/-- One pass of the engine at weight `P` (R135). -/
theorem enginePass_spec {v P : Nat} (hv : 0 < v) (u : Nat) :
    u / v = u / P / v * P + (u / P % v * P + u % P) / v ∧
    u % v = (u / P % v * P + u % P) % v := by
  have h1 := Nat.div_add_mod u P
  have h2 := Nat.div_add_mod (u / P) v
  have e : u = v * (u / P / v * P) + (u / P % v * P + u % P) := by
    calc u = P * (u / P) + u % P := h1.symm
      _ = P * (v * (u / P / v) + u / P % v) + u % P := by rw [h2]
      _ = _ := by ring
  constructor
  · conv_lhs => rw [e, Nat.mul_add_div hv]
  · conv_lhs => rw [e, Nat.mul_add_mod]

/-- The refinement loop of the estimator ends on the largest digit below the base that the top three
limbs of the dividend and the top two of a normalised divisor allow (R136). -/
theorem refineEstimate_spec {B vT vN uN num : Nat} (h2 : 2 ≤ B) (h3 : B ≤ 2 * vT) (hN : vN < B)
    (hu : uN < B) (hnum : num < (vT + 1) * B) :
    let est := refineEstimate B vT vN uN 2 (num / vT) (num % vT)
    est < B ∧ est * (vT * B + vN) ≤ num * B + uN ∧
      ∀ x, x < B → x * (vT * B + vN) ≤ num * B + uN → x ≤ est := by
  intro est
  have hv : 0 < vT := by omega
  obtain ⟨q, r, hq, hr, hE⟩ : ∃ q r, q = num / vT ∧ r = num % vT ∧ num = vT * q + r :=
    ⟨_, _, rfl, rfl, (Nat.div_add_mod _ _).symm⟩
  have hrv : r < vT := by rw [hr]; exact Nat.mod_lt _ hv
  have hqB : q ≤ B + 1 := by
    by_contra hc
    have : vT * (B + 2) ≤ vT * q := Nat.mul_le_mul_left _ (by omega)
    nlinarith
  -- the test of the loop compares the candidate's product with the dividend
  have cond : ∀ q r, num = vT * q + r →
      (r * B + uN < q * vN ↔ num * B + uN < q * (vT * B + vN)) := by
    intro q r h
    have : num * B = q * (vT * B) + r * B := by rw [h]; ring
    rw [Nat.mul_add]; omega
  have first : ∀ x, x < B → x * (vT * B + vN) ≤ num * B + uN → x ≤ q := by
    intro x hx h
    by_contra hc
    have h1 : (q + 1) * vT ≤ x * vT := Nat.mul_le_mul_right _ (by omega)
    have h4 : num + 1 ≤ x * vT := by nlinarith
    have h5 : (num + 1) * B ≤ x * vT * B := Nat.mul_le_mul_right _ h4
    nlinarith
  have broke : ∀ q r, num = vT * q + r → B ≤ r → q ≤ B → q * (vT * B + vN) ≤ num * B + uN := by
    intro q r h hrB hqB
    by_contra hc
    have := (cond q r h).2 (by omega)
    have h1 : q * vN ≤ B * vN := Nat.mul_le_mul_right _ hqB
    have h2 : B * vN ≤ B * B := Nat.mul_le_mul_left _ hN.le
    have h3 : B * B ≤ r * B := Nat.mul_le_mul_right _ hrB
    omega
  have below : ∀ x q, (B ≤ q ∨ num * B + uN < q * (vT * B + vN)) → x < B →
      x * (vT * B + vN) ≤ num * B + uN → x ≤ q - 1 := by
    intro x q h hx h1
    rcases h with h | h
    · omega
    · have : x < q := by
        by_contra hc
        have : q * (vT * B + vN) ≤ x * (vT * B + vN) := Nat.mul_le_mul_right _ (by omega)
        omega
      omega
  have e : est = refineEstimate B vT vN uN 2 q r := by rw [hq, hr]
  rw [e, refineEstimate]
  by_cases c1 : B ≤ q ∨ r * B + uN < q * vN
  · rw [if_pos c1]
    have c1' : B ≤ q ∨ num * B + uN < q * (vT * B + vN) := by rwa [← cond q r hE]
    have q1 : 1 ≤ q := by
      rcases Nat.eq_zero_or_pos q with h | h
      · subst h; simp at c1; omega
      · exact h
    have n1 : num = vT * (q - 1) + (r + vT) := by
      rw [hE]; obtain ⟨k, rfl⟩ := Nat.exists_eq_add_of_le q1
      rw [Nat.add_sub_cancel_left]; ring
    by_cases c2 : B ≤ r + vT
    · rw [if_pos c2]
      have hb : q - 1 < B := by
        by_contra hc
        obtain rfl : q = B + 1 := by omega
        rw [Nat.add_sub_cancel] at n1
        nlinarith
      exact ⟨hb, broke _ _ n1 c2 hb.le, fun x hx h => below x q c1' hx h⟩
    · rw [if_neg c2, refineEstimate]
      by_cases c3 : B ≤ q - 1 ∨ (r + vT) * B + uN < (q - 1) * vN
      · rw [if_pos c3, if_pos (by omega)]
        have c3' : B ≤ q - 1 ∨ num * B + uN < (q - 1) * (vT * B + vN) := by rwa [← cond _ _ n1]
        have q2 : 2 ≤ q := by
          rcases Nat.lt_or_ge q 2 with h | h
          · rw [show q - 1 = 0 by omega] at c3; simp at c3; omega
          · exact h
        have n2 : num = vT * (q - 1 - 1) + (r + vT + vT) := by
          rw [hE]; obtain ⟨k, rfl⟩ := Nat.exists_eq_add_of_le q2
          rw [show 2 + k - 1 - 1 = k by omega]; ring
        exact ⟨by omega, broke _ _ n2 (by omega) (by omega), fun x hx h => below x _ c3' hx h⟩
      · rw [if_neg c3]
        rw [not_or, not_le, cond _ _ n1, not_lt] at c3
        exact ⟨c3.1, c3.2, fun x hx h => below x q c1' hx h⟩
  · rw [if_neg c1]
    rw [not_or, not_le, cond _ _ hE, not_lt] at c1
    exact ⟨c1.1, c1.2, first⟩

end Sys2Proof.Machine
end

