-- ==== Sys2Proof/Laws/Exec.lean ====
section
/-!
SUPPORT. What every command can answer: one inversion lemma over the 31 meanings, from which the
whole-machine statements follow without unfolding a meaning.
-/

namespace Sys2Proof.Machine

/-- The state a completing command writes to: its own, but STATUS cleared for CLRF (R202). -/
def execBase (i : Instr) (s : State) : State :=
  if i = .clrf then { s with status := s.status.clearFaults } else s

@[simp] theorem execBase_cfg (i : Instr) (s : State) : (execBase i s).cfg = s.cfg := by
  rw [execBase]; split <;> rfl
@[simp] theorem execBase_regs (i : Instr) (s : State) : (execBase i s).regs = s.regs := by
  rw [execBase]; split <;> rfl
@[simp] theorem execBase_limbs (i : Instr) (s : State) (j : Reg) :
    (execBase i s).limbs j = s.limbs j := by
  rw [State.limbs, State.limbs, execBase_regs]
@[simp] theorem execBase_inputs (i : Instr) (s : State) : (execBase i s).inputs = s.inputs := by
  rw [execBase]; split <;> rfl
@[simp] theorem execBase_delivered (i : Instr) (s : State) :
    (execBase i s).delivered = s.delivered := by
  rw [execBase]; split <;> rfl
@[simp] theorem execBase_halt (i : Instr) (s : State) :
    (execBase i s).status.halt = s.status.halt := by
  rw [execBase]; split <;> rfl

/-- Every command answers: Halted, a fault, or a completion that writes its destinations (R37, R65). -/
theorem exec_answered (i : Instr) (s : State) :
    Answered s (execBase i s) (Sys2Proof.Instr.destinations i) (exec i s) := by
  cases i with
  | rdsr a =>
    refine answered_ite (fun _ => ?_) fun _ => answered_ite (fun _ => ?_) fun _ =>
      answered_unlessHalted fun hh => answered_raise hh (by decide)
    all_goals exact ⟨_, rfl, .done [] _ rfl (by simp)⟩
  | clrf =>
    refine answered_unlessHalted fun hh => ⟨_, finish_of_fits (by simp) _, ?_⟩
    exact .done [] 0 rfl (by simp)
  | nop => exact answered_unlessHalted fun hh => answered_finish hh [] 0
  | setp rd a => exact answered_unlessHalted fun hh => answered_finish hh [(rd, _)] 0
  | wrl rd a b =>
    exact answered_unlessHalted fun hh => answered_withReg hh fun v _ =>
      answered_ite (fun _ => answered_raise hh (by decide)) fun _ =>
      answered_ite (fun _ => answered_raise hh (by decide)) fun _ => answered_finish hh [(rd, _)] 0
  | sub rd rs1 rs2 =>
    exact answered_unlessHalted fun hh => answered_withReg hh fun a _ => answered_withReg hh
      fun b _ => answered_ite (fun _ => answered_raise hh (by decide)) fun _ =>
        answered_finish hh [(rd, _)] 0
  | subp rd rs1 p =>
    exact answered_unlessHalted fun hh => answered_withReg hh fun a _ =>
      answered_ite (fun _ => answered_raise hh (by decide)) fun _ => answered_finish hh [(rd, _)] 0
  | divrem rd rd2 rs1 rs2 =>
    exact answered_unlessHalted fun hh =>
      answered_ite (fun _ => answered_raise hh (by decide)) fun _ => answered_withReg hh fun a _ =>
      answered_withReg hh fun b _ => answered_ite (fun _ => answered_raise hh (by decide)) fun _ =>
        answered_finish hh [(rd, _), (rd2, _)] 0
  | div rd rs1 rs2 =>
    exact answered_unlessHalted fun hh => answered_withReg hh fun a _ => answered_withReg hh
      fun b _ => answered_ite (fun _ => answered_raise hh (by decide)) fun _ =>
        answered_finish hh [(rd, _)] 0
  | rem rd rs1 rs2 =>
    exact answered_unlessHalted fun hh => answered_withReg hh fun a _ => answered_withReg hh
      fun b _ => answered_ite (fun _ => answered_raise hh (by decide)) fun _ =>
        answered_finish hh [(rd, _)] 0
  | setbit rd a =>
    exact answered_unlessHalted fun hh => answered_withReg hh fun v _ =>
      answered_ite (fun _ => answered_raise hh (by decide)) fun _ => answered_finish hh [(rd, _)] 0
  | asgbit rd a b =>
    exact answered_unlessHalted fun hh => answered_withReg hh fun v _ =>
      answered_ite (fun _ => answered_ite (fun _ => answered_raise hh (by decide)) fun _ =>
        answered_finish hh [(rd, _)] 0) fun _ => answered_finish hh [(rd, _)] 0
  | getbits rd rs1 a b =>
    exact answered_unlessHalted fun hh => answered_withReg hh fun v _ =>
      answered_ite (fun _ => answered_raise hh (by decide)) fun _ => answered_finish hh [(rd, _)] 0
  | asgbits rd rs1 a b =>
    exact answered_unlessHalted fun hh => answered_withReg hh fun v _ => answered_withReg hh
      fun u _ => answered_ite (fun _ => answered_raise hh (by decide)) fun _ =>
        answered_ite (fun _ => answered_raise hh (by decide)) fun _ =>
          answered_finish hh [(rd, _)] 0
  | xgcd rd rd2 rd3 rs1 rs2 =>
    exact answered_unlessHalted fun hh =>
      answered_ite (fun _ => answered_raise hh (by decide)) fun _ => answered_withReg hh fun a _ =>
      answered_withReg hh fun b _ => answered_finish hh [(rd, _), (rd2, _), (rd3, _)] _
  | modpow rd rs1 rs2 rs3 =>
    exact answered_unlessHalted fun hh => answered_withReg hh fun b _ => answered_withReg hh
      fun e _ => answered_withReg hh fun m _ =>
        answered_ite (fun _ => answered_raise hh (by decide)) fun _ =>
        answered_ite (fun _ => answered_finish hh [(rd, _)] 0) fun _ =>
          answered_finish hh [(rd, _)] 0
  | mov rd _ | norm rd | clrbit rd _ | addp rd _ _ =>
    exact answered_unlessHalted fun hh => answered_withReg hh fun v _ =>
      answered_finish hh [(rd, _)] 0
  | rdl _ _ | len _ | getbit _ _ | cnt1 _ | cnt0 _ | lz _ | tz _ | bitlen _ =>
    exact answered_unlessHalted fun hh => answered_withReg hh fun v _ => answered_finish hh [] _
  | add rd _ _ | mul rd _ _ =>
    exact answered_unlessHalted fun hh => answered_withReg hh fun a _ => answered_withReg hh
      fun b _ => answered_finish hh [(rd, _)] 0
  | cmp _ _ =>
    exact answered_unlessHalted fun hh => answered_withReg hh fun a _ => answered_withReg hh
      fun b _ => answered_finish hh [] _

/-- A command the decoder takes or refuses answers as `exec` does or is IllegalCommand (R218). -/
theorem runCommand_answered (c : Command) (s : State) :
    ∃ base dests, base.cfg = s.cfg ∧ base.regs = s.regs ∧ base.inputs = s.inputs ∧
      base.delivered = s.delivered ∧ (base.status = s.status ∨ base.status = s.status.clearFaults) ∧
      Answered s base dests (runCommand c s) := by
  rw [runCommand]
  split
  · rename_i i _
    refine ⟨execBase i s, _, by simp, by simp, by simp, by simp, ?_, exec_answered i s⟩
    rw [execBase]
    split
    · exact .inr rfl
    · exact .inl rfl
  · exact ⟨s, [], rfl, rfl, rfl, rfl, .inl rfl,
      answered_unlessHalted fun hh => answered_raise hh (by decide)⟩

end Sys2Proof.Machine
end

