-- ==== Sys2Proof/Laws/Modpow.lean ====
section
/-!
SUPPORT. What the passes of the square-and-multiply sequencer keep (spec/46_modpow.md R190, R191, R195).
-/

namespace Sys2Proof.Machine

/-- The running result stays below the modulus (R195). -/
theorem modpowLoop_lt (b e : Nat) {m : Nat} (hm : 0 < m) : ∀ i r, r < m → modpowLoop b e m i r < m := by
  intro i
  induction i with
  | zero => exact fun r h => h
  | succ i ih =>
    intro r _
    rw [modpowLoop]
    apply ih
    split <;> exact Nat.mod_lt _ hm

/-- The passes for exponent bits `i - 1` down to 0 raise the running result to `2^i` and multiply in
the base to the power of those bits (R190, R191). -/
theorem modpowLoop_modEq (b e m : Nat) : ∀ i r,
    modpowLoop b e m i r ≡ r ^ (2 ^ i) * b ^ (e % 2 ^ i) [MOD m] := by
  intro i
  induction i with
  | zero => intro r; simp [modpowLoop, Nat.mod_one]; rfl
  | succ i ih =>
    intro r
    rw [modpowLoop]
    refine (ih _).trans ?_
    have hs : e % 2 ^ (i + 1) = 2 ^ i * bitAt e i + e % 2 ^ i := by
      rw [bitAt_eq, Nat.pow_succ, Nat.mod_mul]; ring
    have hp : r ^ (2 ^ (i + 1)) = (r * r) ^ (2 ^ i) := by
      rw [← Nat.pow_two, ← Nat.pow_mul]; congr 1; rw [Nat.pow_succ]; ring
    have hlt : bitAt e i < 2 := by rw [bitAt_eq]; omega
    split
    · rename_i h1
      rw [hs, h1, hp, mul_one, Nat.pow_add, ← Nat.mul_assoc, ← Nat.mul_pow]
      refine Nat.ModEq.mul_right _ (Nat.ModEq.pow _ ?_)
      exact (Nat.mod_modEq _ _).trans (Nat.ModEq.mul_right _ (Nat.mod_modEq _ _))
    · rw [hs, show bitAt e i = 0 by omega, hp, Nat.mul_zero, Nat.zero_add]
      exact Nat.ModEq.mul_right _ (Nat.ModEq.pow _ (Nat.mod_modEq _ _))

end Sys2Proof.Machine
end

