-- ==== Sys2Proof/Laws/Multiply.lean ====
section
/-!
SUPPORT. The rows of the schoolbook kernel and the halves of the Karatsuba kernel
(spec/42_multiply.md R122, R123, R124).
-/

namespace Sys2Proof.Machine

theorem valueOf_headD_tail (w : Nat) (p : StoredLimbs) :
    valueOf w p = p.headD 0 + 2 ^ w * valueOf w p.tail := by
  cases p <;> simp [valueOf]

/-- A row adds `a * bj` to the accumulator whose cell `m` is 0, and leaves the cells above it (R122). -/
theorem macRow_spec (w bj : Nat) : ∀ (as p : StoredLimbs) (c : Nat), p.getD as.length 0 = 0 →
    valueOf w (macRow (2 ^ w) bj as p c) = valueOf w as * bj + valueOf w p + c ∧
    (∀ k, as.length < k → (macRow (2 ^ w) bj as p c).getD k 0 = p.getD k 0) ∧
    macRow (2 ^ w) bj as p c ≠ [] := by
  intro as
  induction as with
  | nil =>
    intro p c h
    refine ⟨?_, fun k hk => ?_, by simp [macRow]⟩
    · have h0 : p.headD 0 = 0 := by
        cases p with
        | nil => rfl
        | cons x xs => exact h
      rw [valueOf_headD_tail w p, h0]
      simp [macRow, valueOf]; ring
    · obtain ⟨k, rfl⟩ := Nat.exists_eq_succ_of_ne_zero (by rintro rfl; simp at hk : k ≠ 0)
      cases p <;> simp [macRow]
  | cons a as ih =>
    intro p c h
    obtain ⟨h1, h2, _⟩ := ih p.tail ((a * bj + p.headD 0 + c) / 2 ^ w) (by
      cases p with
      | nil => simp
      | cons x xs => simpa using h)
    refine ⟨?_, fun k hk => ?_, by simp [macRow]⟩
    · rw [macRow, valueOf, h1, valueOf, valueOf_headD_tail w p]
      have := Nat.mod_add_div (a * bj + p.headD 0 + c) (2 ^ w)
      generalize (a * bj + p.headD 0 + c) / 2 ^ w = q at *
      linarith
    · obtain ⟨k, rfl⟩ := Nat.exists_eq_succ_of_ne_zero (by rintro rfl; simp at hk : k ≠ 0)
      rw [macRow, List.getD_cons_succ, h2 k (by simpa using hk)]
      cases p <;> simp

/-- The rows add `a * b` to an accumulator that is 0 from cell `m` up (R122). -/
theorem schoolbookRows_spec (w : Nat) (a : StoredLimbs) : ∀ bs p : StoredLimbs,
    (∀ k, a.length ≤ k → p.getD k 0 = 0) →
    valueOf w (schoolbookRows (2 ^ w) a bs p) = valueOf w p + valueOf w a * valueOf w bs := by
  intro bs
  induction bs with
  | nil => intro p _; simp [schoolbookRows, valueOf]
  | cons b bs ih =>
    intro p hp
    obtain ⟨h1, h2, h3⟩ := macRow_spec w b a p 0 (hp _ le_rfl)
    rw [schoolbookRows]
    rcases hm : macRow (2 ^ w) b a p 0 with _ | ⟨cell, p'⟩
    · exact absurd hm h3
    · rw [hm] at h1 h2
      dsimp only
      rw [valueOf, ih p' (fun k hk => by
        have := h2 (k + 1) (by omega)
        rw [List.getD_cons_succ] at this
        rw [this]; exact hp _ (by omega)), valueOf]
      rw [valueOf] at h1
      linarith

/-- The lengths of the low half, the high half and their sum, `h` limbs up (R124). -/
theorem lenOf_halves {w : Nat} (hw : 0 < w) (v h : Nat) :
    lenOf w (v % 2 ^ (w * h)) ≤ min (lenOf w v) h ∧
    lenOf w (v / 2 ^ (w * h)) ≤ lenOf w v - h ∧
    (lenOf w v ≤ 2 * h →
      lenOf w (v % 2 ^ (w * h) + v / 2 ^ (w * h)) ≤ if lenOf w v ≤ h then lenOf w v else h + 1) := by
  have low : lenOf w (v % 2 ^ (w * h)) ≤ min (lenOf w v) h :=
    le_min (lenOf_mono hw (Nat.mod_le _ _))
      ((lenOf_le_iff hw _ _).2 (Nat.mod_lt _ (by positivity)))
  have high : lenOf w (v / 2 ^ (w * h)) ≤ lenOf w v - h := by
    rw [lenOf_le_iff hw]
    rcases le_total (lenOf w v) h with h1 | h1
    · rw [Nat.div_eq_of_lt ((lenOf_le_iff hw v h).1 h1)]; positivity
    · rw [Nat.div_lt_iff_lt_mul (by positivity), ← Nat.pow_add, ← Nat.mul_add,
        Nat.sub_add_cancel h1]
      exact lt_pow_lenOf hw v
  refine ⟨low, high, fun hv => ?_⟩
  split
  · rename_i h1
    have hlt := (lenOf_le_iff hw v h).1 h1
    rw [Nat.div_eq_of_lt hlt, Nat.mod_eq_of_lt hlt, Nat.add_zero]
  · rw [lenOf_le_iff hw, Nat.mul_add, mul_one, Nat.pow_add]
    have a1 : v % 2 ^ (w * h) < 2 ^ (w * h) := Nat.mod_lt _ (by positivity)
    have a2 : v / 2 ^ (w * h) < 2 ^ (w * h) := (lenOf_le_iff hw _ _).1 (high.trans (by omega))
    have := Nat.mul_le_mul_left (2 ^ (w * h)) (Nat.pow_le_pow_right (show 0 < 2 by omega) hw : 2 ^ 1 ≤ 2 ^ w)
    omega

end Sys2Proof.Machine
end

