-- ==== Sys2Proof/Laws/PerInstr.lean ====
section
/-!
SUPPORT. Statements about every command as syntax, one lemma per constructor.
EncodesToMatch: the word the encoder makes matches the row of its mnemonic, `w AND mask = OPC << 24`
(spec/30_encoding.md R61, R67).
-/

namespace Sys2Proof.Laws.EncodesToMatch

/-- The encoded word selects the row of the command's mnemonic (R61). -/
def Statement (i : Instr) : Prop :=
  opcOf (encode i).word = i.mnemonic.opcode ∧
    (encode i).word &&& i.mnemonic.format.mask = i.mnemonic.matchWord

/-- A word of format Z with zeros in the fields it does not use (R61). -/
theorem match_z (m : Mnemonic) (hm : m.format = .z) :
    wordOf m 0 0 0 0 0 0 &&& m.format.mask = m.matchWord := by
  rw [hm, show Format.mask .z = (0xFF#8 ++ 0xF#4 ++ 0xF#4 ++ 0xF#4 ++ 0xF#4 ++ 0xF#4 ++ 0xF#4 : BitVec 32) by decide,
    wordOf_and]
  cases m <;> first | (cases hm; done) | decide

/-- A word of format D with zeros in the fields it does not use (R61). -/
theorem match_d (m : Mnemonic) (hm : m.format = .d) (rd : Reg) :
    wordOf m rd 0 0 0 0 0 &&& m.format.mask = m.matchWord := by
  rw [hm, show Format.mask .d = (0xFF#8 ++ 0x0#4 ++ 0xF#4 ++ 0xF#4 ++ 0xF#4 ++ 0xF#4 ++ 0xF#4 : BitVec 32) by decide,
    wordOf_and]
  cases m <;> first | (cases hm; done) | (simp only [BitVec.and_zero]; decide)

/-- A word of format S with zeros in the fields it does not use (R61). -/
theorem match_s (m : Mnemonic) (hm : m.format = .s) (rs1 : Reg) :
    wordOf m 0 0 0 rs1 0 0 &&& m.format.mask = m.matchWord := by
  rw [hm, show Format.mask .s = (0xFF#8 ++ 0xF#4 ++ 0xF#4 ++ 0xF#4 ++ 0x0#4 ++ 0xF#4 ++ 0xF#4 : BitVec 32) by decide,
    wordOf_and]
  cases m <;> first | (cases hm; done) | (simp only [BitVec.and_zero]; decide)

/-- A word of format DS with zeros in the fields it does not use (R61). -/
theorem match_ds (m : Mnemonic) (hm : m.format = .ds) (rd rs1 : Reg) :
    wordOf m rd 0 0 rs1 0 0 &&& m.format.mask = m.matchWord := by
  rw [hm, show Format.mask .ds = (0xFF#8 ++ 0x0#4 ++ 0xF#4 ++ 0xF#4 ++ 0x0#4 ++ 0xF#4 ++ 0xF#4 : BitVec 32) by decide,
    wordOf_and]
  cases m <;> first | (cases hm; done) | (simp only [BitVec.and_zero]; decide)

/-- A word of format SS with zeros in the fields it does not use (R61). -/
theorem match_ss (m : Mnemonic) (hm : m.format = .ss) (rs1 rs2 : Reg) :
    wordOf m 0 0 0 rs1 rs2 0 &&& m.format.mask = m.matchWord := by
  rw [hm, show Format.mask .ss = (0xFF#8 ++ 0xF#4 ++ 0xF#4 ++ 0xF#4 ++ 0x0#4 ++ 0x0#4 ++ 0xF#4 : BitVec 32) by decide,
    wordOf_and]
  cases m <;> first | (cases hm; done) | (simp only [BitVec.and_zero]; decide)

/-- A word of format DSS with zeros in the fields it does not use (R61). -/
theorem match_dss (m : Mnemonic) (hm : m.format = .dss) (rd rs1 rs2 : Reg) :
    wordOf m rd 0 0 rs1 rs2 0 &&& m.format.mask = m.matchWord := by
  rw [hm, show Format.mask .dss = (0xFF#8 ++ 0x0#4 ++ 0xF#4 ++ 0xF#4 ++ 0x0#4 ++ 0x0#4 ++ 0xF#4 : BitVec 32) by decide,
    wordOf_and]
  cases m <;> first | (cases hm; done) | (simp only [BitVec.and_zero]; decide)

/-- A word of format DDSS with zeros in the fields it does not use (R61). -/
theorem match_ddss (m : Mnemonic) (hm : m.format = .ddss) (rd rd2 rs1 rs2 : Reg) :
    wordOf m rd rd2 0 rs1 rs2 0 &&& m.format.mask = m.matchWord := by
  rw [hm, show Format.mask .ddss = (0xFF#8 ++ 0x0#4 ++ 0x0#4 ++ 0xF#4 ++ 0x0#4 ++ 0x0#4 ++ 0xF#4 : BitVec 32) by decide,
    wordOf_and]
  cases m <;> first | (cases hm; done) | (simp only [BitVec.and_zero]; decide)

/-- A word of format DSSS with zeros in the fields it does not use (R61). -/
theorem match_dsss (m : Mnemonic) (hm : m.format = .dsss) (rd rs1 rs2 rs3 : Reg) :
    wordOf m rd 0 0 rs1 rs2 rs3 &&& m.format.mask = m.matchWord := by
  rw [hm, show Format.mask .dsss = (0xFF#8 ++ 0x0#4 ++ 0xF#4 ++ 0xF#4 ++ 0x0#4 ++ 0x0#4 ++ 0x0#4 : BitVec 32) by decide,
    wordOf_and]
  cases m <;> first | (cases hm; done) | (simp only [BitVec.and_zero]; decide)

/-- A word of format DDDSS with zeros in the fields it does not use (R61). -/
theorem match_dddss (m : Mnemonic) (hm : m.format = .dddss) (rd rd2 rd3 rs1 rs2 : Reg) :
    wordOf m rd rd2 rd3 rs1 rs2 0 &&& m.format.mask = m.matchWord := by
  rw [hm, show Format.mask .dddss = (0xFF#8 ++ 0x0#4 ++ 0x0#4 ++ 0x0#4 ++ 0x0#4 ++ 0x0#4 ++ 0xF#4 : BitVec 32) by decide,
    wordOf_and]
  cases m <;> first | (cases hm; done) | (simp only [BitVec.and_zero]; decide)

theorem nop : Statement (.nop) :=
  ⟨opcOf_wordOf .., match_z .nop rfl⟩

theorem rdsr (x0 : Scalar) : Statement (.rdsr x0) :=
  ⟨opcOf_wordOf .., match_z .rdsr rfl⟩

theorem clrf : Statement (.clrf) :=
  ⟨opcOf_wordOf .., match_z .clrf rfl⟩

theorem setp (x0 : Reg) (x1 : Scalar) : Statement (.setp x0 x1) :=
  ⟨opcOf_wordOf .., match_d .setp rfl _⟩

theorem mov (x0 x1 : Reg) : Statement (.mov x0 x1) :=
  ⟨opcOf_wordOf .., match_ds .mov rfl _ _⟩

theorem wrl (x0 : Reg) (x1 x2 : Scalar) : Statement (.wrl x0 x1 x2) :=
  ⟨opcOf_wordOf .., match_d .wrl rfl _⟩

theorem rdl (x0 : Reg) (x1 : Scalar) : Statement (.rdl x0 x1) :=
  ⟨opcOf_wordOf .., match_s .rdl rfl _⟩

theorem len (x0 : Reg) : Statement (.len x0) :=
  ⟨opcOf_wordOf .., match_s .len rfl _⟩

theorem norm (x0 : Reg) : Statement (.norm x0) :=
  ⟨opcOf_wordOf .., match_d .norm rfl _⟩

theorem add (x0 x1 x2 : Reg) : Statement (.add x0 x1 x2) :=
  ⟨opcOf_wordOf .., match_dss .add rfl _ _ _⟩

theorem addp (x0 x1 : Reg) (x2 : Scalar) : Statement (.addp x0 x1 x2) :=
  ⟨opcOf_wordOf .., match_ds .addp rfl _ _⟩

theorem sub (x0 x1 x2 : Reg) : Statement (.sub x0 x1 x2) :=
  ⟨opcOf_wordOf .., match_dss .sub rfl _ _ _⟩

theorem subp (x0 x1 : Reg) (x2 : Scalar) : Statement (.subp x0 x1 x2) :=
  ⟨opcOf_wordOf .., match_ds .subp rfl _ _⟩

theorem cmp (x0 x1 : Reg) : Statement (.cmp x0 x1) :=
  ⟨opcOf_wordOf .., match_ss .cmp rfl _ _⟩

theorem mul (x0 x1 x2 : Reg) : Statement (.mul x0 x1 x2) :=
  ⟨opcOf_wordOf .., match_dss .mul rfl _ _ _⟩

theorem divrem (x0 x1 x2 x3 : Reg) : Statement (.divrem x0 x1 x2 x3) :=
  ⟨opcOf_wordOf .., match_ddss .divrem rfl _ _ _ _⟩

theorem div (x0 x1 x2 : Reg) : Statement (.div x0 x1 x2) :=
  ⟨opcOf_wordOf .., match_dss .div rfl _ _ _⟩

theorem rem (x0 x1 x2 : Reg) : Statement (.rem x0 x1 x2) :=
  ⟨opcOf_wordOf .., match_dss .rem rfl _ _ _⟩

theorem getbit (x0 : Reg) (x1 : Scalar) : Statement (.getbit x0 x1) :=
  ⟨opcOf_wordOf .., match_s .getbit rfl _⟩

theorem setbit (x0 : Reg) (x1 : Scalar) : Statement (.setbit x0 x1) :=
  ⟨opcOf_wordOf .., match_d .setbit rfl _⟩

theorem clrbit (x0 : Reg) (x1 : Scalar) : Statement (.clrbit x0 x1) :=
  ⟨opcOf_wordOf .., match_d .clrbit rfl _⟩

theorem asgbit (x0 : Reg) (x1 x2 : Scalar) : Statement (.asgbit x0 x1 x2) :=
  ⟨opcOf_wordOf .., match_d .asgbit rfl _⟩

theorem getbits (x0 x1 : Reg) (x2 x3 : Scalar) : Statement (.getbits x0 x1 x2 x3) :=
  ⟨opcOf_wordOf .., match_ds .getbits rfl _ _⟩

theorem asgbits (x0 x1 : Reg) (x2 x3 : Scalar) : Statement (.asgbits x0 x1 x2 x3) :=
  ⟨opcOf_wordOf .., match_ds .asgbits rfl _ _⟩

theorem cnt1 (x0 : Reg) : Statement (.cnt1 x0) :=
  ⟨opcOf_wordOf .., match_s .cnt1 rfl _⟩

theorem cnt0 (x0 : Reg) : Statement (.cnt0 x0) :=
  ⟨opcOf_wordOf .., match_s .cnt0 rfl _⟩

theorem lz (x0 : Reg) : Statement (.lz x0) :=
  ⟨opcOf_wordOf .., match_s .lz rfl _⟩

theorem tz (x0 : Reg) : Statement (.tz x0) :=
  ⟨opcOf_wordOf .., match_s .tz rfl _⟩

theorem bitlen (x0 : Reg) : Statement (.bitlen x0) :=
  ⟨opcOf_wordOf .., match_s .bitlen rfl _⟩

theorem xgcd (x0 x1 x2 x3 x4 : Reg) : Statement (.xgcd x0 x1 x2 x3 x4) :=
  ⟨opcOf_wordOf .., match_dddss .xgcd rfl _ _ _ _ _⟩

theorem modpow (x0 x1 x2 x3 : Reg) : Statement (.modpow x0 x1 x2 x3) :=
  ⟨opcOf_wordOf .., match_dsss .modpow rfl _ _ _ _⟩

end Sys2Proof.Laws.EncodesToMatch
end

