-- ==== Sys2Proof/Laws/Step.lean ====
section
/-!
SUPPORT. What a step can do, said once (spec/10_state.md R32; spec/70_reset_and_hazards.md R242), and
that every operation on the limb store keeps its canonical form (spec/10_state.md R22;
spec/40_transfer.md R80).
-/

namespace Sys2Proof.Machine

/-- Writing a value that fits keeps every register canonical (R80). -/
theorem Memory.wf_writeNat {s : State} (h : Memory.wf s.cfg s.regs) (i : Reg) {v : Nat}
    (hv : s.cfg.fits v = true) : Memory.wf s.cfg (s.writeNat i v).regs := by
  intro j
  change s.cfg.canonical ((s.writeNat i v).limbs j) = true
  rw [State.writeNat_limbs]
  split
  · exact (s.cfg.canonical_limbsOf_iff v).2 hv
  · exact h j

/-- All the writes of one command keep every register canonical (R13, R80). -/
theorem Memory.wf_writeAll (ws : List (Reg × Nat)) {s : State} (h : Memory.wf s.cfg s.regs)
    (hf : ∀ p ∈ ws, s.cfg.fits p.2 = true) : Memory.wf s.cfg (s.writeAll ws).regs := by
  induction ws generalizing s with
  | nil => exact h
  | cons p ws ih =>
    exact ih (s := s.writeNat p.1 p.2) (Memory.wf_writeNat h p.1 (hf p (by simp)))
      fun q hq => hf q (by simp [hq])

/-- Reset leaves every register canonical (R36). -/
theorem Memory.wf_resetOf (cfg : Config) : Memory.wf cfg (State.resetOf cfg).regs := by
  intro i
  change cfg.canonical ((State.resetOf cfg).limbs i) = true
  rw [State.resetOf_limbs, Config.canonical_iff]
  simp

/-- Whatever a command answers, every register stays canonical (R80, R87). -/
theorem Memory.wf_runCommand {c : Command} {s t : State} (h : Memory.wf s.cfg s.regs)
    (ht : runCommand c s = .next t) : Memory.wf t.cfg t.regs := by
  obtain ⟨base, dests, hcfg, hregs, _, _, _, t', ht', ha⟩ := runCommand_answered c s
  rw [ht] at ht'
  cases ht'
  cases ha with
  | halted _ => exact h
  | fault _ _ _ => exact h
  | done ws d _ hf =>
    have hb : Memory.wf base.cfg base.regs := by rw [hcfg, hregs]; exact h
    have := Memory.wf_writeAll ws hb (by rw [hcfg]; exact hf)
    rwa [State.respond_cfg, State.writeAll_cfg, State.respond_regs]

/-- A command of the port answers one response and touches neither the parameters nor the host's side
(R65). -/
theorem runCommand_next (c : Command) (s : State) :
    ∃ t r, runCommand c s = .next t ∧ t.port = .resp r ∧ t.cfg = s.cfg ∧ t.inputs = s.inputs ∧
      t.delivered = s.delivered := by
  obtain ⟨base, dests, hcfg, _, hin, hdel, _, t, ht, ha⟩ := runCommand_answered c s
  cases ha with
  | halted _ => exact ⟨_, _, ht, rfl, rfl, rfl, rfl⟩
  | fault _ _ _ => exact ⟨_, _, ht, rfl, rfl, rfl, rfl⟩
  | done ws d _ _ => exact ⟨_, _, ht, rfl, by simp [hcfg], by simp [hin], by simp [hdel]⟩

/-- A step that answers a next state reset the block, ran the command in hand, accepted a command,
delivered the response, or let the host wait (R32, R242). -/
theorem step_cases {s t : State} (h : step s = .next t) :
    (∃ rest, s.inputs = .reset :: rest ∧ t = { s.resetBlock with inputs := rest }) ∨
    (s.inputs.head? ≠ some .reset ∧
      ((∃ c actions, s.port = .busy c ∧ runCommand c { s with inputs := actions } = .next t) ∨
       (∃ c rest, s.port = .idle ∧ t = State.acceptCommand { s with inputs := rest } c) ∨
       (∃ r rest, s.port = .resp r ∧ t = State.deliver { s with inputs := rest } r) ∨
       (∃ rest, t = { s with inputs := rest }))) := by
  rcases s with ⟨cfg, regs, st, port, ins, del⟩
  unfold step portStep at h
  rcases ins with _ | ⟨a, rest⟩
  · cases port with
    | busy c => exact .inr ⟨by simp, .inl ⟨c, _, rfl, h⟩⟩
    | idle | resp r => cases h; exact .inr ⟨by simp, .inr (.inr (.inr ⟨[], rfl⟩))⟩
  · cases a <;> cases port <;> first
      | (cases h; done)
      | (cases h; exact .inl ⟨rest, rfl, rfl⟩)
      | (exact .inr ⟨by simp, .inl ⟨_, _, rfl, h⟩⟩)
      | (cases h; exact .inr ⟨by simp, .inr (.inl ⟨_, rest, rfl, rfl⟩)⟩)
      | (cases h; exact .inr ⟨by simp, .inr (.inr (.inl ⟨_, rest, rfl, rfl⟩))⟩)
      | (cases h; exact .inr ⟨by simp, .inr (.inr (.inr ⟨rest, rfl⟩))⟩)

/-- With a command in hand and no reset, a step runs that command (R32). -/
theorem step_busy {s : State} {c : Command} (hp : s.port = .busy c)
    (hr : s.inputs.head? ≠ some .reset) :
    step s = runCommand c { s with inputs := afterBusy s.inputs } := by
  rcases s with ⟨cfg, regs, st, port, ins, del⟩
  cases hp
  rcases ins with _ | ⟨a, rest⟩
  · rfl
  · cases a <;> first | rfl | exact absurd rfl hr

end Sys2Proof.Machine
end

