-- ==== Sys2Proof/Laws/Transfer.lean ====
section
/-!
SUPPORT. Replacing one limb of a value (spec/00_scope.md R12; spec/40_transfer.md R83) and stripping
the zero limbs at the top (R80).
-/

namespace Sys2Proof.Machine

theorem limbAt_pow (w v k : Nat) : limbAt w v k = v / (2 ^ w) ^ k % 2 ^ w := by
  rw [limbAt_eq, ← Nat.pow_mul]

/-- A limb of the stored form is that limb of the value, 0 beyond the length (R41). -/
theorem getD_limbsOf {w : Nat} (hw : 0 < w) (v k : Nat) : (limbsOf w v).getD k 0 = limbAt w v k := by
  rw [limbsOf, List.getD_eq_getElem?_getD, List.getElem?_map]
  by_cases h : k < lenOf w v
  · rw [List.getElem?_range h]; rfl
  · rw [List.getElem?_eq_none (by simpa using h)]
    exact (limbAt_eq_zero hw (by omega)).symm

/-- A value cut at limb `k`: the limbs below, limb `k`, the limbs above. -/
theorem split_at_limb (B v k : Nat) :
    v = v % B ^ k + v / B ^ k % B * B ^ k + v / B ^ (k + 1) * B ^ (k + 1) := by
  have h₁ := Nat.div_add_mod v (B ^ k)
  have h₂ := Nat.div_add_mod (v / B ^ k) B
  rw [Nat.div_div_eq_div_mul, ← Nat.pow_succ] at h₂
  calc v = B ^ k * (v / B ^ k) + v % B ^ k := h₁.symm
    _ = B ^ k * (B * (v / B ^ (k + 1)) + v / B ^ k % B) + v % B ^ k := by rw [h₂]
    _ = _ := by rw [Nat.pow_succ]; ring

/-- `MemWrite` on the value, without the case split (R12). -/
theorem setLimb_eq {w : Nat} (hw : 0 < w) (v k l : Nat) :
    setLimb w v k l = v - v / (2 ^ w) ^ k % 2 ^ w * (2 ^ w) ^ k + l * (2 ^ w) ^ k := by
  rw [setLimb]
  split
  · rename_i h
    have hz := limbAt_eq_zero hw h.2
    rw [limbAt_pow] at hz
    rw [hz, h.1]; simp
  · rw [shl_eq, shl_eq, limbAt_pow, ← Nat.pow_mul]

/-- The parts of a value with limb `k` replaced. -/
theorem setLimb_split {w : Nat} (hw : 0 < w) (v k l : Nat) :
    setLimb w v k l =
      v % (2 ^ w) ^ k + l * (2 ^ w) ^ k + v / (2 ^ w) ^ (k + 1) * (2 ^ w) ^ (k + 1) := by
  rw [setLimb_eq hw]
  have h := split_at_limb (2 ^ w) v k
  generalize v / (2 ^ w) ^ (k + 1) * (2 ^ w) ^ (k + 1) = high at *
  generalize v / (2 ^ w) ^ k % 2 ^ w * (2 ^ w) ^ k = mid at *
  generalize l * (2 ^ w) ^ k = new at *
  generalize v % (2 ^ w) ^ k = low at *
  omega

/-- The limbs of a value given by its parts at limb `k`. -/
theorem limb_of_parts {B : Nat} (hB : 0 < B) {lo l k : Nat} (hlo : lo < B ^ k) (hl : l < B)
    (hi j : Nat) :
    (lo + l * B ^ k + hi * B ^ (k + 1)) / B ^ j % B =
      if j = k then l else if j < k then lo / B ^ j % B else hi / B ^ (j - (k + 1)) % B := by
  split
  · subst j
    rw [show lo + l * B ^ k + hi * B ^ (k + 1) = lo + B ^ k * (l + B * hi) by ring,
      Nat.add_mul_div_left _ _ (by positivity), Nat.div_eq_of_lt hlo, Nat.zero_add,
      Nat.add_mul_mod_self_left, Nat.mod_eq_of_lt hl]
  split
  · obtain ⟨d, rfl⟩ := Nat.exists_eq_add_of_lt ‹_›
    rw [show lo + l * B ^ (j + d + 1) + hi * B ^ (j + d + 1 + 1) =
        lo + B ^ j * (B * ((l + B * hi) * B ^ d)) by ring,
      Nat.add_mul_div_left _ _ (by positivity), Nat.add_mul_mod_self_left]
  · obtain ⟨d, rfl⟩ := Nat.exists_eq_add_of_lt (by omega : k < j)
    have hlow : lo + l * B ^ k < B ^ (k + 1) := by rw [Nat.pow_succ]; nlinarith
    rw [show k + d + 1 - (k + 1) = d by omega, show k + d + 1 = (k + 1) + d by ring,
      show B ^ (k + 1 + d) = B ^ (k + 1) * B ^ d by ring, ← Nat.div_div_eq_div_mul,
      show lo + l * B ^ k + hi * B ^ (k + 1) = (lo + l * B ^ k) + B ^ (k + 1) * hi by ring,
      Nat.add_mul_div_left _ _ (by positivity), Nat.div_eq_of_lt hlow, Nat.zero_add]

theorem normalize_cons (l : Nat) (ls : StoredLimbs) :
    Machine.normalize (l :: ls) =
      if Machine.normalize ls = [] ∧ l = 0 then [] else l :: Machine.normalize ls := by
  rw [Machine.normalize]
  split <;> simp [*]

/-- Stripping keeps the value (R80). -/
theorem valueOf_normalize (w : Nat) (ls : StoredLimbs) :
    valueOf w (Machine.normalize ls) = valueOf w ls := by
  induction ls with
  | nil => rfl
  | cons l ls ih =>
    rw [normalize_cons]
    split
    · rename_i h
      rw [h.1] at ih
      simp [valueOf, h.2, ← ih]
    · rw [valueOf, valueOf, ih]

theorem normalize_sublist (ls : StoredLimbs) : (Machine.normalize ls).Sublist ls := by
  induction ls with
  | nil => exact .refl _
  | cons l ls ih =>
    rw [normalize_cons]
    split
    · exact List.nil_sublist _
    · exact ih.cons_cons _

/-- No zero limb stands at the top after stripping (R80). -/
theorem getLast?_normalize (ls : StoredLimbs) : (Machine.normalize ls).getLast? ≠ some 0 := by
  induction ls with
  | nil => simp [Machine.normalize]
  | cons l ls ih =>
    rw [normalize_cons]
    split
    · simp
    · rename_i h
      rcases hn : Machine.normalize ls with _ | ⟨k, ks⟩
      · simp [hn] at h ⊢; exact h
      · rw [hn] at ih; simpa [List.getLast?_cons] using ih

/-- The canonical limbs of the value of in-range limbs are those limbs, stripped (R80). -/
theorem limbsOf_valueOf_normalize {w : Nat} (hw : 0 < w) (ls : StoredLimbs)
    (h : ∀ l ∈ ls, l < 2 ^ w) : limbsOf w (valueOf w ls) = Machine.normalize ls := by
  rw [← valueOf_normalize, limbsOf_valueOf hw _ (fun l hl => h l ((normalize_sublist ls).mem hl))
    (getLast?_normalize ls)]

end Sys2Proof.Machine
end

