-- ==== Sys2Proof/Laws/Xgcd.lean ====
section
/-!
SUPPORT. The invariant of the extended Euclidean loop (spec/45_xgcd.md R181, R183, R185).
-/

namespace Sys2Proof.Machine

/-- What holds at the top of every pass of R181 on `a`, `b`: the gcd of the remainders, the two Bezout
equalities, alternating signs, and the products that bound the magnitudes (R181, R183, R185). -/
structure XgcdInv (a b r0 r1 : Nat) (s0 s1 t0 t1 : Int) : Prop where
  gcd : Nat.gcd r0 r1 = Nat.gcd a b
  bezout0 : (a : Int) * s0 + b * t0 = r0
  bezout1 : (a : Int) * s1 + b * t1 = r1
  magnitudes : ∃ (e : Int) (p0 p1 m0 m1 : Nat), (e = 1 ∨ e = -1) ∧
    s0 = e * p0 ∧ s1 = -e * p1 ∧ t0 = -e * m0 ∧ t1 = e * m1 ∧
    p1 * r0 + p0 * r1 = b ∧ m1 * r0 + m0 * r1 = a ∧
    p0 ≤ max b 1 ∧ m0 ≤ max a 1 ∧ (r0 = 0 → p1 ≤ 1 ∧ m1 ≤ 1)

theorem sub_div_mul (r0 r1 : Nat) : r0 - r0 / r1 * r1 = r0 % r1 := by
  have := Nat.div_add_mod r0 r1
  rw [Nat.mul_comm] at this
  omega

/-- The invariant holds with the starting pairs (R181). -/
theorem XgcdInv.start (a b : Nat) : XgcdInv a b a b 1 0 0 1 :=
  ⟨rfl, by ring, by ring, 1, 1, 0, 0, 1, .inl rfl, by simp, by simp, by simp, by simp, by simp,
    by simp, by omega, by omega, fun _ => by simp⟩

/-- A pass keeps the invariant (R181). -/
theorem XgcdInv.pass {a b r0 r1 : Nat} {s0 s1 t0 t1 : Int} (h : XgcdInv a b r0 r1 s0 s1 t0 t1)
    (h1 : r1 ≠ 0) :
    XgcdInv a b r1 (r0 - r0 / r1 * r1) s1 (s0 - (r0 / r1 : Nat) * s1) t1
      (t0 - (r0 / r1 : Nat) * t1) := by
  obtain ⟨hg, e0, e1, e, p0, p1, m0, m1, he, hs0, hs1, ht0, ht1, hb, ha, hp, hm, hz⟩ := h
  have hle : r0 / r1 * r1 ≤ r0 := Nat.div_mul_le_self _ _
  have hmod := sub_div_mul r0 r1
  generalize r0 / r1 = q at *
  have hr : (r0 : Int) = q * r1 + (r0 - q * r1 : Nat) := by push_cast [hle]; ring
  have hrn : r0 = q * r1 + (r0 - q * r1) := by omega
  refine ⟨?_, e1, ?_, -e, p1, p0 + q * p1, m1, m0 + q * m1, by omega, by rw [hs1], ?_,
    by rw [ht1]; ring, ?_, ?_, ?_, ?_, ?_, fun h => absurd h h1⟩
  · rw [hmod, ← hg, Nat.gcd_comm, ← Nat.gcd_rec, Nat.gcd_comm]
  · have : (a : Int) * (s0 - q * s1) + b * (t0 - q * t1) = r0 - q * r1 := by rw [← e0, ← e1]; ring
    rw [this, hr]; push_cast [hle]; ring
  · rw [hs0, hs1]; push_cast; ring
  · rw [ht0, ht1]; push_cast; ring
  · generalize r0 - q * r1 = r2 at *
    rw [← hb, hrn]; ring
  · generalize r0 - q * r1 = r2 at *
    rw [← ha, hrn]; ring
  · rcases Nat.eq_zero_or_pos r0 with h | h
    · have := hz h; omega
    · have : p1 * 1 ≤ p1 * r0 := Nat.mul_le_mul_left _ h
      omega
  · rcases Nat.eq_zero_or_pos r0 with h | h
    · have := hz h; omega
    · have : m1 * 1 ≤ m1 * r0 := Nat.mul_le_mul_left _ h
      omega

end Sys2Proof.Machine
end

