-- ==== Sys2Proof/Tests/Slice0.lean ====
section
/-!
SUPPORT. Tests.  The expected words are written out from the opcode map (spec/30_encoding.md R60,
R67); the expected results are the spec's own vectors, named `V<file>.<n>` as the spec names them;
the witnesses show states and operands that meet the hypotheses of the statements.
-/

namespace Sys2Proof.Tests

open Sys2Proof.Machine

/-! ### Small states -/

/-- The limb store with some registers set, the others 0. -/
def store (rs : List (Reg × StoredLimbs)) : Memory :=
  rs.foldl (fun m p => m.set p.1.val p.2) (Vector.replicate 16 [])

/-- The state after reset with some registers set. -/
def start (c : Config) (rs : List (Reg × StoredLimbs)) : State :=
  { State.resetOf c with regs := store rs }

/-- The instance with 64-bit limbs. -/
def wide : Config := { width := .w64, maxLimbs := 64, kt := some 32 }

/-- The instance with registers of two 32-bit limbs. -/
def small : Config := { width := .w32, maxLimbs := 2, kt := some 32 }

/-- STATUS of a halted block, 0x10001. -/
def haltStatus : Status := { Status.clear with halt := true, fInvariant := true }

/-- STATUS 0x8300. -/
def someFaults : Status :=
  { Status.clear with fUnderflow := true, fDivZero := true, fCapacity := true }

/-- STATUS 0xE700. -/
def allFaults : Status :=
  { someFaults with fOverflow := true, fBitRange := true, fIllegal := true }

/-- STATUS 0x300. -/
def twoFaults : Status := { Status.clear with fUnderflow := true, fDivZero := true }

/-- The state after reset with some registers and STATUS set. -/
def startWith (t : Status) (c : Config) (rs : List (Reg × StoredLimbs)) : State :=
  { start c rs with status := t }

/-- `10^12` in two 32-bit limbs, the value most vectors use. -/
def tera : StoredLimbs := [0xD4A51000, 0xE8]

/-- The command as `step` runs it answers `(code, data)`, leaves STATUS at `st`, and every register
as `ends` says, or else as it was. -/
def answers (s : State) (c : Command) (code : Code) (data st : Scalar)
    (ends : List (Reg × StoredLimbs)) : Bool :=
  match step (s.presentCommand c) with
  | .next t => decide (t.port = .resp ⟨code, data⟩) && decide (t.status.toWord = st) &&
      decide (∀ j : Reg, t.limbs j = (ends.lookup j).getD (s.limbs j))
  | .fault _ => false
  | .refused _ => false

/-! ### Well-formedness (R70, R71) -/

theorem test_wf_rejects_divrem_equal : (Instr.divrem 2 2 0 1).wellFormed = false := by decide
theorem test_wf_rejects_xgcd_equal_12 : (Instr.xgcd 2 2 3 0 1).wellFormed = false := by decide
theorem test_wf_rejects_xgcd_equal_13 : (Instr.xgcd 2 3 2 0 1).wellFormed = false := by decide
theorem test_wf_rejects_xgcd_equal_23 : (Instr.xgcd 2 3 3 0 1).wellFormed = false := by decide
theorem test_wf_rejects_rdsr_2 : (Instr.rdsr 2).wellFormed = false := by decide
theorem test_wf_accepts_divrem_in_place : (Instr.divrem 0 1 0 1).wellFormed = true := by decide
theorem test_wf_accepts_rdsr_1 : (Instr.rdsr 1).wellFormed = true := by decide

/-! ### Decoding: every opcode, the register fields at distinct values -/

theorem test_decode_system :
    decode ⟨0x00000000#32, 5, 6⟩ = .ok .nop ∧ decode ⟨0x01000000#32, 5, 6⟩ = .ok (.rdsr 5) ∧
    decode ⟨0x02000000#32, 5, 6⟩ = .ok .clrf := by decide
theorem test_decode_transfer :
    decode ⟨0x10F00000#32, 5, 6⟩ = .ok (.setp 15 5) ∧
    decode ⟨0x11F00E00#32, 5, 6⟩ = .ok (.mov 15 14) ∧
    decode ⟨0x12F00000#32, 5, 6⟩ = .ok (.wrl 15 5 6) ∧
    decode ⟨0x13000F00#32, 5, 6⟩ = .ok (.rdl 15 5) ∧
    decode ⟨0x14000F00#32, 5, 6⟩ = .ok (.len 15) ∧
    decode ⟨0x15F00000#32, 5, 6⟩ = .ok (.norm 15) := by decide
theorem test_decode_addsub :
    decode ⟨0x20F00ED0#32, 5, 6⟩ = .ok (.add 15 14 13) ∧
    decode ⟨0x21F00E00#32, 5, 6⟩ = .ok (.addp 15 14 5) ∧
    decode ⟨0x22F00ED0#32, 5, 6⟩ = .ok (.sub 15 14 13) ∧
    decode ⟨0x23F00E00#32, 5, 6⟩ = .ok (.subp 15 14 5) ∧
    decode ⟨0x24000FE0#32, 5, 6⟩ = .ok (.cmp 15 14) := by decide
theorem test_decode_muldiv :
    decode ⟨0x30F00ED0#32, 5, 6⟩ = .ok (.mul 15 14 13) ∧
    decode ⟨0x40FE0DC0#32, 5, 6⟩ = .ok (.divrem 15 14 13 12) ∧
    decode ⟨0x41F00ED0#32, 5, 6⟩ = .ok (.div 15 14 13) ∧
    decode ⟨0x42F00ED0#32, 5, 6⟩ = .ok (.rem 15 14 13) := by decide
theorem test_decode_bits :
    decode ⟨0x50000F00#32, 5, 6⟩ = .ok (.getbit 15 5) ∧
    decode ⟨0x51F00000#32, 5, 6⟩ = .ok (.setbit 15 5) ∧
    decode ⟨0x52F00000#32, 5, 6⟩ = .ok (.clrbit 15 5) ∧
    decode ⟨0x53F00000#32, 5, 6⟩ = .ok (.asgbit 15 5 6) ∧
    decode ⟨0x54F00E00#32, 5, 6⟩ = .ok (.getbits 15 14 5 6) ∧
    decode ⟨0x55F00E00#32, 5, 6⟩ = .ok (.asgbits 15 14 5 6) := by decide
theorem test_decode_counts :
    decode ⟨0x58000F00#32, 5, 6⟩ = .ok (.cnt1 15) ∧ decode ⟨0x59000F00#32, 5, 6⟩ = .ok (.cnt0 15) ∧
    decode ⟨0x5A000F00#32, 5, 6⟩ = .ok (.lz 15) ∧ decode ⟨0x5B000F00#32, 5, 6⟩ = .ok (.tz 15) ∧
    decode ⟨0x5C000F00#32, 5, 6⟩ = .ok (.bitlen 15) := by decide
theorem test_decode_xgcd_modpow :
    decode ⟨0x60FEDCB0#32, 5, 6⟩ = .ok (.xgcd 15 14 13 12 11) ∧
    decode ⟨0x70F00EDC#32, 5, 6⟩ = .ok (.modpow 15 14 13 12) := by decide
theorem test_decode_refuses_unused_fields :
    decode ⟨0x00000001#32, 0, 0⟩ = .error .unusedFieldNotZero ∧
    decode ⟨0x10F10000#32, 0, 0⟩ = .error .unusedFieldNotZero ∧
    decode ⟨0x14100F00#32, 0, 0⟩ = .error .unusedFieldNotZero ∧
    decode ⟨0x40FE1DC0#32, 0, 0⟩ = .error .unusedFieldNotZero ∧
    decode ⟨0x60FEDCB1#32, 0, 0⟩ = .error .unusedFieldNotZero := by decide
theorem test_decode_refuses_undefined_opcodes :
    decode ⟨0x03000000#32, 0, 0⟩ = .error .undefinedOpcode ∧
    decode ⟨0x57000000#32, 0, 0⟩ = .error .undefinedOpcode ∧
    decode ⟨0x5D000000#32, 0, 0⟩ = .error .undefinedOpcode ∧
    decode ⟨0xFF000000#32, 0, 0⟩ = .error .undefinedOpcode := by decide
theorem test_table_word : decodeTableWord 32 0x20200010 = some (.add 2 0 1) := by decide
theorem test_fetch_word : (State.reset.withFetchWord 32 0x20200010).port =
    .busy ⟨0x20200010#32, 0, 0⟩ := by decide

/-! ### Single commands -/

theorem test_nop_V47_1 : answers (start Config.reference [])
    ⟨0x00000000#32, 0, 0⟩ .ok 0 0 [] = true := by decide
theorem test_nop_V47_2 : answers (start Config.reference [(0, [5])])
    ⟨0x00000000#32, 0xDEADBEEF, 0x12345678⟩ .ok 0 0 [(0, [5])] = true := by decide
theorem test_rdsr_V47_4 : answers (start Config.reference [])
    ⟨0x01000000#32, 0x1, 0⟩ .ok 0x20000000401020 0 [] = true := by decide
theorem test_rdsr_V47_8 : answers (startWith someFaults Config.reference [])
    ⟨0x01000000#32, 0, 0⟩ .ok 0x8300 0x8300 [] = true := by decide
theorem test_clrf_V47_9 : answers (startWith allFaults Config.reference [])
    ⟨0x02000000#32, 0, 0⟩ .ok 0 0 [] = true := by decide
theorem test_clrf_V47_10 : answers (startWith twoFaults Config.reference [])
    ⟨0x02100000#32, 0, 0⟩ .illegalCommand 0 0x4300 [] = true := by decide
theorem test_setp_V40_3 : answers (start Config.reference [])
    ⟨0x10000000#32, 0x100000000, 0⟩ .ok 0 0 [(0, [0, 1])] = true := by decide
theorem test_setp_V40_4 : answers (start wide [])
    ⟨0x10000000#32, 0x100000000, 0⟩ .ok 0 0 [(0, [0x100000000])] = true := by decide
theorem test_mov_V40_8 : answers (start Config.reference [(0, tera), (1, [9])])
    ⟨0x11100000#32, 0, 0⟩ .ok 0 0 [(0, tera), (1, tera)] = true := by decide
theorem test_wrl_V40_13 : answers (start Config.reference [(0, tera)])
    ⟨0x12000000#32, 0x1, 0⟩ .ok 0 0 [(0, [0xD4A51000])] = true := by decide
theorem test_wrl_V40_24 : answers (start Config.reference [(0, [5])])
    ⟨0x12000000#32, 0x40, 0x100000000⟩ .overflow 0 0x400 [(0, [5])] = true := by decide
theorem test_rdl_V40_26 : answers (start Config.reference [(0, tera)])
    ⟨0x13000000#32, 0x1, 0⟩ .ok 0xE8 0 [] = true := by decide
theorem test_rdl_V40_29 : answers (start Config.reference [(0, tera)])
    ⟨0x13000000#32, 0xFFFFFFFFFFFFFFFF, 0⟩ .ok 0 0 [] = true := by decide
theorem test_len_V40_33 : answers (start Config.reference [(0, [0, 1])])
    ⟨0x14000000#32, 0, 0⟩ .ok 0x2 0 [] = true := by decide
theorem test_norm_V40_36 : answers (start Config.reference [(0, tera)])
    ⟨0x15000000#32, 0, 0⟩ .ok 0 0 [(0, tera)] = true := by decide
theorem test_add_V41_6 : answers (start Config.reference [(0, [0, 0x80000000])])
    ⟨0x20000000#32, 0, 0⟩ .ok 0 0 [(0, [0, 0, 1])] = true := by decide
theorem test_add_V41_15 : answers (start small [(0, [0xFFFFFFFF, 0xFFFFFFFF]), (1, [1])])
    ⟨0x20200010#32, 0, 0⟩ .capacityExceeded 0 0x8000 [(2, [])] = true := by decide
theorem test_addp_V41_9 : answers (start Config.reference [(0, [0xFFFFFFFF, 0xFFFFFFFF])])
    ⟨0x21100000#32, 0x1, 0⟩ .ok 0 0 [(1, [0, 0, 1])] = true := by decide
theorem test_addp_V41_10 : answers (start Config.reference [(0, [1])])
    ⟨0x21100000#32, 0xFFFFFFFFFFFFFFFF, 0⟩ .ok 0 0 [(1, [0, 0, 1])] = true := by decide
theorem test_sub_V41_18 : answers (start Config.reference [(0, [0, 1]), (1, [1])])
    ⟨0x22200010#32, 0, 0⟩ .ok 0 0 [(2, [0xFFFFFFFF])] = true := by decide
theorem test_sub_V41_17 : answers (start Config.reference [(1, [1]), (2, [7])])
    ⟨0x22200010#32, 0, 0⟩ .underflow 0 0x100 [(2, [7])] = true := by decide
theorem test_subp_V41_25 : answers (start Config.reference [(0, [0, 0, 1])])
    ⟨0x23100000#32, 0x1, 0⟩ .ok 0 0 [(1, [0xFFFFFFFF, 0xFFFFFFFF])] = true := by decide
theorem test_subp_V41_24 : answers (start Config.reference [(1, [9])])
    ⟨0x23100000#32, 0x1, 0⟩ .underflow 0 0x100 [(1, [9])] = true := by decide
theorem test_cmp_V41_33 : answers (start Config.reference [(0, [0, 1]), (1, [0xFFFFFFFF])])
    ⟨0x24000010#32, 0, 0⟩ .ok 0x1 0 [] = true := by decide
theorem test_cmp_V41_35 : answers (start Config.reference [(0, [9, 5]), (1, [2, 6])])
    ⟨0x24000010#32, 0, 0⟩ .ok 0x2 0 [] = true := by decide
theorem test_mul_V42_6 : answers (start Config.reference [(0, [0xFFFFFFFF, 0xFFFFFFFF])])
    ⟨0x30100000#32, 0, 0⟩ .ok 0 0 [(1, [1, 0, 0xFFFFFFFE, 0xFFFFFFFF])] = true := by decide
theorem test_mul_V42_15 : answers (start small [(0, [0, 1]), (1, [0, 1]), (2, [7])])
    ⟨0x30200010#32, 0, 0⟩ .capacityExceeded 0 0x8000 [(2, [7])] = true := by decide
theorem test_divrem_V43_12 : answers (start Config.reference [(0, tera), (1, [0xF4243])])
    ⟨0x40100010#32, 0, 0⟩ .ok 0 0 [(0, [9]), (1, [0xF423D])] = true := by decide
theorem test_divrem_V43_21 : answers (start Config.reference [(0, tera), (1, [0xF4243]), (2, [7])])
    ⟨0x40220010#32, 0, 0⟩ .illegalCommand 0 0x4000 [(2, [7])] = true := by decide
theorem test_div_V43_13 : answers (start Config.reference [(0, tera), (1, [0xF4243])])
    ⟨0x41200010#32, 0, 0⟩ .ok 0 0 [(2, [0xF423D])] = true := by decide
theorem test_div_V43_8 : answers (start Config.reference [(2, [7])])
    ⟨0x41200010#32, 0, 0⟩ .divisionByZero 0 0x200 [(2, [7])] = true := by decide
theorem test_rem_V43_14 : answers (start Config.reference [(0, tera), (1, [0xF4243])])
    ⟨0x42200010#32, 0, 0⟩ .ok 0 0 [(2, [9])] = true := by decide
theorem test_rem_V43_9 : answers (start Config.reference [(0, tera), (2, [7])])
    ⟨0x42200010#32, 0, 0⟩ .divisionByZero 0 0x200 [(2, [7])] = true := by decide
theorem test_getbit_V44_1 : answers (start Config.reference [(0, tera)])
    ⟨0x50000000#32, 0xC, 0⟩ .ok 0x1 0 [] = true := by decide
theorem test_getbit_V44_6 : answers (start Config.reference [(0, tera)])
    ⟨0x50000000#32, 0xFFFFFFFFFFFFFFFF, 0⟩ .ok 0 0 [] = true := by decide
theorem test_setbit_V44_7 : answers (start Config.reference [])
    ⟨0x51000000#32, 0x20, 0⟩ .ok 0 0 [(0, [0, 1])] = true := by decide
theorem test_setbit_V44_11 : answers (start Config.reference [(0, [5])])
    ⟨0x51000000#32, 0x800, 0⟩ .capacityExceeded 0 0x8000 [(0, [5])] = true := by decide
theorem test_clrbit_V44_12 : answers (start Config.reference [(0, [0, 1])])
    ⟨0x52000000#32, 0x20, 0⟩ .ok 0 0 [(0, [])] = true := by decide
theorem test_clrbit_V44_16 : answers (start Config.reference [(0, [5])])
    ⟨0x52000000#32, 0xFFFFFFFFFFFFFFFF, 0⟩ .ok 0 0 [(0, [5])] = true := by decide
theorem test_asgbit_V44_19 : answers (start Config.reference [(0, [5])])
    ⟨0x53000000#32, 0x1, 0xFFFFFFFFFFFFFFFE⟩ .ok 0 0 [(0, [5])] = true := by decide
theorem test_asgbit_V44_20 : answers (start Config.reference [(0, [5])])
    ⟨0x53000000#32, 0x1, 0x3⟩ .ok 0 0 [(0, [7])] = true := by decide
theorem test_getbits_V44_23 : answers (start Config.reference [(0, tera)])
    ⟨0x54100000#32, 0xC, 0x28⟩ .ok 0 0 [(1, [0xE8D4A51])] = true := by decide
theorem test_getbits_V44_26 : answers (start Config.reference [(0, tera), (1, [9])])
    ⟨0x54100000#32, 0x28, 0xC⟩ .invalidBitRange 0 0x2000 [(1, [9])] = true := by decide
theorem test_asgbits_V44_34 : answers (start Config.reference [(0, [0xD4A510F0, 0xE8]), (2,
    [0x1234])])
    ⟨0x55000200#32, 0x20, 0x28⟩ .ok 0 0 [(0, [0xD4A510F0, 0x34])] = true := by decide
theorem test_asgbits_V44_42 : answers (start Config.reference [(0, [5]), (2, [1])])
    ⟨0x55000200#32, 0x7FF, 0x801⟩ .ok 0 0 [(0,
    ([5] ++ List.replicate 62 0 ++ [0x80000000]))] = true := by decide +kernel
theorem test_cnt1_V44_47 : answers (start Config.reference [(0, tera)])
    ⟨0x58000000#32, 0, 0⟩ .ok 0xD 0 [] = true := by decide
theorem test_cnt0_V44_48 : answers (start Config.reference [(0, tera)])
    ⟨0x59000000#32, 0, 0⟩ .ok 0x1B 0 [] = true := by decide
theorem test_cnt0_V44_60 : answers (start Config.reference [(0, [0xFFFFFFFF])])
    ⟨0x59000000#32, 0, 0⟩ .ok 0 0 [] = true := by decide
theorem test_lz_V44_49 : answers (start Config.reference [(0, tera)])
    ⟨0x5A000000#32, 0, 0⟩ .ok 0 0 [] = true := by decide
theorem test_tz_V44_50 : answers (start Config.reference [(0, tera)])
    ⟨0x5B000000#32, 0, 0⟩ .ok 0xC 0 [] = true := by decide
theorem test_tz_V44_62 : answers (start Config.reference [(0,
    ([0] ++ List.replicate 62 0 ++ [0x80000000]))])
    ⟨0x5B000000#32, 0, 0⟩ .ok 0x7FF 0 [] = true := by decide +kernel
theorem test_bitlen_V44_51 : answers (start Config.reference [(0, tera)])
    ⟨0x5C000000#32, 0, 0⟩ .ok 0x28 0 [] = true := by decide
theorem test_xgcd_V45_13 : answers (start Config.reference [(0, [0xF0]), (1, [0x2E])])
    ⟨0x60012010#32, 0, 0⟩ .ok 0x1 0 [(0, [2]), (1, [9]), (2, [0x2F])] = true := by decide
theorem test_xgcd_V45_2 : answers (start Config.reference [(0, [0x2E]), (1, [0xF0]), (2, [0xAA]),
    (3, [0xBB]), (4, [0xCC])])
    ⟨0x60234010#32, 0, 0⟩ .ok 0x2 0 [(2, [2]), (3, [0x2F]), (4, [9])] = true := by decide
theorem test_modpow_V46_1 : answers (start Config.reference [(0, [4]), (1, [0xD]), (2, [0x1F1]),
    (3, [9])])
    ⟨0x70300012#32, 0, 0⟩ .ok 0 0 [(3, [0x1BD])] = true := by decide
theorem test_modpow_V46_2 : answers (start Config.reference [(0, [5]), (1, []), (2, [1]), (3, [9])])
    ⟨0x70300012#32, 0, 0⟩ .ok 0 0 [(3, [])] = true := by decide
theorem test_halted_V61_1 : answers (startWith haltStatus Config.reference [(0, [5]), (1, [3])])
    ⟨0x20200010#32, 0, 0⟩ .halted 0 0x10001 [(2, [])] = true := by decide
theorem test_halted_V61_6 : answers (startWith haltStatus Config.reference [(0, [5]), (1, [3])])
    ⟨0x01000000#32, 0x2, 0⟩ .halted 0 0x10001 [] = true := by decide

/-! ### Reset and the port -/

/-- A result is a next state of which something holds, as a Bool. -/
def nextIs (r : StepResult) (p : State → Bool) : Bool :=
  match r with
  | .next t => p t
  | .fault _ => false
  | .refused _ => false

/-- V70.4: reset while a command is executing leaves the reset state, and no response. -/
theorem test_reset_while_busy_V70_4 :
    nextIs (step { (start Config.reference [(0, tera)]).presentCommand ⟨0x20000000#32, 0, 0⟩ with
      inputs := [.reset] }) (fun t => decide (t = State.reset)) = true := by decide

/-! ### Witnesses of the statements' hypotheses -/

/-- Registers of several shapes, two, one and no limbs. -/
def demo : State :=
  start Config.reference [(0, tera), (1, [0xF4243]), (2, [7]), (3, [0xF0]), (4, [0x2E])]

/-- A register at the largest value, `2^64 - 1` in two limbs. -/
def top : State := start small [(0, [0xFFFFFFFF, 0xFFFFFFFF]), (1, [1]), (2, [0, 1])]

/-- A register whose stored limbs are not canonical. -/
def broken : State := start Config.reference [(0, [0])]

/-- A halted block. -/
def halted : State := { demo with status := haltStatus }

/-- `add n2, n0, n1`. -/
def addWord : Command := ⟨0x20200010#32, 0, 0⟩

theorem demo_running : demo.Running :=
  ⟨⟨by decide, by decide, by decide, trivial⟩, by decide⟩

theorem of_nextIs {r : StepResult} {Q : State → Prop} [DecidablePred Q]
    (h : nextIs r (fun t => decide (Q t)) = true) : ∃ t, r = .next t ∧ Q t := by
  cases r with
  | next t => exact ⟨t, rfl, by simpa [nextIs] using h⟩
  | fault _ => simp [nextIs] at h
  | refused _ => simp [nextIs] at h

theorem witness_DecodedWordIsTheWordOfItsCommand : decode addWord = .ok (.add 2 0 1) := by decide
theorem witness_IgnoredScalarsChangeNothing :
    (decode ⟨0x00000000#32, 5, 6⟩ = .ok .nop ∧ Instr.nop.operands.2 = []) ∧
    (decode ⟨0x01000000#32, 1, 6⟩ = .ok (.rdsr 1) ∧
      (Instr.rdsr 1).operands.2.length ≤ 1) := by decide
theorem witness_IllegalCommandForExactlyTheIllegalCommands :
    demo.status.halt = false ∧ decode ⟨0xFF000000#32, 0, 0⟩ = .error .undefinedOpcode ∧
    decode ⟨0x40220010#32, 0, 0⟩ = .ok (.divrem 2 2 0 1) ∧
    decode ⟨0x60233010#32, 0, 0⟩ = .ok (.xgcd 2 3 3 0 1) ∧
    decode ⟨0x01000000#32, 2, 0⟩ = .ok (.rdsr 2) ∧ 2 ≤ (2 : Scalar).toNat := by decide
theorem witness_IllegalCommand_converse :
    (∃ t, runCommand ⟨0x40220010#32, 0, 0⟩ demo = .next t ∧ t.port = .resp ⟨.illegalCommand, 0⟩) ∧
    decode ⟨0x40220010#32, 0, 0⟩ = .ok (.divrem 2 2 0 1) :=
  ⟨of_nextIs (by decide), by decide⟩
theorem witness_BusyStepRunsTheDecodedCommand :
    (demo.presentCommand addWord).port = .busy addWord ∧ decode addWord = .ok (.add 2 0 1) ∧
    (demo.presentCommand addWord).inputs.head? ≠ some .reset ∧
    (demo.presentCommand addWord).inputs.head? ≠ some .wait ∧
    ({ demo.presentCommand addWord with inputs := [.wait] }).inputs = .wait :: [] ∧
    decode ⟨0xFF000000#32, 0, 0⟩ = .error .undefinedOpcode ∧ demo.status.halt = false := by
  decide
theorem witness_PortRunsOneCommandPerResponse :
    ({ demo with inputs := [.command addWord, .takeResponse] }).port = .idle ∧
    ({ demo with inputs := [.command addWord, .takeResponse] }).inputs =
      .command addWord :: .takeResponse :: [] := by decide
theorem witness_PortSignalsFollowThePortState :
    demo.port = .idle ∧ (demo.presentCommand addWord).port = .busy addWord ∧
    (demo.respond .ok 7).port = .resp ⟨.ok, 7⟩ := by decide
theorem witness_ResetGivesTheResetState :
    ({ halted.presentCommand addWord with inputs := [.reset] }).inputs = .reset :: [] := by
  decide
theorem witness_HaltLastsUntilReset :
    halted.status.halt = true ∧
    (∃ t, step (halted.presentCommand addWord) = .next t ∧
      (halted.presentCommand addWord).inputs.head? ≠ some .reset) ∧
    (∃ t, step { halted with inputs := [.reset] } = .next t ∧ t.status.halt = false) :=
  ⟨by decide, of_nextIs (by decide), of_nextIs (by decide)⟩
theorem witness_HaltLasts_illegal_rdsr :
    decode ⟨0x01000000#32, 2, 0⟩ = .ok (.rdsr 2) ∧ 2 ≤ (2 : Scalar).toNat ∧
    ∀ a : Scalar, decode ⟨0x01000000#32, 2, 0⟩ = .ok (.rdsr a) → 2 ≤ a.toNat :=
  ⟨by decide, by decide, fun a h => by
    rw [show decode ⟨0x01000000#32, 2, 0⟩ = .ok (.rdsr 2) by decide] at h
    cases h; decide⟩
theorem witness_HaltLasts_other_command :
    ∀ a : Scalar, decode addWord = .ok (.rdsr a) → 2 ≤ a.toNat := fun a h => by
  rw [show decode addWord = .ok (.add 2 0 1) by decide] at h
  cases h
theorem witness_StepStopsOnlyWhereTheHostStalls :
    step { demo.respond .ok 0 with inputs := [.command addWord] } = .fault .hostStalled ∧
    step { demo with inputs := [.takeResponse] } = .fault .hostStalled ∧
    demo.inputs = [] ∧ demo.port = .idle := ⟨rfl, rfl, by decide, by decide⟩
theorem witness_FaultsChangeNoRegister :
    ∃ t, exec (.sub 2 4 0) demo = .next t ∧ t.port = .resp ⟨.underflow, 0⟩ :=
  of_nextIs (by decide)
theorem witness_CompletedCommandsChangeOnlyDestinations :
    (∃ t, exec (.divrem 0 1 0 1) demo = .next t ∧
      (t.port = .resp ⟨.ok, 0⟩ ∧ (5 : Reg) ∉ (Instr.divrem 0 1 0 1).destinations)) ∧
    Instr.divrem 0 1 0 1 ≠ .clrf := ⟨of_nextIs (by decide), by decide⟩
theorem witness_CommandsDependOnlyOnTheirSources :
    demo.cfg = { demo.respond .ok 7 with regs := demo.regs.set 9 [1, 1] }.cfg ∧
    demo.status = { demo.respond .ok 7 with regs := demo.regs.set 9 [1, 1] }.status ∧
    (∀ j ∈ (Instr.divrem 9 8 0 1).sources, demo.limbs j =
      State.limbs { demo.respond .ok 7 with regs := demo.regs.set 9 [1, 1] } j) ∧
    (∃ t, exec (.divrem 9 8 0 1) demo = .next t ∧ t.port = .resp ⟨.ok, 0⟩) :=
  ⟨by decide, by decide, by decide, of_nextIs (by decide)⟩
theorem witness_NonCanonicalSourceHaltsTheBlock :
    broken.status.halt = false ∧ (Instr.add 2 1 0).wellFormed = true ∧
    (0 : Reg) ∈ (Instr.add 2 1 0).sources ∧ broken.cfg.canonical (broken.limbs 0) = false ∧
    (Instr.lz 0).sources = [0] := by decide
theorem witness_ResetStateIsRunning :
    (⟨.w64, 2, none⟩ : Config).valid = true ∧ (⟨.w32, 16777216, some 8⟩ : Config).valid = true := by
  decide
theorem witness_StepKeepsTheInvariant :
    (demo.presentCommand addWord).Inv ∧
    (∃ t, step (demo.presentCommand addWord) = .next t ∧ t.port = .resp ⟨.ok, 0⟩) :=
  ⟨⟨by decide, by decide, by decide, trivial⟩, of_nextIs (by decide)⟩
theorem witness_RunningBlockStaysRunning :
    (demo.presentCommand addWord).Running ∧
    (∃ t, step (demo.presentCommand addWord) = .next t ∧ t.limbs 2 ≠ demo.limbs 2) :=
  ⟨⟨⟨by decide, by decide, by decide, trivial⟩, by decide⟩,
    of_nextIs (by decide)⟩
theorem witness_RunningBlockNeverAnswersHalted :
    demo.Running ∧ ∃ t, runCommand addWord demo = .next t ∧ t.port = .resp ⟨.ok, 0⟩ :=
  ⟨demo_running, of_nextIs (by decide)⟩
theorem witness_StickyBits_numbered_code :
    (∃ t, exec (.sub 2 4 0) demo = .next t ∧ t.port = .resp ⟨.underflow, 0⟩) ∧
    (∃ t, exec (.getbits 2 0 1 0) demo = .next t ∧ t.port = .resp ⟨.invalidBitRange, 0⟩) ∧
    Code.underflow.toByte.toNat = 1 ∧ Code.invalidBitRange.toByte.toNat = 6 :=
  ⟨of_nextIs (by decide), of_nextIs (by decide), by decide, by decide⟩
theorem witness_StickyBits_other_codes :
    (∃ t, exec (.rdsr 2) demo = .next t ∧ t.port = .resp ⟨.illegalCommand, 0⟩) ∧
    (∃ t, exec (.add 3 0 1) top = .next t ∧ t.port = .resp ⟨.capacityExceeded, 0⟩) ∧
    (∃ t, exec (.len 0) broken = .next t ∧ t.port = .resp ⟨.invariantViolation, 0⟩) :=
  ⟨of_nextIs (by decide), of_nextIs (by decide), of_nextIs (by decide)⟩
theorem witness_StickyBits_none_set :
    (∃ t, exec .nop demo = .next t ∧ t.port = .resp ⟨.ok, 0⟩) ∧
    (∃ t, exec .nop halted = .next t ∧ t.port = .resp ⟨.halted, 0⟩) ∧
    haltStatus.toWord.getLsbD 16 = true :=
  ⟨of_nextIs (by decide), of_nextIs (by decide), by decide⟩
theorem witness_StickyBits_stay :
    (∃ t, step ((startWith twoFaults small []).presentCommand addWord) = .next t ∧
      t.status = twoFaults) ∧
    twoFaults.toWord.getLsbD 8 = true ∧ decode addWord ≠ .ok .clrf ∧
    (∃ t, step (halted.presentCommand ⟨0x02000000#32, 0, 0⟩) = .next t ∧
      t.status = haltStatus) ∧
    (∃ t, step { halted with inputs := [.reset] } = .next t ∧ t.status = Status.clear) :=
  ⟨of_nextIs (by decide), by decide, by decide, of_nextIs (by decide), of_nextIs (by decide)⟩
theorem witness_CfgShowsTheParameters :
    (⟨.w32, 2, some 65536⟩ : Config).valid = true ∧ (⟨.w64, 16777216, none⟩ : Config).valid = true ∧
    (∃ t, step (demo.presentCommand addWord) = .next t ∧ t.port = .resp ⟨.ok, 0⟩) :=
  ⟨by decide, by decide, of_nextIs (by decide)⟩
theorem witness_system_commands :
    demo.status.halt = false ∧ halted.status.halt = true ∧ 2 ≤ (2 : Scalar).toNat ∧
    opcOf 0x00000001#32 = 0x00#8 ∧ 0x00000001#32 ≠ 0#32 ∧
    opcOf 0x01100000#32 = 0x01#8 ∧ 0x01100000#32 ≠ 0x01000000#32 ∧
    opcOf 0x02100000#32 = 0x02#8 ∧ 0x02100000#32 ≠ 0x02000000#32 := by decide
theorem witness_SetpCreatesThePrimitive : top.status.halt = false ∧ top.cfg.valid = true := by
  decide
theorem witness_MovCopiesAndNormKeeps : demo.status.halt = false ∧ demo.readable [0] := by
  decide
theorem witness_NormIsNop : demo.Running := demo_running
theorem witness_WrlReplacesOneLimb :
    demo.status.halt = false ∧ demo.readable [0] ∧ (0xFFFFFFFF : Scalar).toNat < 2 ^ demo.cfg.w ∧
    (63 : Scalar).toNat < demo.cfg.maxLimbs ∧ (0 : Scalar).toNat = 0 := by decide
theorem witness_WrlFaultsInOrder :
    demo.status.halt = false ∧ demo.readable [0] ∧ 2 ^ demo.cfg.w ≤ (0x100000000 : Scalar).toNat ∧
    (1 : Scalar).toNat < 2 ^ demo.cfg.w ∧ (1 : Scalar).toNat ≠ 0 ∧
    demo.cfg.maxLimbs ≤ (64 : Scalar).toNat ∧ (start wide []).cfg.width = .w64 ∧
    (start wide []).status.halt = false ∧ (start wide []).readable [0] := by decide
theorem witness_RdlAndLenRead : top.status.halt = false ∧ top.readable [0] := by decide
theorem witness_LoadingALimbArray :
    demo.Running ∧ (∀ l ∈ ([5, 0xFFFFFFFF, 0] : List Scalar), l.toNat < 2 ^ demo.cfg.w) ∧
    ([5, 0xFFFFFFFF, 0] : List Scalar).length ≤ demo.cfg.maxLimbs :=
  ⟨demo_running, fun l h => by
    simp only [List.mem_cons, List.not_mem_nil, or_false] at h
    rcases h with rfl | rfl | rfl <;> decide, by decide⟩
theorem witness_PrimitiveRoundTrip :
    demo.status.halt = false ∧ demo.cfg.valid = true ∧ demo.cfg.width = .w32 ∧
    (start wide []).status.halt = false ∧ (start wide []).cfg.valid = true ∧
    (start wide []).cfg.width = .w64 := by decide
theorem witness_CanonicalFormIsUnique :
    (∀ l ∈ ([0, 5, 0, 0] : StoredLimbs), l < 2 ^ demo.cfg.w) ∧
    ([0, 5, 0, 0] : StoredLimbs).length ≤ demo.cfg.maxLimbs ∧
    demo.cfg.canonical tera = true ∧ valueOf demo.cfg.w tera = valueOf demo.cfg.w tera := by
  decide
theorem witness_AddAndAddpWriteTheSum :
    top.status.halt = false ∧ top.readable [0, 1] ∧ top.readable [0, 3] ∧ top.readable [0] ∧
    2 ^ (top.cfg.w * top.cfg.maxLimbs) ≤ top.x 0 + top.x 1 ∧
    top.x 0 + top.x 3 < 2 ^ (top.cfg.w * top.cfg.maxLimbs) ∧
    2 ^ (top.cfg.w * top.cfg.maxLimbs) ≤ top.x 0 + (1 : Scalar).toNat ∧
    top.x 0 + (0 : Scalar).toNat < 2 ^ (top.cfg.w * top.cfg.maxLimbs) := by decide
theorem witness_SubAndSubpWriteTheDifference :
    demo.status.halt = false ∧ demo.readable [0, 1] ∧ demo.x 1 ≤ demo.x 0 ∧ demo.x 1 < demo.x 0 ∧
    demo.readable [2] ∧ (7 : Scalar).toNat ≤ demo.x 2 ∧ demo.x 2 < (8 : Scalar).toNat := by
  decide
theorem witness_CmpOrdersTwoValues :
    demo.status.halt = false ∧ demo.readable [0, 1] ∧ demo.x 0 = demo.x 0 ∧ demo.x 1 < demo.x 0 ∧
    demo.x 4 < demo.x 3 := by decide
theorem witness_limb_widths : 0 < demo.cfg.w ∧ 0 < (start wide []).cfg.w := by decide
theorem witness_AddAndMulCommute :
    demo.status.halt = false ∧ (2 : Reg) ≠ 1 ∧
    ∃ t, exec (.add 2 0 1) demo = .next t ∧ t.port = .resp ⟨.ok, 0⟩ :=
  ⟨by decide, by decide, of_nextIs (by decide)⟩
theorem witness_MulWritesTheProduct :
    top.status.halt = false ∧ top.readable [2, 2] ∧ top.readable [0, 1] ∧
    2 ^ (top.cfg.w * top.cfg.maxLimbs) ≤ top.x 2 * top.x 2 ∧
    top.x 0 * top.x 1 < 2 ^ (top.cfg.w * top.cfg.maxLimbs) := by decide
theorem witness_MultiplierKernelsGiveTheProduct :
    (∀ k, (none : Option Nat) = some k → 8 ≤ k) ∧ (∀ k, some 8 = some k → 8 ≤ k) :=
  ⟨by simp, by simp⟩
theorem witness_DivisionWritesQuotientAndRemainder :
    demo.status.halt = false ∧ demo.readable [0, 1] ∧ demo.x 1 ≠ 0 ∧ (2 : Reg) ≠ 3 := by
  decide
theorem witness_ZeroDivisorFaults :
    demo.status.halt = false ∧ demo.readable [0, 9] ∧ demo.x 9 = 0 ∧ demo.readable [0, 1, 9] ∧
    (2 : Reg) ≠ 3 := by decide
theorem witness_ZeroDivisor_xgcd :
    ∃ t, exec (.xgcd 2 3 4 0 9) demo = .next t ∧ t.port = .resp ⟨.ok, 0⟩ :=
  of_nextIs (by decide)
theorem witness_DivisionIdentity :
    demo.status.halt = false ∧ demo.readable [0, 1] ∧ demo.x 1 ≠ 0 ∧ (2 : Reg) ≠ 3 ∧ (2 : Reg) ≠ 0 ∧
    (2 : Reg) ≠ 1 ∧ (3 : Reg) ≠ 0 ∧ (3 : Reg) ≠ 1 ∧ (5 : Reg) ≠ 0 ∧ (5 : Reg) ≠ 1 ∧
    (5 : Reg) ≠ 3 := by decide
theorem witness_LongDivisionEngineDivides : 0 < 32 ∧ 0xF4243 ≠ 0 := by decide
theorem witness_EstimateIsExactOrOneHigh :
    0 < 32 ∧ 2 ≤ 2 ∧ 2 ^ 63 + 1 < 2 ^ (32 * 2) ∧ 2 ^ (32 * 2) ≤ 2 * (2 ^ 63 + 1) ∧
    ((2 ^ 63 + 1) * 2 ^ 32 - 1) / 2 ^ (32 * 0) < (2 ^ 63 + 1) * 2 ^ 32 := by decide
theorem witness_SingleBitCommands :
    demo.status.halt = false ∧ demo.readable [0] ∧
    (2047 : Scalar).toNat < demo.cfg.w * demo.cfg.maxLimbs ∧
    demo.cfg.w * demo.cfg.maxLimbs ≤ (2048 : Scalar).toNat ∧
    (3 : Scalar).getLsbD 0 = true ∧ (2 : Scalar).getLsbD 0 = false := by decide
theorem witness_BitRangeCommands :
    top.status.halt = false ∧ top.readable [0] ∧ top.readable [1] ∧
    (4 : Scalar).toNat < (5 : Scalar).toNat ∧ (5 : Scalar).toNat ≤ (5 : Scalar).toNat := by
  decide
/-- ASGBITS of bits `[63, 65)` of a register of 64 bits, from 1 and from `2^64 - 1`: the first fits,
the second puts a 1 at bit 64. -/
theorem witness_BitRange_edge :
    (∃ t, exec (.asgbits 1 1 63 65) top = .next t ∧ t.port = .resp ⟨.ok, 0⟩) ∧
    (∃ t, exec (.asgbits 1 0 63 65) top = .next t ∧ t.port = .resp ⟨.capacityExceeded, 0⟩) :=
  ⟨of_nextIs (by decide), of_nextIs (by decide)⟩
theorem witness_CountingCommands :
    demo.status.halt = false ∧ demo.readable [0] ∧ demo.x 0 ≠ 0 ∧ demo.readable [9] ∧
    demo.x 9 = 0 := by decide
theorem witness_BitRoundTrip :
    demo.status.halt = false ∧ demo.readable [0] ∧ (5 : Reg) ≠ 0 ∧
    (12 : Scalar).toNat ≤ (40 : Scalar).toNat := by decide
theorem witness_XgcdWritesBezoutCoefficients :
    demo.status.halt = false ∧ demo.cfg.valid = true ∧ demo.readable [3, 4] ∧ (0 : Reg) ≠ 1 ∧
    (0 : Reg) ≠ 2 ∧ (1 : Reg) ≠ 2 ∧ xgcd (demo.x 3) (demo.x 4) = (2, -9, 47) := by decide
theorem witness_XgcdCornerCases : 5 ≠ 0 ∧ 5 ∣ 15 := by decide
theorem witness_ModpowWritesThePower :
    demo.status.halt = false ∧ demo.readable [3, 4, 2] ∧ demo.x 2 ≠ 0 := by decide
/-- The run of R181 on `(240, 46)`, with the spec's own numbers. -/
theorem witness_XgcdRunsTheEuclideanLoop :
    let r : Nat → Nat := fun k => ([240, 46, 10, 6, 4, 2, 0] : List Nat).getD k 0
    let q : Nat → Nat := fun k => ([5, 4, 1, 1, 2] : List Nat).getD k 0
    let x : Nat → Int := fun k => ([1, 0, 1, -4, 5, -9, 23] : List Int).getD k 0
    let y : Nat → Int := fun k => ([0, 1, -5, 21, -26, 47, -120] : List Int).getD k 0
    x 0 = 1 ∧ x 1 = 0 ∧ y 0 = 0 ∧ y 1 = 1 ∧
    (∀ k, k < 5 → r k = q k * r (k + 1) + r (k + 2) ∧ r (k + 2) < r (k + 1) ∧
      x (k + 2) = x k - q k * x (k + 1) ∧ y (k + 2) = y k - q k * y (k + 1)) ∧
    r (5 + 1) = 0 := by decide

end Sys2Proof.Tests
end

section
/-!
PROOFS. The statements of 00_scope.md: the frame of a fault (spec/00_scope.md R13; spec/60_exceptions.md
R223), WRL (spec/40_transfer.md R83), and the multiplier kernels (spec/42_multiply.md R122 to R124).
-/

namespace Sys2Proof.Machine

/-! ### The frame of a fault -/

/-- An answer whose code is not OK is Halted or an entered fault, so it keeps everything but the port
and the bit of its code in STATUS (R219, R223). -/
theorem Answer.frame_of_not_ok {s base t : State} {dests : List Reg} {c : Code} {d : Scalar}
    (h : Answer s base dests t) (hp : t.port = .resp ⟨c, d⟩) (hc : c ≠ .ok) :
    t.regs = s.regs ∧ t.status = s.status.record c ∧ d = 0 ∧ t.cfg = s.cfg ∧
    t.inputs = s.inputs ∧ t.delivered = s.delivered := by
  cases h with
  | halted _ => cases hp; exact ⟨rfl, rfl, rfl, rfl, rfl, rfl⟩
  | fault _ _ _ => cases hp; exact ⟨rfl, rfl, rfl, rfl, rfl, rfl⟩
  | done _ _ _ _ => cases hp; exact absurd rfl hc

/-- Settles O14: every command ends in one of the three answers of `exec_answered`, and the two that
are not OK keep the frame. -/
theorem faultsChangeNoRegister : Obligations.FaultsChangeNoRegister := by
  intro i s t c d ht hp hc
  obtain ⟨t', ht', ha⟩ := exec_answered i s
  obtain rfl : t = t' := by rw [ht] at ht'; injection ht'
  exact ha.frame_of_not_ok hp hc

/-! ### WRL -/

/-- Replacing limb `k` changes that limb and no other (R12). -/
theorem limb_setLimb {w : Nat} (hw : 0 < w) (v : Nat) {k l : Nat} (hl : l < 2 ^ w) (j : Nat) :
    setLimb w v k l / (2 ^ w) ^ j % 2 ^ w =
      if j = k then l else v / (2 ^ w) ^ j % 2 ^ w := by
  have hB : 0 < 2 ^ w := by positivity
  have hlo : v % (2 ^ w) ^ k < (2 ^ w) ^ k := Nat.mod_lt _ (by positivity)
  have old := limb_of_parts hB hlo (Nat.mod_lt (v / (2 ^ w) ^ k) hB) (v / (2 ^ w) ^ (k + 1)) j
  rw [← split_at_limb] at old
  rw [setLimb_split hw, limb_of_parts hB hlo hl, old]
  split <;> rfl

/-- Writing a zero limb does not make a value larger. -/
theorem setLimb_zero_le {w : Nat} (hw : 0 < w) (v k : Nat) : setLimb w v k 0 ≤ v := by
  rw [setLimb_eq hw, Nat.zero_mul, Nat.add_zero]
  exact Nat.sub_le _ _

/-- Replacing a limb below index `n` keeps a value below `B^n`. -/
theorem setLimb_lt {w v k l n : Nat} (hw : 0 < w) (hl : l < 2 ^ w) (hk : k < n)
    (hv : v < (2 ^ w) ^ n) : setLimb w v k l < (2 ^ w) ^ n := by
  obtain ⟨d, rfl⟩ := Nat.exists_eq_add_of_lt hk
  have hlo : v % (2 ^ w) ^ k < (2 ^ w) ^ k := Nat.mod_lt _ (by positivity)
  have hhi : v / (2 ^ w) ^ (k + 1) < (2 ^ w) ^ d := by
    rwa [Nat.div_lt_iff_lt_mul (by positivity), ← Nat.pow_add, Nat.add_left_comm, ← Nat.add_assoc]
  rw [setLimb_split hw]
  generalize 2 ^ w = B at *
  calc v % B ^ k + l * B ^ k + v / B ^ (k + 1) * B ^ (k + 1)
    _ < (l + 1) * B ^ k + v / B ^ (k + 1) * B ^ (k + 1) := by rw [Nat.succ_mul]; omega
    _ ≤ B * B ^ k + v / B ^ (k + 1) * B ^ (k + 1) := by gcongr; exact hl
    _ = (v / B ^ (k + 1) + 1) * B ^ (k + 1) := by ring
    _ ≤ B ^ d * B ^ (k + 1) := by gcongr; exact hhi
    _ = B ^ (k + d + 1) := by ring

/-- The value WRL writes fits the register, for a zero limb or an index the register has (R83). -/
theorem fits_setLimb {c : Config} {v k l : Nat} (hv : c.fits v = true) (hl : l < 2 ^ c.w)
    (hk : l = 0 ∨ k < c.maxLimbs) : c.fits (setLimb c.w v k l) = true := by
  rcases hk with rfl | hk
  · exact Config.fits_mono (setLimb_zero_le c.w_pos v k) hv
  · rw [Config.fits_iff, Config.capBits, Nat.pow_mul] at *
    exact setLimb_lt c.w_pos hl hk hv

/-- WRL of a limb of at most `W` bits that is zero or at an index below MAXLIMBS passes both its tests
(R83). -/
theorem exec_wrl {s : State} {rd : Reg} {a b : Scalar} (hh : s.status.halt = false)
    (hr : s.cfg.canonical (s.limbs rd) = true) (hb : b.toNat < 2 ^ s.cfg.w)
    (ha : b.toNat = 0 ∨ a.toNat < s.cfg.maxLimbs) :
    exec (.wrl rd a b) s = finish s [(rd, setLimb s.cfg.w (s.x rd) a.toNat b.toNat)] 0 := by
  change execWrl rd a b s = _
  rw [execWrl, unlessHalted_of_not hh, withReg_eq hr, Config.base, if_neg (by omega),
    if_neg (by omega)]

/-- Settles O32: WRL writes `setLimb`, which fits the register and replaces one limb. -/
theorem wrlReplacesOneLimb : Obligations.WrlReplacesOneLimb := by
  intro s rd a b hh hr hb ha B v
  have hc := readable_one hr
  have hv : v = setLimb s.cfg.w (s.x rd) a.toNat b.toNat := (setLimb_eq s.cfg.w_pos _ _ _).symm
  rw [hv]
  constructor
  · rw [exec_wrl hh hc hb ha]
    exact completes_one (fits_setLimb (State.fits_x hc) hb ha) 0
  · exact fun k => limb_setLimb s.cfg.w_pos _ hb k

/-! ### The multiplier kernels -/

theorem valueOf_replicate_zero (w n : Nat) : valueOf w (List.replicate n 0) = 0 := by
  induction n with
  | zero => rfl
  | succ n ih => rw [List.replicate_succ, valueOf, ih, Nat.mul_zero]

/-- The schoolbook kernel gives the exact product (R122). -/
theorem schoolbook_eq {w : Nat} (hw : 0 < w) (a b : Nat) : schoolbook w a b = a * b := by
  rw [schoolbook, schoolbookRows_spec, valueOf_replicate_zero, valueOf_limbsOf hw,
    valueOf_limbsOf hw, Nat.zero_add]
  intro k _
  rw [List.getD_eq_getElem?_getD, List.getElem?_replicate]
  split <;> rfl

/-- Operands that reach a legal threshold have at least 8 limbs together (R8). -/
theorem eight_le_of_not_belowThreshold {kt : Option Nat} {combined : Nat}
    (hkt : ∀ k, kt = some k → 8 ≤ k) (h : ¬ belowThreshold kt combined = true) :
    8 ≤ combined := by
  cases kt with
  | none => exact absurd rfl h
  | some k =>
    have := hkt k rfl
    simp only [belowThreshold, Option.all_some, decide_eq_true_eq] at h
    omega

/-- From 8 limbs on, each of the three products of a Karatsuba pass has a smaller combined length than
the pass (R124). -/
theorem karatsuba_lengths_fall {w : Nat} (hw : 0 < w) {a b h : Nat} (ha : a ≠ 0)
    (h8 : 8 ≤ lenOf w a + lenOf w b) (hh : h = (max (lenOf w a) (lenOf w b) + 1) / 2) :
    lenOf w (a % 2 ^ (w * h)) + lenOf w (b % 2 ^ (w * h)) < lenOf w a + lenOf w b ∧
    lenOf w (a / 2 ^ (w * h)) + lenOf w (b / 2 ^ (w * h)) < lenOf w a + lenOf w b ∧
    lenOf w (a % 2 ^ (w * h) + a / 2 ^ (w * h)) + lenOf w (b % 2 ^ (w * h) + b / 2 ^ (w * h)) <
      lenOf w a + lenOf w b := by
  have hpos : lenOf w a ≠ 0 := mt (lenOf_eq_zero_iff hw a).1 ha
  obtain ⟨lowA, highA, sumA⟩ := lenOf_halves hw a h
  obtain ⟨lowB, highB, sumB⟩ := lenOf_halves hw b h
  replace sumA := sumA (by omega)
  replace sumB := sumB (by omega)
  refine ⟨by omega, by omega, ?_⟩
  split at sumA <;> split at sumB <;> omega

/-- Karatsuba's identity: the middle product of the halves at weight `P` is what the product of the
sums has beyond the outer two (R123). -/
theorem karatsuba_identity (P a b : Nat) :
    a / P * (b / P) * (P * P) +
        ((a % P + a / P) * (b % P + b / P) - a % P * (b % P) - a / P * (b / P)) * P +
        a % P * (b % P) = a * b := by
  have hmid : (a % P + a / P) * (b % P + b / P) - a % P * (b % P) - a / P * (b / P) =
      a % P * (b / P) + a / P * (b % P) := by
    rw [Nat.sub_sub]
    apply Nat.sub_eq_of_eq_add
    ring
  rw [hmid]
  calc _ = (a % P + P * (a / P)) * (b % P + P * (b / P)) := by ring
    _ = a * b := by rw [Nat.mod_add_div, Nat.mod_add_div]

/-- A depth above the combined length is enough: the recursion ends and gives the exact product
(R123, R124). -/
theorem karatsuba_eq_some {w : Nat} (hw : 0 < w) {kt : Option Nat}
    (hkt : ∀ k, kt = some k → 8 ≤ k) :
    ∀ depth a b, lenOf w a + lenOf w b < depth → karatsuba w kt depth a b = some (a * b) := by
  intro depth
  induction depth with
  | zero => intro a b h; exact absurd h (Nat.not_lt_zero _)
  | succ depth ih =>
    intro a b hd
    rw [karatsuba]
    split
    · rename_i hz
      rw [Nat.mul_eq_zero.2 hz]
    split
    · rw [schoolbook_eq hw]
    · rename_i hz ht
      obtain ⟨low, high, sum⟩ := karatsuba_lengths_fall hw (not_or.1 hz).1
        (eight_le_of_not_belowThreshold hkt ht) rfl
      simp only [mask_eq, shr_eq, shl_eq]
      rw [ih _ _ (by omega), ih _ _ (by omega), ih _ _ (by omega)]
      dsimp only
      rw [Nat.mul_left_comm w 2, Nat.two_mul, Nat.pow_add, karatsuba_identity]

/-- Settles O45: the depth bound of the multiplier is above the combined length. -/
theorem multiplierKernelsGiveTheProduct : Obligations.MultiplierKernelsGiveTheProduct :=
  fun w _ a b hw hkt => karatsuba_eq_some hw hkt (lenOf w a + lenOf w b + 1) a b (Nat.lt_succ_self _)

end Sys2Proof.Machine
end

section
/-!
PROOFS. The statements of 10_state.md: the invariant, the command port, the frame and the sources of
every command, STATUS and CFG, and the canonical form (spec/10_state.md R20 to R37).
-/

namespace Sys2Proof.Machine

/-! ### The invariant -/

/-- Recording a code that is ever raised keeps STATUS coherent: HALT and F_INVARIANT are set
together (R27, R214, R215, R220). -/
theorem Status.coherent_record {t : Status} (h : t.coherent) {c : Code} (hd : c ≠ .invalidDigit)
    (hb : c ≠ .invalidBase) : (t.record c).coherent := by
  obtain ⟨hinv, hdigit, hbase⟩ := h
  cases c with
  | invalidDigit => exact absurd rfl hd
  | invalidBase => exact absurd rfl hb
  | invariantViolation => exact ⟨rfl, hdigit, hbase⟩
  | _ => exact ⟨hinv, hdigit, hbase⟩

/-- CLRF leaves HALT and F_INVARIANT alone (R202). -/
theorem Status.coherent_clearFaults {t : Status} (h : t.coherent) : t.clearFaults.coherent :=
  ⟨h.left, rfl, rfl⟩

/-- The state a command answers is one of the three answers. -/
theorem Answered.answer {s base t : State} {dests : List Reg} {r : StepResult}
    (h : Answered s base dests r) (ht : r = .next t) : Answer s base dests t := by
  obtain ⟨u, hu, ha⟩ := h
  obtain rfl : t = u := by rw [ht] at hu; injection hu
  exact ha

/-- Every answer of a command is a response the block makes (R65, R214, R215). -/
theorem Answer.port_coherent {s base t : State} {dests : List Reg} (h : Answer s base dests t) :
    t.port.coherent := by
  cases h with
  | halted _ => exact ⟨fun _ => rfl, by simp, by simp⟩
  | fault _ c hc =>
    obtain ⟨_, _, hdigit, hbase⟩ := hc
    exact ⟨fun _ => rfl, hdigit, hbase⟩
  | done ws d _ _ => exact ⟨fun hne => absurd rfl hne, by simp, by simp⟩

/-- An answer's STATUS is coherent when those it starts from are (R27). -/
theorem Answer.status_coherent {s base t : State} {dests : List Reg} (h : Answer s base dests t)
    (hs : s.status.coherent) (hb : base.status.coherent) : t.status.coherent := by
  cases h with
  | halted _ => exact hs
  | fault _ c hc =>
    obtain ⟨_, _, hdigit, hbase⟩ := hc
    exact Status.coherent_record hs hdigit hbase
  | done ws d _ _ => rwa [State.respond_status, State.writeAll_status]

/-- A command does not change the parameters (R29). -/
theorem runCommand_cfg {c : Command} {s t : State} (ht : runCommand c s = .next t) :
    t.cfg = s.cfg := by
  obtain ⟨u, r, hu, _, hcfg, _, _⟩ := runCommand_next c s
  obtain rfl : t = u := by rw [ht] at hu; injection hu
  exact hcfg

/-- Running a command keeps the invariant (R22, R27, R80). -/
theorem State.Inv.runCommand {s t : State} (h : s.Inv) {c : Command}
    (ht : runCommand c s = .next t) : t.Inv := by
  obtain ⟨base, dests, _, _, _, _, hst, hans⟩ := runCommand_answered c s
  have ha := hans.answer ht
  have hb : base.status.coherent := by
    rcases hst with e | e
    · rw [e]; exact h.status
    · rw [e]; exact Status.coherent_clearFaults h.status
  exact ⟨runCommand_cfg ht ▸ h.parameters, Memory.wf_runCommand h.canonical ht,
    ha.status_coherent h.status hb, ha.port_coherent⟩

/-- With legal parameters the reset state meets the invariant (R36). -/
theorem State.Inv.resetOf {cfg : Config} (h : cfg.valid = true) : (State.resetOf cfg).Inv :=
  ⟨h, Memory.wf_resetOf cfg, ⟨rfl, rfl, rfl⟩, trivial⟩

/-- The invariant speaks of the block alone: a transition that keeps the parameters, the registers
and STATUS keeps it, whatever it does on the host's side. -/
theorem State.Inv.of_same_block {s t : State} (h : s.Inv) (hcfg : t.cfg = s.cfg)
    (hregs : t.regs = s.regs) (hst : t.status = s.status) (hport : t.port.coherent) : t.Inv := by
  obtain ⟨hpar, hcan, hstat, _⟩ := h
  exact ⟨hcfg ▸ hpar, by rw [hcfg, hregs]; exact hcan, by rw [hst]; exact hstat, hport⟩

/-- Settles O19: of the transitions of the port only reset and a command touch the registers, STATUS
or the pending response, and both keep the invariant. -/
theorem stepKeepsTheInvariant : Obligations.StepKeepsTheInvariant := by
  intro s t h ht
  rcases step_cases ht with ⟨rest, _, rfl⟩ | ⟨_, hcmd | haccept | hdeliver | hwait⟩
  · exact (State.Inv.resetOf h.parameters).of_same_block rfl rfl rfl trivial
  · obtain ⟨c, actions, hp, hrun⟩ := hcmd
    have h' : State.Inv { s with inputs := actions } := h.of_same_block rfl rfl rfl h.response
    exact h'.runCommand hrun
  · obtain ⟨c, rest, _, rfl⟩ := haccept
    exact h.of_same_block rfl rfl rfl trivial
  · obtain ⟨r, rest, _, rfl⟩ := hdeliver
    exact h.of_same_block rfl rfl rfl trivial
  · obtain ⟨rest, rfl⟩ := hwait
    exact h.of_same_block rfl rfl rfl h.response

/-- Settles O18: reset clears STATUS and every register. -/
theorem resetStateIsRunning : Obligations.ResetStateIsRunning := by
  have h : ∀ cfg : Config, cfg.valid = true → (State.resetOf cfg).Running :=
    fun cfg hv => ⟨State.Inv.resetOf hv, rfl⟩
  exact ⟨h, h Config.reference (by decide)⟩

/-! ### The command port -/

/-- IDLE to BUSY: the host transfers a command (R32). -/
theorem step_idle_command {s : State} {c : Command} {rest : List HostAction} (hp : s.port = .idle)
    (hi : s.inputs = .command c :: rest) :
    step s = .next (State.acceptCommand { s with inputs := rest } c) := by
  rcases s with ⟨cfg, regs, st, port, ins, del⟩
  cases hp
  cases hi
  rfl

/-- RESP to IDLE: the host takes the response (R32). -/
theorem step_resp_takeResponse {s : State} {r : Response} {rest : List HostAction}
    (hp : s.port = .resp r) (hi : s.inputs = .takeResponse :: rest) :
    step s = .next (State.deliver { s with inputs := rest } r) := by
  rcases s with ⟨cfg, regs, st, port, ins, del⟩
  cases hp
  cases hi
  rfl

/-- While the block executes only a wait of the host is used up (log 3). -/
theorem afterBusy_of_not_wait {actions : List HostAction} (h : actions.head? ≠ some .wait) :
    afterBusy actions = actions := by
  cases actions with
  | nil => rfl
  | cons a rest =>
    cases a with
    | wait => exact absurd rfl h
    | _ => rfl

theorem runCommand_of_ok {c : Command} {i : Instr} (h : decode c = .ok i) (s : State) :
    runCommand c s = exec i s := by
  rw [runCommand, h]

theorem runCommand_of_error {c : Command} {e : DecodeError} (h : decode c = .error e) (s : State) :
    runCommand c s = unlessHalted s (raise s .illegalCommand) := by
  rw [runCommand, h]

/-- A word the decoder refuses is IllegalCommand when the block has not halted (R68, R69, R218). -/
theorem faults_runCommand_of_error {c : Command} {e : DecodeError} (h : decode c = .error e)
    {s : State} (hh : s.status.halt = false) : Faults s (runCommand c s) .illegalCommand := by
  rw [runCommand_of_error h, unlessHalted_of_not hh]
  exact faults_raise _

/-- Settles O7: `step_busy`, with the host's actions after the step written out. -/
theorem busyStepRunsTheDecodedCommand : Obligations.BusyStepRunsTheDecodedCommand := by
  intro s c hp
  have hrun : s.inputs.head? ≠ some .reset → s.inputs.head? ≠ some .wait →
      step s = runCommand c s := fun hr hw => by
    rw [step_busy hp hr, afterBusy_of_not_wait hw]
  refine ⟨fun i hd hr hw => ?_, fun i rest hd hi => ?_, fun e hd hh hr hw => ?_⟩
  · rw [hrun hr hw, runCommand_of_ok hd]
  · rw [step_busy hp (by simp [hi]), hi, afterBusy, runCommand_of_ok hd]
  · rw [hrun hr hw]
    exact faults_runCommand_of_error hd hh

/-- A run goes on from the state its first step answers. -/
theorem run_succ_of_next {s t : State} (h : step s = .next t) (k : Nat) :
    Host.Core.run core (k + 1) s = Host.Core.run core k t := by
  have hcore : core.step s = .next t := h
  simp only [Host.Core.run, hcore]

/-- Settles O8: the three steps are the transfer of the command, its execution and the transfer of
its response. -/
theorem portRunsOneCommandPerResponse : Obligations.PortRunsOneCommandPerResponse := by
  intro s c rest hp hi
  obtain ⟨t, r, ht, hresp, _, hin, hdel⟩ :=
    runCommand_next c { s with port := .busy c, inputs := .takeResponse :: rest }
  have haccept := step_idle_command hp hi
  have hbusy : step (State.acceptCommand { s with inputs := .takeResponse :: rest } c) = .next t :=
    ht
  have htake := step_resp_takeResponse hresp hin
  refine ⟨t, r, ht, hresp, ?_⟩
  rw [run_succ_of_next haccept, run_succ_of_next hbusy, run_succ_of_next htake]
  simp only [Host.Core.run, State.deliver, hdel]

/-- Settles O9: the signals are read off the port state. -/
theorem portSignalsFollowThePortState : Obligations.PortSignalsFollowThePortState := by
  intro s
  refine ⟨rfl, fun h => ?_, fun c h => ?_, fun r h => ?_⟩
  · simp only [State.cmdReady, State.rspValid, h, and_self]
  · simp only [State.cmdReady, State.rspValid, h, and_self]
  · simp only [State.cmdReady, State.rspValid, State.rspCode, State.rspData, h, and_self]

/-! ### What every command answers and leaves unchanged -/

/-- Settles O13: by the three answers of `exec_answered`. -/
theorem everyCommandIsAnswered : Obligations.EveryCommandIsAnswered := by
  intro i s
  obtain ⟨t, ht, ha⟩ := exec_answered i s
  cases ha with
  | halted _ => exact ⟨_, _, ht, rfl, fun _ => rfl⟩
  | fault _ c _ => exact ⟨_, _, ht, rfl, fun _ => rfl⟩
  | done ws d _ _ => exact ⟨_, _, ht, rfl, fun hne => absurd rfl hne⟩

theorem execBase_of_ne_clrf {i : Instr} (h : i ≠ .clrf) (s : State) : execBase i s = s := by
  rw [execBase, if_neg h]

/-- An answer whose code is OK is a completion, so it keeps everything but the port and the
destinations (R13). -/
theorem Answer.frame_of_ok {s base t : State} {dests : List Reg} {d : Scalar}
    (h : Answer s base dests t) (hp : t.port = .resp ⟨.ok, d⟩) :
    (∀ j, j ∉ dests → t.limbs j = base.limbs j) ∧ t.status = base.status ∧ t.cfg = base.cfg ∧
    t.inputs = base.inputs ∧ t.delivered = base.delivered := by
  cases h with
  | halted _ => cases hp
  | fault _ c hc => cases hp; exact absurd rfl hc.left
  | done ws d hd _ =>
    subst hd
    exact ⟨fun j hj => State.writeAll_limbs_of_notMem ws base hj, by simp, by simp, by simp,
      by simp⟩

/-- Settles O15: a completion keeps the frame of `execBase`, which differs from the state before in
the STATUS of CLRF alone. -/
theorem completedCommandsChangeOnlyDestinations :
    Obligations.CompletedCommandsChangeOnlyDestinations := by
  intro i s t d ht hp
  obtain ⟨hlimbs, hst, hcfg, hin, hdel⟩ := ((exec_answered i s).answer ht).frame_of_ok hp
  refine ⟨fun j hj => ?_, fun hi => ?_, ?_, ?_, ?_⟩
  · rw [hlimbs j hj, execBase_limbs]
  · rw [hst, execBase_of_ne_clrf hi]
  · rw [hcfg, execBase_cfg]
  · rw [hin, execBase_inputs]
  · rw [hdel, execBase_delivered]

/-! ### What a command depends on -/

/-- Two results are alike: both answer, with one response and one STATUS, and with the same limbs in
the destinations when the command completes. -/
def Alike (dests : List Reg) (r₁ r₂ : StepResult) : Prop :=
  ∃ t₁ t₂, r₁ = .next t₁ ∧ r₂ = .next t₂ ∧ t₁.port = t₂.port ∧ t₁.status = t₂.status ∧
    (∀ d, t₁.port = .resp ⟨.ok, d⟩ → ∀ j ∈ dests, t₁.limbs j = t₂.limbs j)

/-- The same writes leave the same limbs in the registers they name, whatever these held (R13). -/
theorem State.writeAll_limbs_congr (ws : List (Reg × Nat)) {s₁ s₂ : State} (hcfg : s₁.cfg = s₂.cfg)
    {j : Reg} (hj : j ∈ ws.map Prod.fst) :
    (s₁.writeAll ws).limbs j = (s₂.writeAll ws).limbs j := by
  induction ws generalizing s₁ s₂ with
  | nil => cases hj
  | cons p ws ih =>
    rw [State.writeAll, State.writeAll]
    by_cases hrest : j ∈ ws.map Prod.fst
    · exact ih (by simpa using hcfg) hrest
    · obtain rfl : j = p.1 := by
        rw [List.map_cons, List.mem_cons] at hj
        exact hj.resolve_right hrest
      rw [State.writeAll_limbs_of_notMem _ _ hrest, State.writeAll_limbs_of_notMem _ _ hrest,
        State.writeNat_limbs_self, State.writeNat_limbs_self, hcfg]

/-- The registers, the port and the host's side of `u` under the parameters and the STATUS of `s`. -/
def State.sharing (s u : State) : State := { u with cfg := s.cfg, status := s.status }

theorem State.sharing_eq {s u : State} (hcfg : s.cfg = u.cfg) (hst : s.status = u.status) :
    s.sharing u = u := by
  rw [State.sharing, hcfg, hst]

section

variable {s u : State} {dests : List Reg}

theorem alike_raise {c : Code} (hc : c ≠ .ok) :
    Alike dests (raise s c) (raise (s.sharing u) c) := by
  refine ⟨_, _, rfl, rfl, rfl, rfl, fun d hd => ?_⟩
  cases hd
  exact absurd rfl hc

theorem alike_unlessHalted {k₁ k₂ : StepResult} (h : Alike dests k₁ k₂) :
    Alike dests (unlessHalted s k₁) (unlessHalted (s.sharing u) k₂) := by
  rw [unlessHalted, unlessHalted, show (s.sharing u).status = s.status from rfl]
  split
  · exact ⟨_, _, rfl, rfl, rfl, rfl, fun d hd => by cases hd⟩
  · exact h

/-- A register that holds the same limbs in both states reads alike (R35, R90). -/
theorem alike_withReg {i : Reg} (hi : s.limbs i = u.limbs i) {k₁ k₂ : Nat → StepResult}
    (h : ∀ v, Alike dests (k₁ v) (k₂ v)) :
    Alike dests (withReg s i k₁) (withReg (s.sharing u) i k₂) := by
  have hread : (s.sharing u).readNat? i = s.readNat? i := by
    rw [State.readNat?, State.readNat?, hi]
    rfl
  rw [withReg, withReg, hread]
  split
  · exact h _
  · exact alike_raise (by decide)

theorem alike_finish (ws : List (Reg × Nat)) (d : Scalar) :
    Alike (ws.map Prod.fst) (finish s ws d) (finish (s.sharing u) ws d) := by
  rw [finish, finish, show (s.sharing u).cfg = s.cfg from rfl]
  split
  · refine ⟨_, _, rfl, rfl, rfl, ?_, fun _ _ j hj => ?_⟩
    · rw [State.respond_status, State.respond_status, State.writeAll_status,
        State.writeAll_status, State.sharing]
    · exact State.writeAll_limbs_congr ws (s₁ := s) (s₂ := s.sharing u) rfl hj
  · exact alike_raise (by decide)

theorem alike_ite {p : Prop} [Decidable p] {k₁ k₂ l₁ l₂ : StepResult} (hk : Alike dests k₁ k₂)
    (hl : Alike dests l₁ l₂) : Alike dests (if p then k₁ else l₁) (if p then k₂ else l₂) := by
  split
  · exact hk
  · exact hl

/-- A test that raises a fault, made before the command goes on. -/
theorem alike_ite_raise {p : Prop} [Decidable p] {c : Code} (hc : c ≠ .ok) {k₁ k₂ : StepResult}
    (h : Alike dests k₁ k₂) :
    Alike dests (if p then raise s c else k₁) (if p then raise (s.sharing u) c else k₂) :=
  alike_ite (alike_raise hc) h

end

/-- A command answers alike from two states that share the parameters, STATUS and the limbs it reads
(R24, R25, R35). -/
theorem exec_alike (i : Instr) {s u : State} (hsrc : ∀ j ∈ i.sources, s.limbs j = u.limbs j) :
    Alike i.destinations (exec i s) (exec i (s.sharing u)) := by
  have read {dests : List Reg} {j : Reg} (hj : j ∈ i.sources) {k₁ k₂ : Nat → StepResult}
      (h : ∀ v, Alike dests (k₁ v) (k₂ v)) := alike_withReg (hsrc j hj) h
  -- where a register stands among the sources
  have first {j : Reg} {l : List Reg} : j ∈ j :: l := List.mem_cons_self
  have second {j k : Reg} {l : List Reg} : j ∈ k :: j :: l := List.mem_cons_of_mem _ first
  have third {j k k' : Reg} {l : List Reg} : j ∈ k :: k' :: j :: l := List.mem_cons_of_mem _ second
  cases i with
  | nop => exact alike_unlessHalted (alike_finish [] 0)
  | rdsr a =>
    exact alike_ite (alike_finish [] _)
      (alike_ite (alike_finish [] _) (alike_unlessHalted (alike_raise (by decide))))
  | clrf => exact alike_unlessHalted (alike_finish (u := u) [] 0)
  | setp rd a => exact alike_unlessHalted (alike_finish [(rd, _)] 0)
  | wrl rd a b =>
    exact alike_unlessHalted (read first fun v => alike_ite_raise (by decide)
      (alike_ite_raise (by decide) (alike_finish [(rd, _)] 0)))
  | mov rd _ | norm rd | clrbit rd _ | addp rd _ _ =>
    exact alike_unlessHalted (read first fun v => alike_finish [(rd, _)] 0)
  | rdl _ _ | len _ | getbit _ _ | cnt1 _ | cnt0 _ | lz _ | tz _ | bitlen _ =>
    exact alike_unlessHalted (read first fun v => alike_finish [] _)
  | add rd _ _ | mul rd _ _ =>
    exact alike_unlessHalted (read first fun a => read second fun b => alike_finish [(rd, _)] 0)
  | cmp _ _ => exact alike_unlessHalted (read first fun a => read second fun b => alike_finish [] _)
  | sub rd _ _ | div rd _ _ | rem rd _ _ =>
    exact alike_unlessHalted (read first fun a => read second fun b =>
      alike_ite_raise (by decide) (alike_finish [(rd, _)] 0))
  | subp rd _ _ | setbit rd _ | getbits rd _ _ _ =>
    exact alike_unlessHalted (read first fun v =>
      alike_ite_raise (by decide) (alike_finish [(rd, _)] 0))
  | asgbit rd a b =>
    exact alike_unlessHalted (read first fun v => alike_ite
      (alike_ite_raise (by decide) (alike_finish [(rd, _)] 0)) (alike_finish [(rd, _)] 0))
  | asgbits rd rs1 a b =>
    exact alike_unlessHalted (read first fun v => read second fun u => alike_ite_raise (by decide)
      (alike_ite_raise (by decide) (alike_finish [(rd, _)] 0)))
  | divrem rd rd2 rs1 rs2 =>
    exact alike_unlessHalted (alike_ite_raise (by decide) (read first fun a => read second fun b =>
      alike_ite_raise (by decide) (alike_finish [(rd, _), (rd2, _)] 0)))
  | xgcd rd rd2 rd3 rs1 rs2 =>
    exact alike_unlessHalted (alike_ite_raise (by decide) (read first fun a => read second fun b =>
      alike_finish [(rd, _), (rd2, _), (rd3, _)] _))
  | modpow rd rs1 rs2 rs3 =>
    exact alike_unlessHalted (read first fun b => read second fun e => read third fun m =>
      alike_ite_raise (by decide) (alike_ite (alike_finish [(rd, _)] 0) (alike_finish [(rd, _)] 0)))

/-- Settles O16: every meaning is built from operations that answer alike, and reads only its
sources. -/
theorem commandsDependOnlyOnTheirSources : Obligations.CommandsDependOnlyOnTheirSources :=
  fun i _ _ hcfg hst hsrc => State.sharing_eq hcfg hst ▸ exec_alike i hsrc

/-! ### STATUS -/

/-- Settles O24: the fields of the word up to bit 16, one by one, and nothing above them. -/
theorem statusWordLayout : Obligations.StatusWordLayout := by
  intro t k
  simp only [Status.toWord, BitVec.getLsbD_append, BitVec.getLsbD_ofBool, BitVec.getLsbD_zero]
  rcases Nat.lt_or_ge k 17 with hk | hk
  · interval_cases k <;> simp
  · obtain ⟨d, rfl⟩ := Nat.exists_eq_add_of_le' hk
    simp

/-- CLRF clears bits 8 to 15 and no other (R202). -/
theorem Status.getLsbD_clearFaults (t : Status) (k : Nat) :
    t.clearFaults.toWord.getLsbD k = (decide (k < 8 ∨ 15 < k) && t.toWord.getLsbD k) := by
  rw [statusWordLayout t.clearFaults k, statusWordLayout t k]
  split <;> simp [Status.clearFaults]

/-- Recording a code sets its sticky bit, for InvariantViolation HALT too, and no other (R28,
R220). -/
theorem Status.getLsbD_record (t : Status) (c : Code) (k : Nat) :
    (t.record c).toWord.getLsbD k =
      (decide (c.stickyBit = some k ∨ c = .invariantViolation ∧ k = 0) || t.toWord.getLsbD k) := by
  rw [statusWordLayout (t.record c) k, statusWordLayout t k]
  rcases Nat.lt_or_ge k 17 with hk | hk
  · interval_cases k <;> cases c <;> rfl
  · obtain ⟨d, rfl⟩ := Nat.exists_eq_add_of_le' hk
    cases c <;> simp [Code.stickyBit]

theorem Status.getLsbD_record_of_stickyBit (t : Status) {c : Code} {k : Nat}
    (h : c.stickyBit = some k) : (t.record c).toWord.getLsbD k = true := by
  simp [Status.getLsbD_record, h]

/-- The sticky bits by their code numbers: `8 + (code - 1)` for 0x01 to 0x06 (R28, R221). -/
theorem Code.stickyBit_of_toByte {c : Code} (h1 : 1 ≤ c.toByte.toNat) (h6 : c.toByte.toNat ≤ 6) :
    c.stickyBit = some (8 + (c.toByte.toNat - 1)) := by
  revert h1 h6
  cases c <;> decide

/-- The STATUS a completing command leaves: bits 8 to 15 cleared by CLRF, else as it was (R28,
R202). -/
theorem getLsbD_execBase (i : Instr) (s : State) (k : Nat) :
    (execBase i s).status.toWord.getLsbD k =
      (decide (k < 8 ∨ 15 < k ∨ i ≠ .clrf) && s.status.toWord.getLsbD k) := by
  by_cases h : i = .clrf
  · subst h
    simp [execBase, Status.getLsbD_clearFaults]
  · simp [execBase_of_ne_clrf h, h]

/-- An answer loses no STATUS bit that the states it starts from have (R28). -/
theorem Answer.getLsbD_status {s base t : State} {dests : List Reg} (h : Answer s base dests t)
    {k : Nat} (hs : s.status.toWord.getLsbD k = true)
    (hb : base.status.toWord.getLsbD k = true) : t.status.toWord.getLsbD k = true := by
  cases h with
  | halted _ => exact hs
  | fault _ c _ => rw [State.takeFault_status, Status.getLsbD_record, hs, Bool.or_true]
  | done ws d _ _ => rwa [State.respond_status, State.writeAll_status]

/-- A command of the port loses no STATUS bit, but CLRF its bits 8 to 15 (R28). -/
theorem runCommand_keeps_status_bit {c : Command} {s t : State} (ht : runCommand c s = .next t)
    {k : Nat} (hk : s.status.toWord.getLsbD k = true)
    (h : k < 8 ∨ 15 < k ∨ decode c ≠ .ok .clrf) : t.status.toWord.getLsbD k = true := by
  cases hd : decode c with
  | ok i =>
    rw [runCommand_of_ok hd] at ht
    rw [hd] at h
    have hi : k < 8 ∨ 15 < k ∨ i ≠ .clrf := h.imp_right (Or.imp_right fun hne he => hne (he ▸ rfl))
    refine ((exec_answered i s).answer ht).getLsbD_status hk ?_
    rw [getLsbD_execBase, decide_eq_true hi, hk, Bool.true_and]
  | error e =>
    rw [runCommand_of_error hd] at ht
    have hans : Answered s s [] (unlessHalted s (raise s .illegalCommand)) :=
      answered_unlessHalted fun hh => answered_raise hh (by decide)
    exact (hans.answer ht).getLsbD_status hk hk

/-- The sticky bits a command leaves: a fault sets its own, an OK or a Halted none (R28). -/
theorem exec_records_stickyBit {i : Instr} {s t : State} {c : Code} {d : Scalar}
    (ht : exec i s = .next t) (hp : t.port = .resp ⟨c, d⟩) :
    (∀ k, c.stickyBit = some k → t.status.toWord.getLsbD k = true) ∧
    (c.stickyBit = none →
      ∀ k, t.status.toWord.getLsbD k = true → s.status.toWord.getLsbD k = true) := by
  by_cases hc : c = .ok
  · subst hc
    obtain ⟨_, hst, _⟩ := ((exec_answered i s).answer ht).frame_of_ok hp
    refine ⟨fun k hk => (by cases hk), fun _ k hk => ?_⟩
    rw [hst, getLsbD_execBase, Bool.and_eq_true] at hk
    exact hk.right
  · obtain ⟨_, hst, _⟩ := faultsChangeNoRegister i s t c d ht hp hc
    rw [hst]
    refine ⟨fun k hk => Status.getLsbD_record_of_stickyBit _ hk, fun hnone k hk => ?_⟩
    have hinv : c ≠ .invariantViolation := by rintro rfl; cases hnone
    simpa [Status.getLsbD_record, hnone, hinv] using hk

/-- Settles O22: a command records the sticky bit of its code, and of the transitions of the port
only a command and reset touch STATUS. -/
theorem stickyBitsRecordFaults : Obligations.StickyBitsRecordFaults := by
  refine ⟨fun i s t c d ht hp => ?_, fun s t ht => ?_⟩
  · obtain ⟨hset, hnone⟩ := exec_records_stickyBit ht hp
    refine ⟨fun h1 h6 => hset _ (Code.stickyBit_of_toByte h1 h6), ?_, ?_, ?_, ?_⟩
    · rintro rfl; exact hset 14 rfl
    · rintro rfl; exact hset 15 rfl
    · rintro rfl; exact hset 16 rfl
    · rintro (rfl | rfl)
      · exact hnone rfl
      · exact hnone rfl
  · rcases step_cases ht with ⟨rest, hi, rfl⟩ | ⟨hr, hstep⟩
    · exact ⟨fun hr => absurd (by rw [hi]; rfl) hr, fun _ => show Status.clear.toWord = 0 by decide⟩
    · refine ⟨fun _ k hk hclrf => ?_, fun h => absurd h hr⟩
      rcases hstep with hcmd | haccept | hdeliver | hwait
      · obtain ⟨c, actions, hp, hrun⟩ := hcmd
        exact runCommand_keeps_status_bit hrun hk (hclrf.imp_right (Or.imp_right fun h => h c hp))
      · obtain ⟨c, rest, _, rfl⟩ := haccept
        exact hk
      · obtain ⟨r, rest, _, rfl⟩ := hdeliver
        exact hk
      · obtain ⟨rest, rfl⟩ := hwait
        exact hk

/-! ### CFG -/

/-- No transition of the port changes the parameters (R29). -/
theorem step_cfg {s t : State} (h : step s = .next t) : t.cfg = s.cfg := by
  rcases step_cases h with ⟨rest, _, rfl⟩ | ⟨_, hcmd | haccept | hdeliver | hwait⟩
  · rfl
  · obtain ⟨c, actions, _, hrun⟩ := hcmd
    exact (runCommand_cfg hrun).trans rfl
  · obtain ⟨c, rest, _, rfl⟩ := haccept
    rfl
  · obtain ⟨r, rest, _, rfl⟩ := hdeliver
    rfl
  · obtain ⟨rest, rfl⟩ := hwait
    rfl

end Sys2Proof.Machine

namespace Sys2Proof

/-! The four fields of the CFG word (R29). -/

theorem Config.toWord_width (c : Config) :
    c.toWord.extractLsb' 0 8 = BitVec.ofNat 8 c.width.bits :=
  BitVec.extractLsb'_append_eq_right

theorem Config.toWord_nreg (c : Config) : c.toWord.extractLsb' 8 8 = 16#8 :=
  (BitVec.extractLsb'_append_eq_of_le (by decide)).trans BitVec.extractLsb'_append_eq_right

theorem Config.toWord_maxLimbs (c : Config) :
    c.toWord.extractLsb' 16 32 = BitVec.ofNat 32 c.maxLimbs :=
  (BitVec.extractLsb'_append_eq_of_le (by decide)).trans
    ((BitVec.extractLsb'_append_eq_of_le (by decide)).trans BitVec.extractLsb'_append_eq_right)

theorem Config.toWord_kt (c : Config) :
    c.toWord.extractLsb' 48 16 = BitVec.ofNat 16 c.ktField :=
  (BitVec.extractLsb'_append_eq_of_le (by decide)).trans
    ((BitVec.extractLsb'_append_eq_of_le (by decide)).trans BitVec.extractLsb'_append_eq_left)

theorem Config.maxLimbs_le_of_valid {c : Config} (h : c.valid = true) : c.maxLimbs ≤ 16777216 := by
  simp only [Config.valid, Bool.and_eq_true, decide_eq_true_eq] at h
  obtain ⟨⟨_, hmax⟩, _⟩ := h
  exact hmax

theorem Config.ktField_lt (c : Config) : c.ktField < 2 ^ 16 := by
  rw [Config.ktField]
  split
  · omega
  · decide

end Sys2Proof

namespace Sys2Proof.Machine

/-- Settles O23: with legal parameters every field is small enough for its bits of the word. -/
theorem cfgShowsTheParameters : Obligations.CfgShowsTheParameters := by
  refine ⟨fun cfg hv => ⟨?_, ?_, ?_, ?_⟩, fun s t => step_cfg⟩
  · rw [Config.toWord_width]
    cases cfg.width <;> rfl
  · rw [Config.toWord_nreg]
    rfl
  · have hmax := Config.maxLimbs_le_of_valid hv
    rw [Config.toWord_maxLimbs, BitVec.toNat_ofNat, Nat.mod_eq_of_lt (by omega)]
  · rw [Config.toWord_kt, BitVec.toNat_ofNat, Nat.mod_eq_of_lt cfg.ktField_lt]
    exact ⟨fun k hk => by rw [Config.ktField, hk], fun hk => by rw [Config.ktField, hk]⟩

/-! ### Canonical form, RDL and LEN -/

/-- Settles O37: stripping keeps the value and leaves no zero limb at the top, and canonical limbs
are the limbs of their value. -/
theorem canonicalFormIsUnique : Obligations.CanonicalFormIsUnique := by
  intro c
  refine ⟨fun ls hlt hlen => ⟨?_, valueOf_normalize c.w ls⟩, fun ls ks hls hks hv => ?_⟩
  · have hsub := normalize_sublist ls
    exact (c.canonical_iff _).2 ⟨hsub.length_le.trans hlen, fun l hl => hlt l (hsub.mem hl),
      getLast?_normalize ls⟩
  · calc ls = limbsOf c.w (valueOf c.w ls) := (Config.limbsOf_valueOf hls).symm
      _ = limbsOf c.w (valueOf c.w ks) := by rw [hv]
      _ = ks := Config.limbsOf_valueOf hks

/-- RDL of a readable register answers a limb of its value (R84). -/
theorem exec_rdl {s : State} {rs1 : Reg} (hh : s.status.halt = false)
    (hr : s.cfg.canonical (s.limbs rs1) = true) (a : Scalar) :
    exec (.rdl rs1 a) s = finish s [] (BitVec.ofNat 64 (limbAt s.cfg.w (s.x rs1) a.toNat)) := by
  change execRdl rs1 a s = _
  rw [execRdl, unlessHalted_of_not hh, withReg_eq hr]

/-- LEN of a readable register answers the limb count of its value (R85). -/
theorem exec_len {s : State} {rs1 : Reg} (hh : s.status.halt = false)
    (hr : s.cfg.canonical (s.limbs rs1) = true) :
    exec (.len rs1) s = finish s [] (BitVec.ofNat 64 (lenOf s.cfg.w (s.x rs1))) := by
  change execLen rs1 s = _
  rw [execLen, unlessHalted_of_not hh, withReg_eq hr]

/-- A readable register stores as many limbs as its value needs (R22). -/
theorem State.length_limbs {s : State} {i : Reg} (h : s.cfg.canonical (s.limbs i) = true) :
    (s.limbs i).length = lenOf s.cfg.w (s.x i) := by
  rw [State.limbs_eq h, length_limbsOf]

theorem storageForm_eq_inline_iff (ls : StoredLimbs) :
    storageForm ls = .inlineForm ↔ ls.length ≤ 1 := by
  rw [storageForm]
  split <;> simp [*]

/-- Settles O34: the stored limbs of a readable register are the limbs of its value. -/
theorem rdlAndLenRead : Obligations.RdlAndLenRead := by
  intro s rs1 hh hread
  have hr := readable_one hread
  have hlen := State.length_limbs hr
  have hlen_le : ∀ n, (s.limbs rs1).length ≤ n ↔ s.x rs1 < (2 ^ s.cfg.w) ^ n := fun n => by
    rw [hlen, lenOf_le_iff s.cfg.w_pos, Nat.pow_mul]
  refine ⟨fun a => ?_, fun a => ?_, ?_, hlen_le, ?_⟩
  · rw [exec_rdl hh hr, limbAt_pow]
    exact completes_none _
  · rw [State.limbs_eq hr, getD_limbsOf s.cfg.w_pos, limbAt_pow]
  · rw [exec_len hh hr, hlen]
    exact completes_none _
  · rw [storageForm_eq_inline_iff, hlen_le, Nat.pow_one]

end Sys2Proof.Machine
end

section
/-!
PROOFS. The statements of 20_memory.md: loading a limb array (spec/20_memory.md R56), and the barrel
shifter on limbs and the two limb widths (spec/20_memory.md R44, R46; spec/44_bits.md R167).
-/

namespace Sys2Proof

theorem Config.fits_zero (c : Config) : c.fits 0 = true :=
  (c.fits_iff 0).2 (Nat.two_pow_pos _)

end Sys2Proof

namespace Sys2Proof.Machine

/-! ### Loading a limb array -/

/-- SETP of a block that has not halted writes its operand (R81). -/
theorem exec_setp {s : State} (hh : s.status.halt = false) (rd : Reg) (a : Scalar) :
    exec (.setp rd a) s = finish s [(rd, a.toNat)] 0 :=
  unlessHalted_of_not hh _

theorem execAll_cons_of_next {i : Instr} {is : List Instr} {s t : State} (h : exec i s = .next t) :
    execAll (i :: is) s = execAll is t := by
  rw [execAll, h]

/-- A write of `rd` that completes, then commands that complete writing `rd` again, complete together
with the last value: the frames compose (R51). -/
theorem Completes.execAll_cons {s : State} {i : Instr} {is : List Instr} {rd : Reg} {v v' : Nat}
    {d d' : Scalar} (h : Completes s (exec i s) [(rd, v)] d)
    (hrest : ∀ t : State, t.port = .resp ⟨.ok, d⟩ → t.cfg.canonical (t.limbs rd) = true →
      t.x rd = v → t.status = s.status → t.cfg = s.cfg →
      Completes t (execAll is t) [(rd, v')] d') :
    Completes s (execAll (i :: is) s) [(rd, v')] d' := by
  obtain ⟨t, ht, hp, hw, hl, hst, hcfg, hin, hdel⟩ := h
  obtain ⟨hcan, hx⟩ := hw (rd, v) (by simp)
  obtain ⟨u, hu, hup, huw, hul, hust, hucfg, huin, hudel⟩ := hrest t hp hcan hx hst hcfg
  exact ⟨u, (execAll_cons_of_next ht).trans hu, hup, huw, fun j hj => (hul j hj).trans (hl j hj),
    hust.trans hst, hucfg.trans hcfg, huin.trans hin, hudel.trans hdel⟩

/-- A limb set above all limbs of a value is added to it (R12). -/
theorem setLimb_of_lt {w : Nat} (hw : 0 < w) {v j : Nat} (hv : v < (2 ^ w) ^ j) (l : Nat) :
    setLimb w v j l = v + l * (2 ^ w) ^ j := by
  rw [setLimb_eq hw, Nat.div_eq_of_lt hv]
  simp

/-- The WRLs of `ldn` from index `j` on add their limbs above the `j` limbs the register holds
(R73). -/
theorem completes_loadLimbs (nd : Reg) (limbs : List Scalar) : ∀ (j : Nat) (s : State),
    s.status.halt = false → s.cfg.valid = true → s.port = .resp ⟨.ok, 0⟩ →
    s.cfg.canonical (s.limbs nd) = true → s.x nd < (2 ^ s.cfg.w) ^ j →
    (∀ l ∈ limbs, l.toNat < 2 ^ s.cfg.w) → j + limbs.length ≤ s.cfg.maxLimbs →
    Completes s (execAll (loadLimbs nd j limbs) s)
      [(nd, s.x nd + (2 ^ s.cfg.w) ^ j * valueOf s.cfg.w (limbs.map BitVec.toNat))] 0 := by
  induction limbs with
  | nil =>
    intro j s _ _ hp hcan _ _ _
    exact ⟨s, rfl, hp, by simpa [valueOf] using hcan, fun _ _ => rfl, rfl, rfl, rfl, rfl⟩
  | cons l ls ih =>
    intro j s hh hval hp hcan hx hls hlen
    rw [List.length_cons] at hlen
    have hl : l.toNat < 2 ^ s.cfg.w := hls l (by simp)
    have hj : j < s.cfg.maxLimbs := by omega
    have hidx : (BitVec.ofNat 64 j).toNat = j := by
      have := Config.maxLimbs_le_of_valid hval
      rw [BitVec.toNat_ofNat, Nat.mod_eq_of_lt (by omega)]
    have hwrl : Completes s (exec (.wrl nd (BitVec.ofNat 64 j) l) s)
        [(nd, setLimb s.cfg.w (s.x nd) j l.toNat)] 0 := by
      rw [exec_wrl hh hcan hl (.inr (by rwa [hidx])), hidx]
      exact completes_one (fits_setLimb (State.fits_x hcan) hl (.inr hj)) 0
    have hnext := setLimb_lt s.cfg.w_pos hl (Nat.lt_succ_self j)
      (hx.trans_le (Nat.pow_le_pow_right (Nat.two_pow_pos _) j.le_succ))
    refine hwrl.execAll_cons fun t htp htcan htx htst htcfg => ?_
    have hload := ih (j + 1) t (htst ▸ hh) (htcfg ▸ hval) htp htcan (by rwa [htx, htcfg])
      (fun k hk => htcfg ▸ hls k (by simp [hk])) (by rw [htcfg]; omega)
    have hsum : s.x nd + (2 ^ s.cfg.w) ^ j * valueOf s.cfg.w ((l :: ls).map BitVec.toNat) =
        t.x nd + (2 ^ t.cfg.w) ^ (j + 1) * valueOf t.cfg.w (ls.map BitVec.toNat) := by
      rw [htx, htcfg, setLimb_of_lt s.cfg.w_pos hx, List.map_cons, valueOf]
      ring
    rwa [hsum]

/-- Settles O35: SETP leaves the value 0, the WRLs add up the value of the array, and its canonical
limbs are the normalised array. -/
theorem loadingALimbArray : Obligations.LoadingALimbArray := by
  intro s nd limbs hrun hls hlen
  have hclear : Completes s (exec (.setp nd 0) s) [(nd, 0)] 0 := by
    rw [exec_setp hrun.notHalted]
    exact completes_one s.cfg.fits_zero 0
  have hload : Completes s (execAll (Pseudo.ldn nd limbs).expand s)
      [(nd, valueOf s.cfg.w (limbs.map BitVec.toNat))] 0 := by
    refine hclear.execAll_cons fun t htp htcan htx htst htcfg => ?_
    have := completes_loadLimbs nd limbs 0 t (htst ▸ hrun.notHalted) (htcfg ▸ hrun.parameters) htp
      htcan (by simp [htx]) (htcfg ▸ hls) (by rwa [htcfg, Nat.zero_add])
    rwa [htx, htcfg, Nat.pow_zero, Nat.one_mul, Nat.zero_add] at this
  obtain ⟨t, ht, hp, hw, hframe, hst, hcfg, _, _⟩ := hload
  obtain ⟨hcan, hx⟩ := hw _ (List.mem_singleton_self _)
  refine ⟨t, ht, ?_, fun j hj => hframe j (by simpa using hj), hst, hp⟩
  rw [State.limbs_eq hcan, hx, hcfg]
  exact limbsOf_valueOf_normalize s.cfg.w_pos _ (by simpa using hls)

/-! ### The barrel shifter on limbs -/

/-- Shifting by whole limbs moves limb `k` to limb `q + k` (R167). -/
theorem limbAt_mul_pow_add (w v q k : Nat) : limbAt w (v * (2 ^ w) ^ q) (q + k) = limbAt w v k := by
  rw [limbAt_pow, limbAt_pow, Nat.pow_add, ← Nat.div_div_eq_div_mul,
    Nat.mul_div_cancel _ (by positivity)]

/-- Shifting by whole limbs leaves zero limbs below (R167). -/
theorem limbAt_mul_pow_of_lt (w v : Nat) {q k : Nat} (h : k < q) :
    limbAt w (v * (2 ^ w) ^ q) k = 0 := by
  obtain ⟨d, rfl⟩ := Nat.exists_eq_add_of_lt h
  rw [limbAt_pow, show v * (2 ^ w) ^ (k + d + 1) = (2 ^ w) ^ k * (2 ^ w * (v * (2 ^ w) ^ d)) by ring,
    Nat.mul_div_cancel_left _ (by positivity), Nat.mul_mod_right]

/-- The low bits of a limb are those of the value cut below it. -/
theorem limbAt_mod_two_pow_sub (w r v k : Nat) :
    limbAt w v k % 2 ^ (w - r) = v / (2 ^ w) ^ k % 2 ^ (w - r) := by
  rw [limbAt_pow, Nat.mod_mod_of_dvd _ (Nat.pow_dvd_pow 2 (Nat.sub_le w r))]

section
variable {w r : Nat} (hr : r ≤ w)
include hr

theorem two_pow_eq_mul_of_le : 2 ^ w = 2 ^ (w - r) * 2 ^ r := by
  rw [← Nat.pow_add, Nat.sub_add_cancel hr]

/-- The lowest limb of a value shifted by less than a limb: nothing comes in from below (R167). -/
theorem limbAt_mul_two_pow_zero (v : Nat) :
    limbAt w (v * 2 ^ r) 0 = limbAt w v 0 % 2 ^ (w - r) * 2 ^ r := by
  rw [limbAt_mod_two_pow_sub, limbAt_zero, two_pow_eq_mul_of_le hr, Nat.mul_mod_mul_right, Nat.pow_zero,
    Nat.div_one]

/-- A higher limb of a value shifted by less than a limb: the low bits of the limb, moved up, above
the high bits of the limb below (R167). -/
theorem limbAt_mul_two_pow_succ (v k : Nat) :
    limbAt w (v * 2 ^ r) (k + 1) =
      limbAt w v (k + 1) % 2 ^ (w - r) * 2 ^ r + limbAt w v k / 2 ^ (w - r) := by
  have hB := two_pow_eq_mul_of_le hr
  have hcut : v * 2 ^ r / (2 ^ w) ^ (k + 1) = v / (2 ^ w) ^ k / 2 ^ (w - r) := by
    rw [Nat.pow_succ]
    nth_rw 2 [hB]
    rw [← Nat.mul_assoc, Nat.mul_div_mul_right _ _ (Nat.two_pow_pos r), Nat.div_div_eq_div_mul]
  have habove : v / (2 ^ w) ^ (k + 1) = v / (2 ^ w) ^ k / 2 ^ (w - r) / 2 ^ r := by
    rw [Nat.pow_succ, ← Nat.div_div_eq_div_mul, Nat.div_div_eq_div_mul _ (2 ^ (w - r)), ← hB]
  have hbelow : limbAt w v k / 2 ^ (w - r) = v / (2 ^ w) ^ k / 2 ^ (w - r) % 2 ^ r := by
    rw [limbAt_pow]
    nth_rw 2 [hB]
    exact Nat.mod_mul_right_div_self ..
  rw [limbAt_mod_two_pow_sub, hbelow, habove, limbAt_pow, hcut]
  generalize v / (2 ^ w) ^ k / 2 ^ (w - r) = u
  rw [hB, Nat.mul_comm (2 ^ (w - r)), Nat.mod_mul]
  ring

end

/-- The barrel shifter on limbs: a shift by `s div W` limbs of a shift by `s mod W` bits (R167). -/
theorem shlLimb_eq_limbAt {w : Nat} (hw : 0 < w) (v s k : Nat) :
    shlLimb w v s k = limbAt w (v * 2 ^ s) k := by
  have hr : s % w ≤ w := (Nat.mod_lt s hw).le
  have hshift : v * 2 ^ s = v * 2 ^ (s % w) * (2 ^ w) ^ (s / w) := by
    rw [Nat.mul_assoc, ← Nat.pow_mul, ← Nat.pow_add, Nat.mod_add_div]
  rw [hshift, shlLimb]
  generalize s / w = q
  rcases Nat.lt_or_ge k q with hk | hk
  · rw [limbAt_mul_pow_of_lt _ _ hk]
    simp [show ¬ q ≤ k by omega, show ¬ q + 1 ≤ k by omega]
  obtain ⟨d, rfl⟩ := Nat.exists_eq_add_of_le hk
  rw [limbAt_mul_pow_add]
  cases d with
  | zero => simp [limbAt_mul_two_pow_zero hr]
  | succ d => simp [limbAt_mul_two_pow_succ hr]

/-- A limb of the double width is two limbs, the lower index the less significant (R46). -/
theorem limbAt_two_mul (w v k : Nat) :
    limbAt (2 * w) v k = limbAt w v (2 * k) + 2 ^ w * limbAt w v (2 * k + 1) := by
  have hhigh : v / 2 ^ (w * (2 * k + 1)) = v / 2 ^ (w * (2 * k)) / 2 ^ w := by
    rw [Nat.mul_succ, Nat.pow_add, Nat.div_div_eq_div_mul]
  rw [limbAt_eq, limbAt_eq, limbAt_eq, hhigh, show 2 * w * k = w * (2 * k) by ring, Nat.two_mul w,
    Nat.pow_add 2 w w, Nat.mod_mul]

/-- Settles O55: the shifter forms the limbs of the shifted value, and a 64-bit limb is a limb of
double the 32-bit width. -/
theorem limbShiftsAndLimbWidths : Obligations.LimbShiftsAndLimbWidths :=
  ⟨fun w v s k hw => by rw [shlLimb_eq_limbAt hw, limbAt_pow], limbAt_two_mul 32⟩

end Sys2Proof.Machine
end

section
/-!
PROOFS. The statements of 30_encoding.md: the encoder and the decoder invert each other, a word selects
one row of the opcode map, and an ignored scalar changes nothing (spec/30_encoding.md R60 to R74).
-/

/-! ### Decoding an encoded command -/

namespace Sys2Proof.Laws.EncodesToMatch

/-- The encoded word of every command matches the row of its mnemonic (R61, R67). -/
theorem encode_matches : ∀ i : Instr, Statement i
  | .nop => nop
  | .rdsr _ => rdsr _
  | .clrf => clrf
  | .setp _ _ => setp _ _
  | .mov _ _ => mov _ _
  | .wrl _ _ _ => wrl _ _ _
  | .rdl _ _ => rdl _ _
  | .len _ => len _
  | .norm _ => norm _
  | .add _ _ _ => add _ _ _
  | .addp _ _ _ => addp _ _ _
  | .sub _ _ _ => sub _ _ _
  | .subp _ _ _ => subp _ _ _
  | .cmp _ _ => cmp _ _
  | .mul _ _ _ => mul _ _ _
  | .divrem _ _ _ _ => divrem _ _ _ _
  | .div _ _ _ => div _ _ _
  | .rem _ _ _ => rem _ _ _
  | .getbit _ _ => getbit _ _
  | .setbit _ _ => setbit _ _
  | .clrbit _ _ => clrbit _ _
  | .asgbit _ _ _ => asgbit _ _ _
  | .getbits _ _ _ _ => getbits _ _ _ _
  | .asgbits _ _ _ _ => asgbits _ _ _ _
  | .cnt1 _ => cnt1 _
  | .cnt0 _ => cnt0 _
  | .lz _ => lz _
  | .tz _ => tz _
  | .bitlen _ => bitlen _
  | .xgcd _ _ _ _ _ => xgcd _ _ _ _ _
  | .modpow _ _ _ _ => modpow _ _ _ _

end Sys2Proof.Laws.EncodesToMatch

namespace Sys2Proof

/-- The operands of a command read back from its encoding (R60, R64). -/
theorem build_encode (i : Instr) : i.mnemonic.build (encode i) = i := by
  cases i <;> simp [Instr.mnemonic, Mnemonic.build, encode]

/-- Settles O1: the encoded word matches the row of its mnemonic, and that row reads the operands
back. -/
theorem decodeOfEncodeIsTheCommand : Obligations.DecodeOfEncodeIsTheCommand := by
  intro i
  obtain ⟨hopc, hmask⟩ := Laws.EncodesToMatch.encode_matches i
  rw [decode_of_match hopc hmask, build_encode]

/-! ### One row for each word -/

theorem extractLsb'_opc_mask (f : Format) : f.mask.extractLsb' 24 8 = BitVec.allOnes 8 := by
  cases f <;> decide

theorem opcOf_matchWord (m : Mnemonic) : opcOf m.matchWord = m.opcode := by
  cases m <;> decide

/-- Every row compares the whole opcode, so a word that matches a row has its opcode (R61). -/
theorem opcOf_of_match {w : CommandWord} {m : Mnemonic} (h : w &&& m.format.mask = m.matchWord) :
    opcOf w = m.opcode := by
  rw [← opcOf_matchWord, ← h, opcOf, opcOf, BitVec.extractLsb'_and, extractLsb'_opc_mask,
    BitVec.and_allOnes]

/-- No two rows have the same opcode (R67). -/
theorem Mnemonic.opcode_injective : Function.Injective Mnemonic.opcode := by
  intro m m' h
  have hm := ofOpcode?_opcode m
  rw [h, ofOpcode?_opcode] at hm
  exact (Option.some.inj hm).symm

/-- A row's command has the row's mnemonic. -/
theorem mnemonic_build (m : Mnemonic) (c : Command) : (m.build c).mnemonic = m := by
  cases m <;> rfl

/-- Settles O2: a word that matches a row has that row's opcode, and no two rows share one; the decoder
takes exactly the words that match a row. -/
theorem everyWordMatchesOneRowOrIsRefused : Obligations.EveryWordMatchesOneRowOrIsRefused := by
  intro c
  cases hd : decode c with
  | ok i =>
    obtain ⟨m, hopc, hmask, rfl⟩ := decode_eq_ok hd
    refine .inl ⟨m, hmask, fun m' hm' => ?_, _, rfl, mnemonic_build m c⟩
    exact Mnemonic.opcode_injective ((opcOf_of_match hm').symm.trans hopc)
  | error e =>
    refine .inr ⟨fun m hm => ?_, e, rfl⟩
    rw [decode_of_match (opcOf_of_match hm) hm] at hd
    cases hd

/-! ### The word of a decoded command -/

/-- The register field at bit `lo` as a format sees it: the register it names where the row does not
compare the field, zero where it does (R61, R69). -/
def Format.field (f : Format) (w : CommandWord) (lo : Nat) : Reg :=
  if f.mask.extractLsb' lo 4 = 0#4 then regAt w lo else 0

/-- The word of a row's command: the row's opcode, and the register fields its format uses (R60,
R61). -/
theorem word_encode_build (m : Mnemonic) (c : Command) :
    (encode (m.build c)).word =
      wordOf m (m.format.field c.word 20) (m.format.field c.word 16) (m.format.field c.word 12)
        (m.format.field c.word 8) (m.format.field c.word 4) (m.format.field c.word 0) := by
  cases m <;> rfl

/-- A row compares a register field whole or not at all (R61). -/
theorem Format.extractLsb'_mask (f : Format) {lo : Nat} (h : lo ∈ [20, 16, 12, 8, 4, 0]) :
    f.mask.extractLsb' lo 4 = 0#4 ∨ f.mask.extractLsb' lo 4 = BitVec.allOnes 4 := by
  revert lo
  cases f <;> decide

/-- The bits of a row below the opcode are zero (R67). -/
theorem extractLsb'_matchWord (m : Mnemonic) {lo : Nat} (h : lo + 4 ≤ 24) :
    m.matchWord.extractLsb' lo 4 = 0#4 := by
  rw [Mnemonic.matchWord, BitVec.extractLsb'_append_eq_of_add_le h, BitVec.extractLsb'_zero]

/-- In a word that matches a row the fields the format does not use are zero (R69). -/
theorem field_of_match {w : CommandWord} {m : Mnemonic} (h : w &&& m.format.mask = m.matchWord)
    {lo : Nat} (hlo : lo ∈ [20, 16, 12, 8, 4, 0]) : m.format.field w lo = regAt w lo := by
  rw [Format.field]
  split
  · rfl
  · next hused =>
    have hones := (m.format.extractLsb'_mask hlo).resolve_left hused
    have hbelow : lo + 4 ≤ 24 := by
      fin_cases hlo <;> decide
    have hzero : w.extractLsb' lo 4 = 0#4 := by
      rw [← extractLsb'_matchWord m hbelow, ← h, BitVec.extractLsb'_and, hones, BitVec.and_allOnes]
    rw [regAt, hzero]
    rfl

theorem regBits_regAt (w : CommandWord) (lo : Nat) : regBits (regAt w lo) = w.extractLsb' lo 4 :=
  (BitVec.ofNat_toNat 4 (w.extractLsb' lo 4)).trans (BitVec.setWidth_eq _)

/-- A word is its opcode and its six register fields (R60). -/
theorem wordOf_fields {w : CommandWord} {m : Mnemonic} (h : opcOf w = m.opcode) :
    wordOf m (regAt w 20) (regAt w 16) (regAt w 12) (regAt w 8) (regAt w 4) (regAt w 0) = w := by
  rw [wordOf, ← h, opcOf]
  simp only [regBits_regAt, BitVec.extractLsb'_append_extractLsb'_eq_extractLsb']
  exact BitVec.extractLsb'_eq_self

/-- Settles O3: the encoder keeps the fields the row uses, and the row compares the others with
zero. -/
theorem decodedWordIsTheWordOfItsCommand : Obligations.DecodedWordIsTheWordOfItsCommand := by
  intro c i h
  obtain ⟨m, hopc, hmask, rfl⟩ := decode_eq_ok h
  rw [word_encode_build]
  simp only [field_of_match hmask, List.mem_cons, true_or, or_true]
  exact wordOf_fields hopc

/-! ### Ignored scalars -/

/-- A row whose command has no scalar operand reads neither scalar (R64). -/
theorem build_of_no_scalars {m : Mnemonic} {w : CommandWord} {a b : Scalar}
    (h : (m.build ⟨w, a, b⟩).operands.2 = []) (a' b' : Scalar) :
    m.build ⟨w, a', b'⟩ = m.build ⟨w, a, b⟩ := by
  cases m with
  | rdsr | setp | wrl | rdl | addp | subp | getbit | setbit | clrbit | asgbit | getbits | asgbits =>
    cases h
  | _ => rfl

/-- A row whose command has at most one scalar operand does not read `B64` (R64). -/
theorem build_of_one_scalar {m : Mnemonic} {w : CommandWord} {a b : Scalar}
    (h : (m.build ⟨w, a, b⟩).operands.2.length ≤ 1) (b' : Scalar) :
    m.build ⟨w, a, b'⟩ = m.build ⟨w, a, b⟩ := by
  cases m with
  | wrl | asgbit | getbits | asgbits => exact absurd h (show ¬ 2 ≤ 1 by decide)
  | _ => rfl

/-- Settles O4: the row is selected by the word alone, and it reads only the scalars its command has
as operands. -/
theorem ignoredScalarsChangeNothing : Obligations.IgnoredScalarsChangeNothing := by
  intro w a b i h
  obtain ⟨m, hopc, hmask, rfl⟩ := decode_eq_ok h
  have hdec (a' b' : Scalar) : decode ⟨w, a', b'⟩ = .ok (m.build ⟨w, a', b'⟩) :=
    decode_of_match hopc hmask
  constructor
  · intro hnone a' b'
    rw [hdec, build_of_no_scalars hnone]
  · intro hone b'
    rw [hdec, build_of_one_scalar hone]

/-! ### Words written out -/

/-- Settles O5: the decoder evaluated on ten fixed words. -/
theorem writtenWordsDecode : Obligations.WrittenWordsDecode := by
  unfold Obligations.WrittenWordsDecode
  decide

end Sys2Proof
end

section
/-!
PROOFS. The statements of 40_transfer.md: SETP, MOV, NORM and WRL (spec/40_transfer.md R81 to R89),
and the check of canonical form that every register read makes (R90), with what it means for a block
that has not halted (spec/60_exceptions.md R219, R220).
-/

namespace Sys2Proof

theorem Config.two_le_maxLimbs_of_valid {c : Config} (h : c.valid = true) : 2 ≤ c.maxLimbs := by
  simp only [Config.valid, Bool.and_eq_true, decide_eq_true_eq] at h
  obtain ⟨⟨hmin, _⟩, _⟩ := h
  exact hmin

theorem LimbWidth.le_bits (w : LimbWidth) : 32 ≤ w.bits := by cases w <;> decide

/-- With legal parameters a register holds every primitive: it has at least two limbs of at least
32 bits (R5, R6). -/
theorem Config.fits_scalar {c : Config} (h : c.valid = true) (a : Scalar) :
    c.fits a.toNat = true := by
  have hcap : 32 * 2 ≤ c.capBits :=
    Nat.mul_le_mul c.width.le_bits (Config.two_le_maxLimbs_of_valid h)
  exact (c.fits_iff _).2 (a.isLt.trans_le (Nat.pow_le_pow_right (by decide) hcap))

/-! The three commands that can be illegal although their word matches a row (R70, R71). -/

theorem Instr.wellFormed_rdsr_iff (a : Scalar) :
    (Instr.rdsr a).wellFormed = true ↔ a.toNat < 2 := by
  simp [Instr.wellFormed, Instr.destinationsDistinct, Instr.systemRegisterExists]

theorem Instr.wellFormed_divrem_iff (rd rd2 rs1 rs2 : Reg) :
    (Instr.divrem rd rd2 rs1 rs2).wellFormed = true ↔ ¬rd = rd2 := by
  simp [Instr.wellFormed, Instr.destinationsDistinct, Instr.systemRegisterExists]

theorem Instr.wellFormed_xgcd_iff (rd rd2 rd3 rs1 rs2 : Reg) :
    (Instr.xgcd rd rd2 rd3 rs1 rs2).wellFormed = true ↔ ¬(rd = rd2 ∨ rd = rd3 ∨ rd2 = rd3) := by
  simp [Instr.wellFormed, Instr.destinationsDistinct, Instr.systemRegisterExists]

end Sys2Proof

namespace Sys2Proof.Machine

/-! ### SETP, MOV and NORM -/

/-- With legal parameters SETP completes with its primitive (R81). -/
theorem completes_setp {s : State} (hh : s.status.halt = false) (hv : s.cfg.valid = true) (rd : Reg)
    (a : Scalar) : Completes s (exec (.setp rd a) s) [(rd, a.toNat)] 0 := by
  rw [exec_setp hh]
  exact completes_one (Config.fits_scalar hv a) 0

/-- Settles O29: with legal parameters every primitive fits a register. -/
theorem setpCreatesThePrimitive : Obligations.SetpCreatesThePrimitive :=
  fun _ rd a hh hv => completes_setp hh hv rd a

/-- NOP of a block that has not halted writes nothing (R200). -/
theorem exec_nop {s : State} (hh : s.status.halt = false) : exec .nop s = finish s [] 0 :=
  unlessHalted_of_not hh _

/-- MOV of a readable register writes its value (R82). -/
theorem exec_mov {s : State} {rs1 : Reg} (hh : s.status.halt = false)
    (hr : s.cfg.canonical (s.limbs rs1) = true) (rd : Reg) :
    exec (.mov rd rs1) s = finish s [(rd, s.x rs1)] 0 := by
  change execMov rd rs1 s = _
  rw [execMov, unlessHalted_of_not hh, withReg_eq hr]

/-- NORM of a readable register writes its own value (R86). -/
theorem exec_norm {s : State} {rd : Reg} (hh : s.status.halt = false)
    (hr : s.cfg.canonical (s.limbs rd) = true) :
    exec (.norm rd) s = finish s [(rd, s.x rd)] 0 := by
  change execNorm rd s = _
  rw [execNorm, unlessHalted_of_not hh, withReg_eq hr]

/-- Writing a readable register's own value changes nothing: its limbs are already the canonical
ones (R22, R87). -/
theorem State.writeNat_x {s : State} {i : Reg} (h : s.cfg.canonical (s.limbs i) = true) :
    s.writeNat i (s.x i) = s := by
  have hregs : s.regs.set i.val (s.limbs i) = s.regs := Vector.set_getElem_self _
  rw [State.writeNat, ← State.limbs_eq h, hregs]

/-- On a readable register NORM does what NOP does (R87). -/
theorem exec_norm_eq_exec_nop {s : State} {rd : Reg} (hh : s.status.halt = false)
    (hr : s.cfg.canonical (s.limbs rd) = true) : exec (.norm rd) s = exec .nop s := by
  rw [exec_norm hh hr, exec_nop hh, finish_of_fits (by simpa using State.fits_x hr),
    finish_of_fits (by simp), State.writeAll, State.writeAll, State.writeNat_x hr, State.writeAll]

/-- Settles O30: the value of a readable register fits every register, and NORM is NOP. -/
theorem movCopiesAndNormKeeps : Obligations.MovCopiesAndNormKeeps := by
  refine ⟨fun s rd rs1 hh hread => ?_, fun s rd hh hread => ?_⟩
  · have hr := readable_one hread
    rw [exec_mov hh hr]
    exact completes_one (State.fits_x hr) 0
  · rw [exec_norm_eq_exec_nop hh (readable_one hread), exec_nop hh]
    exact completes_none 0

/-- Settles O31: in a running state every register is readable. -/
theorem normIsNop : Obligations.NormIsNop :=
  fun _ rd h => exec_norm_eq_exec_nop h.notHalted (h.canonical rd)

/-! ### The primitive round trip -/

/-- Settles O36: after SETP the register is readable and holds the primitive, whose limbs RDL
answers. -/
theorem primitiveRoundTrip : Obligations.PrimitiveRoundTrip := by
  intro s nd n hh hv
  obtain ⟨t, ht, hp, hw, _, hst, hcfg, _, _⟩ := completes_setp hh hv nd n
  obtain ⟨hcan, hx⟩ := hw (nd, n.toNat) (by simp)
  have hht : t.status.halt = false := hst ▸ hh
  have hrdl (a : Scalar) (k : Nat) (ha : a.toNat = k) : Completes t (exec (.rdl nd a) t) []
      (BitVec.ofNat 64 (limbAt s.cfg.width.bits n.toNat k)) := by
    rw [exec_rdl hht hcan, hx, hcfg, ha]
    exact completes_none _
  refine ⟨t, ht, hp, fun h64 => ?_, fun h32 => ⟨?_, ?_⟩, ?_⟩
  · have hlow := hrdl 0 0 rfl
    rwa [h64, LimbWidth.bits, limbAt_zero, Nat.mod_eq_of_lt n.isLt, BitVec.ofNat_toNat,
      BitVec.setWidth_eq] at hlow
  · have hlow := hrdl 0 0 rfl
    rwa [h32, LimbWidth.bits, limbAt_zero] at hlow
  · have hlt : n.toNat / 2 ^ 32 < 2 ^ 32 := by omega
    have hhigh := hrdl 1 1 rfl
    rwa [h32, LimbWidth.bits, limbAt_eq, Nat.mul_one, Nat.mod_eq_of_lt hlt] at hhigh
  · rw [exec_len hht hcan, hx, hcfg]
    exact completes_none _

/-! ### The faults of WRL -/

/-- WRL of a limb of more than `W` bits, at any index (R83, R213). -/
theorem exec_wrl_of_base_le {s : State} {rd : Reg} {a b : Scalar} (hh : s.status.halt = false)
    (hr : s.cfg.canonical (s.limbs rd) = true) (hb : 2 ^ s.cfg.w ≤ b.toNat) :
    exec (.wrl rd a b) s = raise s .overflow := by
  change execWrl rd a b s = _
  rw [execWrl, unlessHalted_of_not hh, withReg_eq hr, Config.base, if_pos hb]

/-- WRL of a non-zero limb of at most `W` bits at an index the register does not have (R83,
R217). -/
theorem exec_wrl_of_maxLimbs_le {s : State} {rd : Reg} {a b : Scalar} (hh : s.status.halt = false)
    (hr : s.cfg.canonical (s.limbs rd) = true) (hb : b.toNat < 2 ^ s.cfg.w) (hne : b.toNat ≠ 0)
    (ha : s.cfg.maxLimbs ≤ a.toNat) : exec (.wrl rd a b) s = raise s .capacityExceeded := by
  change execWrl rd a b s = _
  rw [execWrl, unlessHalted_of_not hh, withReg_eq hr, Config.base, if_neg (by omega),
    if_pos ⟨hne, ha⟩]

/-- Settles O33: WRL tests the limb before the index, and a 64-bit limb holds every scalar. -/
theorem wrlFaultsInOrder : Obligations.WrlFaultsInOrder := by
  intro s rd a b hh hread
  have hr := readable_one hread
  refine ⟨fun hb => ?_, fun hb hne ha => ?_, fun h64 => ?_⟩
  · rw [exec_wrl_of_base_le hh hr hb]
    exact faults_raise _
  · rw [exec_wrl_of_maxLimbs_le hh hr hb hne ha]
    exact faults_raise _
  · rw [Config.w, h64]
    exact b.isLt

/-! ### The check of canonical form -/

theorem raise_ne_raise {s u : State} {c c' : Code} (h : c ≠ c') : raise s c ≠ raise u c' := by
  intro heq
  injection heq with hstate
  have hport := congrArg State.port hstate
  injection hport with hresp
  exact h (congrArg Response.code hresp)

/-- A command that gets as far as its writes completes or is CapacityExceeded, and no
InvariantViolation (R13, R217). -/
theorem finish_ne_raise (s u : State) (ws : List (Reg × Nat)) (d : Scalar) :
    finish s ws d ≠ raise u .invariantViolation := by
  rw [finish]
  split
  · intro heq
    injection heq with hstate
    cases congrArg State.port hstate
  · exact raise_ne_raise (by decide)

theorem ite_ne {p : Prop} [Decidable p] {k₁ k₂ r : StepResult} (h₁ : k₁ ≠ r) (h₂ : k₂ ≠ r) :
    (if p then k₁ else k₂) ≠ r := by
  split
  · exact h₁
  · exact h₂

/-- A test that raises a fault of the command's own, made before the command goes on. -/
theorem ite_raise_ne {p : Prop} [Decidable p] {s u : State} {c : Code} {k : StepResult}
    (hc : c ≠ .invariantViolation) (hk : k ≠ raise u .invariantViolation) :
    (if p then raise s c else k) ≠ raise u .invariantViolation :=
  ite_ne (raise_ne_raise hc) hk

/-- A result that comes of reading the registers `rs` in turn before anything else, and that is no
InvariantViolation once they are read (R90, R210 step 3). -/
inductive ReadsFirst (s : State) : List Reg → StepResult → Prop
  /-- nothing is left to read -/
  | done {r : StepResult} (h : r ≠ raise s .invariantViolation) : ReadsFirst s [] r
  /-- `Ni` is read next -/
  | read {i : Reg} {rs : List Reg} {k : Nat → StepResult} (h : ∀ v, ReadsFirst s rs (k v)) :
      ReadsFirst s (i :: rs) (withReg s i k)

theorem readsFirst_unlessHalted {s : State} {rs : List Reg} {k : StepResult}
    (hh : s.status.halt = false) (h : ReadsFirst s rs k) : ReadsFirst s rs (unlessHalted s k) := by
  rwa [unlessHalted_of_not hh]

/-- A legal command that is not in halt reads its sources in turn, before any fault of its own
(R210, R222). -/
theorem exec_readsFirst {i : Instr} {s : State} (hh : s.status.halt = false)
    (hw : i.wellFormed = true) : ReadsFirst s i.sources (exec i s) := by
  -- the command's own part: what it does once the halt is tested
  have own {rs : List Reg} {k : StepResult} := readsFirst_unlessHalted (rs := rs) (k := k) hh
  have writes (ws : List (Reg × Nat)) (d : Scalar) := finish_ne_raise s s ws d
  cases i with
  | nop => exact own (.done (writes [] 0))
  | rdsr a =>
    refine .done (ite_ne (writes [] _) (ite_ne (writes [] _) ?_))
    rw [unlessHalted_of_not hh]
    exact raise_ne_raise (by decide)
  | clrf => exact own (.done (finish_ne_raise _ s [] 0))
  | setp rd _ => exact own (.done (writes [(rd, _)] 0))
  | mov rd _ | norm rd | clrbit rd _ | addp rd _ _ =>
    exact own (.read fun v => .done (writes [(rd, _)] 0))
  | rdl _ _ | len _ | getbit _ _ | cnt1 _ | cnt0 _ | lz _ | tz _ | bitlen _ =>
    exact own (.read fun v => .done (writes [] _))
  | add rd _ _ | mul rd _ _ =>
    exact own (.read fun a => .read fun b => .done (writes [(rd, _)] 0))
  | cmp _ _ => exact own (.read fun a => .read fun b => .done (writes [] _))
  | wrl rd _ _ =>
    exact own (.read fun v => .done (ite_raise_ne (by decide)
      (ite_raise_ne (by decide) (writes [(rd, _)] 0))))
  | subp rd _ _ | setbit rd _ | getbits rd _ _ _ =>
    exact own (.read fun v => .done (ite_raise_ne (by decide) (writes [(rd, _)] 0)))
  | asgbit rd _ _ =>
    exact own (.read fun v => .done (ite_ne (ite_raise_ne (by decide) (writes [(rd, _)] 0))
      (writes [(rd, _)] 0)))
  | sub rd _ _ | div rd _ _ | rem rd _ _ =>
    exact own (.read fun a => .read fun b => .done (ite_raise_ne (by decide) (writes [(rd, _)] 0)))
  | asgbits rd _ _ _ =>
    exact own (.read fun v => .read fun u => .done (ite_raise_ne (by decide)
      (ite_raise_ne (by decide) (writes [(rd, _)] 0))))
  | divrem rd rd2 rs1 rs2 =>
    rw [Instr.wellFormed_divrem_iff] at hw
    change ReadsFirst s _ (execDivrem rd rd2 rs1 rs2 s)
    rw [execDivrem, if_neg hw]
    exact own (.read fun a => .read fun b => .done (ite_raise_ne (by decide)
      (writes [(rd, _), (rd2, _)] 0)))
  | xgcd rd rd2 rd3 rs1 rs2 =>
    rw [Instr.wellFormed_xgcd_iff] at hw
    change ReadsFirst s _ (execXgcd rd rd2 rd3 rs1 rs2 s)
    rw [execXgcd, if_neg hw]
    exact own (.read fun a => .read fun b => .done (writes [(rd, _), (rd2, _), (rd3, _)] _))
  | modpow rd _ _ _ =>
    exact own (.read fun b => .read fun e => .read fun m => .done (ite_raise_ne (by decide)
      (ite_ne (writes [(rd, _)] 0) (writes [(rd, _)] 0))))

/-- The first register read that is not canonical ends the command (R90, R220). -/
theorem ReadsFirst.eq_raise {s : State} {rs : List Reg} {r : StepResult} (h : ReadsFirst s rs r)
    {j : Reg} (hj : j ∈ rs) (hn : s.cfg.canonical (s.limbs j) = false) :
    r = raise s .invariantViolation := by
  induction h with
  | done _ => cases hj
  | @read i rs k _ ih =>
    by_cases hi : s.cfg.canonical (s.limbs i) = true
    · have hrest : j ∈ rs := by
        refine (List.mem_cons.1 hj).resolve_left ?_
        rintro rfl
        rw [hi] at hn
        cases hn
      rw [withReg_eq hi]
      exact ih _ hrest
    · exact withReg_of_not_canonical hi k

/-- With every register read canonical there is no InvariantViolation (R90). -/
theorem ReadsFirst.ne_raise {s : State} {rs : List Reg} {r : StepResult} (h : ReadsFirst s rs r)
    (hc : s.readable rs) : r ≠ raise s .invariantViolation := by
  induction h with
  | done h => exact h
  | read _ ih =>
    rw [State.readable, List.forall_mem_cons] at hc
    obtain ⟨hi, hrest⟩ := hc
    rw [withReg_eq hi]
    exact ih _ hrest

/-- Settles O17: a legal command reads its sources before any fault of its own, and
InvariantViolation sets HALT. -/
theorem nonCanonicalSourceHaltsTheBlock : Obligations.NonCanonicalSourceHaltsTheBlock := by
  intro i s j hh hw hj hn
  rw [(exec_readsFirst hh hw).eq_raise hj hn]
  refine ⟨faults_raise _, fun t ht => ?_⟩
  cases ht
  exact ⟨rfl, rfl, rfl⟩

/-! ### A running block -/

/-- An illegal command is IllegalCommand before any register is read (R210 step 2, R218). -/
theorem exec_of_not_wellFormed {i : Instr} {s : State} (hh : s.status.halt = false)
    (hw : ¬i.wellFormed = true) : exec i s = raise s .illegalCommand := by
  cases i with
  | rdsr a =>
    rw [Instr.wellFormed_rdsr_iff] at hw
    have h0 : a ≠ 0 := by rintro rfl; exact hw (by decide)
    have h1 : a ≠ 1 := by rintro rfl; exact hw (by decide)
    change execRdsr a s = _
    rw [execRdsr, if_neg h0, if_neg h1, unlessHalted_of_not hh]
  | divrem rd rd2 rs1 rs2 =>
    rw [Instr.wellFormed_divrem_iff, not_not] at hw
    change execDivrem rd rd2 rs1 rs2 s = _
    rw [execDivrem, unlessHalted_of_not hh, if_pos hw]
  | xgcd rd rd2 rd3 rs1 rs2 =>
    rw [Instr.wellFormed_xgcd_iff, not_not] at hw
    change execXgcd rd rd2 rd3 rs1 rs2 s = _
    rw [execXgcd, unlessHalted_of_not hh, if_pos hw]
  | _ => exact absurd rfl hw

/-- In a running block no command, legal or not, is an InvariantViolation (R90, R220). -/
theorem State.Running.runCommand_ne {s : State} (h : s.Running) (c : Command) :
    runCommand c s ≠ raise s .invariantViolation := by
  cases hd : decode c with
  | ok i =>
    rw [runCommand_of_ok hd]
    by_cases hw : i.wellFormed = true
    · exact (exec_readsFirst h.notHalted hw).ne_raise fun j _ => h.canonical j
    · rw [exec_of_not_wellFormed h.notHalted hw]
      exact raise_ne_raise (by decide)
  | error e =>
    rw [runCommand_of_error hd, unlessHalted_of_not h.notHalted]
    exact raise_ne_raise (by decide)

/-- Only InvariantViolation sets HALT (R220). -/
theorem Status.record_halt (t : Status) {c : Code} (h : c ≠ .invariantViolation) :
    (t.record c).halt = t.halt := by
  cases c with
  | invariantViolation => exact absurd rfl h
  | _ => rfl

section

variable {s base t : State} {dests : List Reg} (h : Answer s base dests t)
  (hs : s.status.halt = false) (hne : t ≠ s.takeFault .invariantViolation)
include h hs hne

/-- An answer from a state that is not in halt, and no InvariantViolation, leaves HALT clear. -/
theorem Answer.halt_eq_false (hb : base.status.halt = false) : t.status.halt = false := by
  cases h with
  | halted hh => rw [hs] at hh; cases hh
  | fault _ c _ =>
    have hc : c ≠ .invariantViolation := by rintro rfl; exact hne rfl
    rw [State.takeFault_status, Status.record_halt _ hc, hs]
  | done ws d _ _ => rwa [State.respond_status, State.writeAll_status]

/-- The code of such an answer is neither Halted nor InvariantViolation. -/
theorem Answer.code_ne {r : Response} (hr : t.port = .resp r) :
    r.code ≠ .halted ∧ r.code ≠ .invariantViolation := by
  cases h with
  | halted hh => rw [hs] at hh; cases hh
  | fault _ c hc =>
    cases hr
    obtain ⟨_, hhalted, _, _⟩ := hc
    exact ⟨hhalted, by rintro rfl; exact hne rfl⟩
  | done ws d _ _ => cases hr; exact ⟨nofun, nofun⟩

end

/-- The next state of a command of a running block is no InvariantViolation's. -/
theorem State.Running.next_ne {s t : State} (h : s.Running) {c : Command}
    (ht : runCommand c s = .next t) : t ≠ s.takeFault .invariantViolation := by
  rintro rfl
  exact h.runCommand_ne c ht

/-- Running a command keeps a block running (R87, R90). -/
theorem State.Running.runCommand {s t : State} (h : s.Running) {c : Command}
    (ht : runCommand c s = .next t) : t.Running := by
  obtain ⟨base, dests, _, _, _, _, hst, hans⟩ := runCommand_answered c s
  -- CLRF, the one command that writes STATUS, keeps HALT (R202)
  have hb : base.status.halt = false := by
    rcases hst with e | e
    · rw [e]; exact h.notHalted
    · rw [e]; exact h.notHalted
  exact ⟨h.toInv.runCommand ht, (hans.answer ht).halt_eq_false h.notHalted (h.next_ne ht) hb⟩

/-- Settles O20: the step keeps the invariant, reset clears HALT, and of the other transitions only
a command touches STATUS. -/
theorem runningBlockStaysRunning : Obligations.RunningBlockStaysRunning := by
  intro s t h ht
  have hinv := stepKeepsTheInvariant s t h.toInv ht
  rcases step_cases ht with ⟨rest, _, rfl⟩ | ⟨_, hcmd | haccept | hdeliver | hwait⟩
  · exact ⟨hinv, rfl⟩
  · obtain ⟨c, actions, _, hrun⟩ := hcmd
    have h' : State.Running { s with inputs := actions } :=
      ⟨h.toInv.of_same_block rfl rfl rfl h.response, h.notHalted⟩
    exact h'.runCommand hrun
  · obtain ⟨c, rest, _, rfl⟩ := haccept
    exact ⟨hinv, h.notHalted⟩
  · obtain ⟨r, rest, _, rfl⟩ := hdeliver
    exact ⟨hinv, h.notHalted⟩
  · obtain ⟨rest, rfl⟩ := hwait
    exact ⟨hinv, h.notHalted⟩

/-- Settles O21: a command of a running block is never an InvariantViolation, and Halted is the
answer of a halted block only. -/
theorem runningBlockNeverAnswersHalted : Obligations.RunningBlockNeverAnswersHalted := by
  intro c s t r h ht hr
  obtain ⟨base, dests, _, _, _, _, _, hans⟩ := runCommand_answered c s
  exact (hans.answer ht).code_ne h.notHalted (h.next_ne ht) hr

end Sys2Proof.Machine
end

section
/-!
PROOFS. The statements of 41_addsub.md: ADD, ADDP, SUB, SUBP and CMP on values (spec/41_addsub.md R101
to R108), the limb datapaths (R103, R107, R108), and the laws of ADD, MUL and SUB (R109;
spec/42_multiply.md R125).
-/

namespace Sys2Proof.Machine

/-! ### The operands of a command -/

section

variable {s : State} {i j : Reg} (hh : s.status.halt = false)
include hh

/-- A command with one source, not in halt, gets that source's value (R90). -/
theorem unlessHalted_withReg (hr : s.readable [i]) (k : Nat → StepResult) :
    unlessHalted s (withReg s i k) = k (s.x i) := by
  rw [unlessHalted_of_not hh, withReg_eq (readable_one hr)]

/-- A command with two sources, not in halt, gets the values of both (R90). -/
theorem unlessHalted_withReg_two (hr : s.readable [i, j]) (k : Nat → Nat → StepResult) :
    unlessHalted s (withReg s i fun a => withReg s j fun b => k a b) = k (s.x i) (s.x j) := by
  obtain ⟨hi, hj⟩ := readable_two hr
  rw [unlessHalted_of_not hh, withReg_eq hi, withReg_eq hj]

end

/-- The order of two register reads does not matter: they fail alike (R90). -/
theorem withReg_comm (s : State) (i j : Reg) (k : Nat → Nat → StepResult) :
    (withReg s i fun a => withReg s j fun b => k a b) =
      withReg s j fun b => withReg s i fun a => k a b := by
  by_cases hi : s.cfg.canonical (s.limbs i) = true
  · simp only [withReg_eq hi]
  · simp only [withReg_of_not_canonical hi]
    by_cases hj : s.cfg.canonical (s.limbs j) = true
    · rw [withReg_eq hj]
    · rw [withReg_of_not_canonical hj]

/-! ### ADD and ADDP -/

/-- A single write completes when the value is below the capacity and is CapacityExceeded when it is
not (R10, R217). -/
theorem finish_one_ends (s : State) (rd : Reg) (v : Nat) (d : Scalar) :
    (v < 2 ^ (s.cfg.w * s.cfg.maxLimbs) → Completes s (finish s [(rd, v)] d) [(rd, v)] d) ∧
    (2 ^ (s.cfg.w * s.cfg.maxLimbs) ≤ v →
      Faults s (finish s [(rd, v)] d) .capacityExceeded) := by
  have hfits : s.cfg.fits v = true ↔ v < 2 ^ (s.cfg.w * s.cfg.maxLimbs) := s.cfg.fits_iff v
  refine ⟨fun h => completes_one (hfits.2 h) d, fun h => ?_⟩
  exact faults_finish (List.mem_singleton.2 rfl) (mt hfits.1 (Nat.not_lt.2 h)) d

/-- Settles O38: both commands end in one write of the sum. -/
theorem addAndAddpWriteTheSum : Obligations.AddAndAddpWriteTheSum := by
  refine ⟨fun s rd rs1 rs2 hh hr => ?_, fun s rd rs1 a hh hr => ?_⟩
  · have hexec : exec (.add rd rs1 rs2) s = finish s [(rd, s.x rs1 + s.x rs2)] 0 :=
      unlessHalted_withReg_two hh hr _
    rw [hexec]
    exact finish_one_ends s rd _ 0
  · have hexec : exec (.addp rd rs1 a) s = finish s [(rd, s.x rs1 + a.toNat)] 0 :=
      unlessHalted_withReg hh hr _
    rw [hexec]
    exact finish_one_ends s rd _ 0

/-! ### SUB and SUBP -/

/-- The Underflow test and then the write of a difference, which fits because the minuend does
(R104, R211). -/
theorem difference_ends {s : State} {a : Nat} (ha : s.cfg.fits a = true) (rd : Reg) (b : Nat)
    {r : StepResult}
    (hr : r = if a < b then raise s .underflow else finish s [(rd, a - b)] 0) :
    (b ≤ a → ∃ d, a = b + d ∧ Completes s r [(rd, d)] 0) ∧
    (a < b → Faults s r .underflow) := by
  subst hr
  refine ⟨fun h => ⟨a - b, by omega, ?_⟩, fun h => ?_⟩
  · rw [if_neg (Nat.not_lt.2 h)]
    exact completes_one (Config.fits_mono (Nat.sub_le a b) ha) 0
  · rw [if_pos h]
    exact faults_raise _

/-- Settles O39: both commands are the Underflow test and the write of the difference. -/
theorem subAndSubpWriteTheDifference : Obligations.SubAndSubpWriteTheDifference := by
  refine ⟨fun s rd rs1 rs2 hh hr => ?_, fun s rd rs1 a hh hr => ?_⟩
  · exact difference_ends (State.fits_x (readable_two hr).1) rd _
      (unlessHalted_withReg_two hh hr _)
  · exact difference_ends (State.fits_x (readable_one hr)) rd _ (unlessHalted_withReg hh hr _)

/-! ### CMP and the comparator -/

/-- The three answers of CMP (R108). -/
theorem compareCode_answers (a b : Nat) :
    (a = b → compareCode a b = 0) ∧ (b < a → compareCode a b = 1) ∧
    (a < b → compareCode a b = 2) := by
  refine ⟨fun h => ?_, fun h => ?_, fun h => ?_⟩ <;> rw [compareCode]
  · rw [if_pos h]
  · rw [if_neg (by omega), if_pos h]
  · rw [if_neg (by omega), if_neg (by omega)]

/-- Settles O40: CMP writes nothing and answers `compareCode`. -/
theorem cmpOrdersTwoValues : Obligations.CmpOrdersTwoValues := by
  intro s rs1 rs2 hh hr
  have hexec : exec (.cmp rs1 rs2) s = finish s [] (compareCode (s.x rs1) (s.x rs2)) :=
    unlessHalted_withReg_two hh hr _
  obtain ⟨heq, hgt, hlt⟩ := compareCode_answers (s.x rs1) (s.x rs2)
  rw [hexec]
  exact ⟨fun h => heq h ▸ completes_none _, fun h => hgt h ▸ completes_none _,
    fun h => hlt h ▸ completes_none _⟩

/-- A value with fewer limbs is less (R88). -/
theorem lt_of_lenOf_lt {w : Nat} (hw : 0 < w) {a b : Nat} (h : lenOf w a < lenOf w b) : a < b :=
  Nat.lt_of_not_le fun hba => Nat.not_le.2 h (lenOf_mono hw hba)

/-- The comparator on canonical limbs is the comparison of the values: a difference in `LEN` decides
it, and otherwise the scan from the top does (R88, R108). -/
theorem compareLimbs_limbsOf {w : Nat} (hw : 0 < w) (a b : Nat) :
    compareLimbs (limbsOf w a) (limbsOf w b) = compareCode a b := by
  obtain ⟨_, hgt, hlt⟩ := compareCode_answers a b
  rw [compareLimbs, length_limbsOf, length_limbsOf]
  split
  · exact (hgt (lt_of_lenOf_lt hw ‹_›)).symm
  split
  · exact (hlt (lt_of_lenOf_lt hw ‹_›)).symm
  · have hlen : (limbsOf w a).reverse.length = (limbsOf w b).reverse.length := by
      simp only [List.length_reverse, length_limbsOf]
      omega
    rw [compareTopDown_spec (w := w) _ _ hlen
      (fun l hl => limbsOf_lt w a l (List.mem_reverse.1 hl))
      (fun l hl => limbsOf_lt w b l (List.mem_reverse.1 hl)), List.reverse_reverse,
      List.reverse_reverse, valueOf_limbsOf hw, valueOf_limbsOf hw]

/-- Settles O42: the comparator answers `compareCode` of the values. -/
theorem limbComparatorOrdersValues : Obligations.LimbComparatorOrdersValues := by
  intro w a b hw
  rw [compareLimbs_limbsOf hw]
  exact compareCode_answers a b

/-! ### The carry and borrow chains -/

/-- The carry chain on canonical limbs adds, and has no zero limb to strip: without a carry out it is
no longer than the sum needs, and a carry out is a top limb of 1 (R103). -/
theorem carryChain_limbsOf {w : Nat} (hw : 0 < w) (a b : Nat) :
    carryChain (2 ^ w) (limbsOf w a) (limbsOf w b) = limbsOf w (a + b) := by
  have hspec := carryLoop_spec (limbsOf_lt w a) (limbsOf_lt w b) hw
    (max (limbsOf w a).length (limbsOf w b).length) 0 0 (by omega) (by omega) (by omega)
  rw [← carryChain, List.drop_zero, List.drop_zero, valueOf_limbsOf hw, valueOf_limbsOf hw,
    Nat.add_zero, length_limbsOf, length_limbsOf] at hspec
  obtain ⟨hvalue, hlt, hlen⟩ := hspec
  rw [← hvalue]
  refine (limbsOf_of_top hw _ hlt ?_).symm
  rcases hlen with hlen | ⟨ys, hys, htop⟩
  · have ha := lenOf_mono hw (Nat.le_add_right a b)
    have hb := lenOf_mono hw (Nat.le_add_left b a)
    refine (Nat.eq_zero_or_pos _).imp List.eq_nil_of_length_eq_zero fun hpos => ?_
    rw [hvalue]
    exact (lt_lenOf_iff hw _ _).1 (by omega)
  · right
    rw [htop, valueOf_append]
    simp [valueOf]

section

variable {w : Nat} (hw : 0 < w) {a b : Nat}
include hw

/-- With no more limbs in the subtrahend than in the minuend, the borrow chain is its loop over all
limbs of the minuend (R107). -/
theorem borrowChain_limbsOf_of_le (h : lenOf w b ≤ lenOf w a) :
    (b ≤ a → borrowChain (2 ^ w) (limbsOf w a) (limbsOf w b) = some (limbsOf w (a - b))) ∧
    (a < b → borrowChain (2 ^ w) (limbsOf w a) (limbsOf w b) = none) := by
  rw [← length_limbsOf, ← length_limbsOf] at h
  have hspec := borrowLoop_spec (limbsOf_lt w a) (limbsOf_lt w b)
    (limbsOf w a).length 0 0 (by omega) (by omega) (by omega)
  rw [List.drop_zero, List.drop_zero, valueOf_limbsOf hw, valueOf_limbsOf hw, Nat.add_zero] at hspec
  obtain ⟨hsome, hnone⟩ := hspec
  rw [borrowChain, if_neg (Nat.not_lt.2 h)]
  refine ⟨fun hle => ?_, fun hlt => ?_⟩
  · obtain ⟨xs, hxs, hlimbs, hvalue⟩ := hsome hle
    rw [hxs, Option.map_some, ← limbsOf_valueOf_normalize hw xs hlimbs]
    congr 2
    omega
  · rw [hnone hlt, Option.map_none]

/-- The borrow chain on canonical limbs subtracts, or answers none exactly when the minuend is less; a
longer subtrahend is refused by its length alone (R107, R110). -/
theorem borrowChain_limbsOf :
    (b ≤ a → borrowChain (2 ^ w) (limbsOf w a) (limbsOf w b) = some (limbsOf w (a - b))) ∧
    (a < b → borrowChain (2 ^ w) (limbsOf w a) (limbsOf w b) = none) := by
  by_cases h : lenOf w b ≤ lenOf w a
  · exact borrowChain_limbsOf_of_le hw h
  · have hlt := lt_of_lenOf_lt hw (Nat.lt_of_not_le h)
    refine ⟨fun hle => absurd hlt (Nat.not_lt.2 hle), fun _ => ?_⟩
    rw [borrowChain, length_limbsOf, length_limbsOf, if_pos (Nat.lt_of_not_le h)]

end

/-- Settles O41: both chains are their loops, whose values and limbs `carryLoop_spec` and
`borrowLoop_spec` give. -/
theorem limbChainsAddAndSubtract : Obligations.LimbChainsAddAndSubtract :=
  fun _ a b hw => ⟨carryChain_limbsOf hw a b, borrowChain_limbsOf hw⟩

/-! ### The laws of ADD, MUL and SUB -/

/-- A fault is not an OK response. -/
theorem Faults.port_ne_ok {s t : State} {r : StepResult} {c : Code} (h : Faults s r c)
    (hc : c ≠ .ok) (ht : r = .next t) (d : Scalar) : t.port ≠ .resp ⟨.ok, d⟩ := by
  obtain ⟨u, hu, hp, _⟩ := h
  obtain rfl : t = u := by rw [ht] at hu; injection hu
  rw [hp]
  intro heq
  cases heq
  exact hc rfl

/-- A legal command that completed read canonical registers only (R90). -/
theorem readable_sources_of_ok {i : Instr} {s t : State} {d : Scalar} (hh : s.status.halt = false)
    (hw : i.wellFormed = true) (ht : exec i s = .next t) (hp : t.port = .resp ⟨.ok, d⟩) :
    s.readable i.sources := by
  intro j hj
  by_contra hc
  obtain ⟨hfault, _⟩ :=
    nonCanonicalSourceHaltsTheBlock i s j hh hw hj (Bool.eq_false_iff.2 hc)
  exact hfault.port_ne_ok (by decide) ht d hp

/-- An ADD that answered OK completed with the sum: it was no CapacityExceeded (R101). -/
theorem completes_add_of_ok {s t : State} {rd rs1 rs2 : Reg} {d : Scalar}
    (hh : s.status.halt = false) (hr : s.readable [rs1, rs2])
    (ht : exec (.add rd rs1 rs2) s = .next t) (hp : t.port = .resp ⟨.ok, d⟩) :
    Completes s (exec (.add rd rs1 rs2) s) [(rd, s.x rs1 + s.x rs2)] 0 := by
  obtain ⟨hadd, _⟩ := addAndAddpWriteTheSum
  obtain ⟨hcompletes, hfaults⟩ := hadd s rd rs1 rs2 hh hr
  refine hcompletes (Nat.lt_of_not_le fun hover => ?_)
  exact (hfaults hover).port_ne_ok (by decide) ht d hp

/-- SUB of the second operand from the sum an ADD left gives the first one back (R109). -/
theorem completes_sub_after_add {s t : State} {nd ns ni nt : Reg} {d : Scalar}
    (hh : s.status.halt = false) (hne : ns ≠ nt) (ht : exec (.add ns ni nt) s = .next t)
    (hp : t.port = .resp ⟨.ok, d⟩) : Completes t (exec (.sub nd ns nt) t) [(nd, s.x ni)] 0 := by
  have hr : s.readable [ni, nt] := readable_sources_of_ok hh rfl ht hp
  obtain ⟨u, hu, _, hw, hl, hst, hcfg, _, _⟩ := completes_add_of_ok hh hr ht hp
  obtain rfl : t = u := by rw [ht] at hu; injection hu
  obtain ⟨hcan, hsum⟩ : t.cfg.canonical (t.limbs ns) = true ∧ t.x ns = s.x ni + s.x nt :=
    hw (ns, _) (List.mem_singleton.2 rfl)
  have hnt : t.limbs nt = s.limbs nt := hl nt (by simpa using hne.symm)
  have hxnt : t.x nt = s.x nt := by rw [State.x, State.x, hnt, hcfg]
  have hcan' : t.cfg.canonical (t.limbs nt) = true := by
    rw [hnt, hcfg]
    exact (readable_two hr).2
  have hread : t.readable [ns, nt] := by
    rw [State.readable, List.forall_mem_cons, List.forall_mem_singleton]
    exact ⟨hcan, hcan'⟩
  obtain ⟨hsub, _⟩ := subAndSubpWriteTheDifference
  obtain ⟨e, he, hdone⟩ := (hsub t nd ns nt (hst ▸ hh) hread).1 (by omega)
  obtain rfl : e = s.x ni := by omega
  exact hdone

/-- Settles O43: both commands read their two operands in either order, and sum and product are
commutative. -/
theorem addAndMulCommute : Obligations.AddAndMulCommute := by
  refine ⟨fun s nd ni nj => ?_, fun s nd ni nj => ?_, fun s t nd ns ni nt d hh hne ht hp => ?_⟩
  · change execAdd nd ni nj s = execAdd nd nj ni s
    rw [execAdd, execAdd, withReg_comm]
    simp only [Nat.add_comm]
  · change execMul nd ni nj s = execMul nd nj ni s
    rw [execMul, execMul, withReg_comm]
    simp only [Nat.mul_comm]
  · exact completes_sub_after_add hh hne ht hp

end Sys2Proof.Machine
end

section
/-!
PROOFS. The statement of 42_multiply.md on the command: MUL on values (spec/42_multiply.md R120, R121,
R126).
-/

namespace Sys2Proof.Machine

/-- MUL of two readable registers, not in halt, is the one write of the product (R120). -/
theorem exec_mul {s : State} {rs1 rs2 : Reg} (hh : s.status.halt = false)
    (hr : s.readable [rs1, rs2]) (rd : Reg) :
    exec (.mul rd rs1 rs2) s = finish s [(rd, s.x rs1 * s.x rs2)] 0 :=
  unlessHalted_withReg_two hh hr _

/-- Settles O44: the one write of the product completes below the capacity and is CapacityExceeded
from it up. -/
theorem mulWritesTheProduct : Obligations.MulWritesTheProduct := by
  intro s rd rs1 rs2 hh hr
  rw [exec_mul hh hr]
  exact finish_one_ends s rd (s.x rs1 * s.x rs2) 0

end Sys2Proof.Machine
end

section
/-!
PROOFS. The statements of 43_divide.md: DIVREM, DIV and REM on values (spec/43_divide.md R130 to R133),
the division identity on the block (R139), the long-division engine (R135, R137, R138) and its
quotient-digit estimator (R136).
-/

namespace Sys2Proof.Machine

/-! ### DIVREM, DIV and REM -/

section

variable {s : State} {rs1 rs2 : Reg} (hh : s.status.halt = false) (hr : s.readable [rs1, rs2])
  (hb : s.x rs2 ≠ 0)
include hh hr hb

/-- DIVREM of two destinations by a non-zero divisor passes its tests and writes both results (R131). -/
theorem exec_divrem {rd rd2 : Reg} (hne : rd ≠ rd2) : exec (.divrem rd rd2 rs1 rs2) s =
    finish s [(rd, s.x rs1 / s.x rs2), (rd2, s.x rs1 % s.x rs2)] 0 := by
  change execDivrem rd rd2 rs1 rs2 s = _
  rw [execDivrem, if_neg hne, unlessHalted_withReg_two hh hr, if_neg hb]

/-- DIV by a non-zero divisor writes the quotient (R132). -/
theorem exec_div (rd : Reg) :
    exec (.div rd rs1 rs2) s = finish s [(rd, s.x rs1 / s.x rs2)] 0 := by
  change execDiv rd rs1 rs2 s = _
  rw [execDiv, unlessHalted_withReg_two hh hr, if_neg hb]

/-- REM by a non-zero divisor writes the remainder (R133). -/
theorem exec_rem (rd : Reg) :
    exec (.rem rd rs1 rs2) s = finish s [(rd, s.x rs1 % s.x rs2)] 0 := by
  change execRem rd rs1 rs2 s = _
  rw [execRem, unlessHalted_withReg_two hh hr, if_neg hb]

/-- Quotient and remainder are no greater than the dividend, so they fit and the three commands
complete (R130 to R133). -/
theorem completes_division :
    (∀ rd rd2, rd ≠ rd2 → Completes s (exec (.divrem rd rd2 rs1 rs2) s)
      [(rd, s.x rs1 / s.x rs2), (rd2, s.x rs1 % s.x rs2)] 0) ∧
    (∀ rd, Completes s (exec (.div rd rs1 rs2) s) [(rd, s.x rs1 / s.x rs2)] 0) ∧
    (∀ rd, Completes s (exec (.rem rd rs1 rs2) s) [(rd, s.x rs1 % s.x rs2)] 0) := by
  have ha : s.cfg.fits (s.x rs1) = true := State.fits_x (readable_two hr).1
  have hq : s.cfg.fits (s.x rs1 / s.x rs2) = true := Config.fits_mono (Nat.div_le_self _ _) ha
  have hm : s.cfg.fits (s.x rs1 % s.x rs2) = true := Config.fits_mono (Nat.mod_le _ _) ha
  refine ⟨fun rd rd2 hne => ?_, fun rd => ?_, fun rd => ?_⟩
  · rw [exec_divrem hh hr hb hne]
    exact completes_finish (by simpa using hne) (by simp [hq, hm]) 0
  · rw [exec_div hh hr hb]
    exact completes_one hq 0
  · rw [exec_rem hh hr hb]
    exact completes_one hm 0

end

/-- Settles O46: the quotient and the remainder are those of the natural numbers. -/
theorem divisionWritesQuotientAndRemainder : Obligations.DivisionWritesQuotientAndRemainder :=
  fun s rs1 rs2 hh hr hb => ⟨s.x rs1 / s.x rs2, s.x rs1 % s.x rs2, (Nat.div_add_mod' _ _).symm,
    Nat.mod_lt _ (Nat.pos_of_ne_zero hb), completes_division hh hr hb⟩

/-! ### The division identity on the block -/

/-- Register `i` is canonical and holds the value `v`: what a sequence of commands tracks (R22). -/
def State.Holds (s : State) (i : Reg) (v : Nat) : Prop :=
  s.cfg.canonical (s.limbs i) = true ∧ s.x i = v

theorem State.Holds.readable {s : State} {i j : Reg} {a b : Nat} (hi : s.Holds i a)
    (hj : s.Holds j b) : s.readable [i, j] := by
  rw [State.readable, List.forall_mem_cons, List.forall_mem_singleton]
  exact ⟨hi.1, hj.1⟩

/-- What the next command finds after a completion: the written registers hold their values, the others
what they held, and the block has not halted (R13, R51). -/
theorem Completes.next {s : State} {r : StepResult} {ws : List (Reg × Nat)} {d : Scalar}
    (h : Completes s r ws d) (hh : s.status.halt = false) :
    ∃ t, r = .next t ∧ t.port = .resp ⟨.ok, d⟩ ∧ t.status.halt = false ∧ t.cfg = s.cfg ∧
      (∀ p ∈ ws, t.Holds p.1 p.2) ∧
      ∀ j v, j ∉ ws.map Prod.fst → s.Holds j v → t.Holds j v := by
  obtain ⟨t, ht, hp, hw, hl, hst, hcfg, _, _⟩ := h
  refine ⟨t, ht, hp, hst ▸ hh, hcfg, hw, fun j v hj hv => ?_⟩
  rwa [State.Holds, State.x, hl j hj, hcfg]

/-- MUL and then ADD, of registers that hold `q`, `b` and `r`, leave `q * b + r` when it is below the
capacity, and keep every register but their destination (R101, R120). -/
theorem mul_then_add {t : State} {nt nq nb nr : Reg} {q b r : Nat} (hh : t.status.halt = false)
    (hq : t.Holds nq q) (hb : t.Holds nb b) (hr : t.Holds nr r) (hne : nr ≠ nt)
    (hcap : q * b + r < 2 ^ (t.cfg.w * t.cfg.maxLimbs)) :
    ∃ u v, exec (.mul nt nq nb) t = .next u ∧ u.port = .resp ⟨.ok, 0⟩ ∧
      exec (.add nt nt nr) u = .next v ∧ v.port = .resp ⟨.ok, 0⟩ ∧ v.status.halt = false ∧
      v.Holds nt (q * b + r) ∧ ∀ j x, j ≠ nt → t.Holds j x → v.Holds j x := by
  have hmul := (mulWritesTheProduct t nt nq nb hh (hq.readable hb)).1
  rw [hq.2, hb.2] at hmul
  obtain ⟨u, hu, hpu, hhu, hcfg, hwu, hku⟩ := (hmul (by omega)).next hh
  have htu : u.Holds nt (q * b) := hwu _ List.mem_cons_self
  have hru : u.Holds nr r := hku nr r (by simpa using hne) hr
  obtain ⟨hadds, _⟩ := addAndAddpWriteTheSum
  have hadd := (hadds u nt nt nr hhu (htu.readable hru)).1
  rw [htu.2, hru.2, hcfg] at hadd
  obtain ⟨v, hv, hpv, hhv, -, hwv, hkv⟩ := (hadd hcap).next hhu
  refine ⟨u, v, hu, hpu, hv, hpv, hhv, hwv _ List.mem_cons_self, fun j x hj hx => ?_⟩
  have hj' : j ∉ [(nt, q * b)].map Prod.fst := by simpa using hj
  exact hkv j x hj' (hku j x hj' hx)

/-- Settles O48: MUL and ADD rebuild the dividend, which fits a register, from quotient and remainder,
and the remainder is below the divisor. -/
theorem divisionIdentity : Obligations.DivisionIdentity := by
  intro s nq nr na nb nt hh hr hb hqr hqa hqb hra hrb hta htb htr
  obtain ⟨hdivrem, hdiv, hrem⟩ := completes_division hh hr hb
  obtain ⟨hca, hcb⟩ := readable_two hr
  have hsum : s.x na / s.x nb * s.x nb + s.x na % s.x nb = s.x na := Nat.div_add_mod' _ _
  have hcap : s.x na < 2 ^ (s.cfg.w * s.cfg.maxLimbs) := State.x_lt hca
  obtain ⟨t, ht, -, hht, hcfg, hwt, hkt⟩ := (hdivrem nq nr hqr).next hh
  have hqt : t.Holds nq (s.x na / s.x nb) := hwt _ List.mem_cons_self
  have hrt : t.Holds nr (s.x na % s.x nb) := hwt _ (List.mem_cons_of_mem _ List.mem_cons_self)
  have hat : t.Holds na (s.x na) := hkt na _ (by simp [hqa.symm, hra.symm]) ⟨hca, rfl⟩
  have hbt : t.Holds nb (s.x nb) := hkt nb _ (by simp [hqb.symm, hrb.symm]) ⟨hcb, rfl⟩
  obtain ⟨u, v, hu, hpu, hv, hpv, hhv, htv, hkv⟩ :=
    mul_then_add hht hqt hbt hrt htr.symm (by rwa [hsum, hcfg])
  rw [hsum] at htv
  have hrv := hkv nr _ htr.symm hrt
  have hav := hkv na _ hta.symm hat
  have hbv := hkv nb _ htb.symm hbt
  refine ⟨t, u, v, ht, hu, hpu, hv, hpv, ?_, ?_, ?_, ?_⟩
  · exact (cmpOrdersTwoValues v nt na hhv (htv.readable hav)).1 (htv.2.trans hav.2.symm)
  · refine (cmpOrdersTwoValues v nr nb hhv (hrv.readable hbv)).2.2 ?_
    rw [hrv.2, hbv.2]
    exact Nat.mod_lt _ (Nat.pos_of_ne_zero hb)
  · rw [hqt.2]
    exact hdiv nq
  · rw [hrt.2]
    exact hrem nr

/-! ### The long-division engine -/

/-- The passes from index `j - 1` down divide: each leaves a dividend whose quotient fits the passes
that are left, so only without a pass must the dividend be below the divisor already (R135). -/
theorem enginePasses_eq (w n : Nat) {v : Nat} (hv : 0 < v) : ∀ j u, (j = 0 → u < v) →
    enginePasses w n v j u = (u / v, u % v) := by
  intro j
  induction j with
  | zero =>
    intro u h
    rw [enginePasses, Nat.div_eq_of_lt (h rfl), Nat.mod_eq_of_lt (h rfl)]
  | succ j ih =>
    intro u _
    obtain ⟨hdiv, hmod⟩ := enginePass_spec (P := 2 ^ (w * j)) hv u
    have hlast : j = 0 → u / 2 ^ (w * j) % v * 2 ^ (w * j) + u % 2 ^ (w * j) < v := by
      rintro rfl
      simpa [Nat.mod_one] using Nat.mod_lt u hv
    rw [enginePasses, correctDigit_spec hv]
    simp only [shr_eq, shl_eq, mask_eq]
    rw [ih _ hlast, ← hdiv, ← hmod]

/-- The steps of the single-limb pass, from the most significant limb down, divide the value of the
limbs (R138). -/
theorem foldl_shortDivStep_reverse (w : Nat) {d : Nat} (hd : 0 < d) (ls : StoredLimbs)
    (h : ∀ l ∈ ls, l < 2 ^ w) :
    ls.reverse.foldl (shortDivStep (2 ^ w) d) (0, 0) = (valueOf w ls / d, valueOf w ls % d) := by
  induction ls with
  | nil => simp [valueOf]
  | cons l ls ih =>
    obtain ⟨hl, hls⟩ := List.forall_mem_cons.1 h
    obtain ⟨hdiv, hmod⟩ := enginePass_spec (P := 2 ^ w) hd (valueOf w (l :: ls))
    rw [hdiv, hmod, valueOf, Nat.add_mul_div_left _ _ (Nat.two_pow_pos w), Nat.div_eq_of_lt hl,
      Nat.zero_add, Nat.add_mul_mod_self_left, Nat.mod_eq_of_lt hl, List.reverse_cons,
      List.foldl_append, ih hls]
    rfl

/-- The single-limb pass divides (R138). -/
theorem divremByLimb_eq {w : Nat} (hw : 0 < w) (a : Nat) {d : Nat} (hd : 0 < d) :
    divremByLimb w a d = (a / d, a % d) := by
  rw [divremByLimb, foldl_shortDivStep_reverse w hd _ (limbsOf_lt w a), valueOf_limbsOf hw]

/-- A value of one limb is that limb. -/
theorem limbAt_zero_of_lenOf {w : Nat} (hw : 0 < w) {b : Nat} (h : lenOf w b = 1) :
    limbAt w b 0 = b := by
  have hlt : b < 2 ^ (w * 1) := (lenOf_le_iff hw b 1).1 h.le
  rw [limbAt_zero, Nat.mod_eq_of_lt (by rwa [Nat.mul_one] at hlt)]

/-- Settles O49: a dividend below the divisor is the remainder; the single-limb pass divides; and the
passes divide the shifted operands, which have the same quotient and the shifted remainder. -/
theorem longDivisionEngineDivides : Obligations.LongDivisionEngineDivides := by
  intro w a b hw hb
  have hpos : 0 < b := Nat.pos_of_ne_zero hb
  rw [divremEngine]
  split
  · rename_i hlt
    rw [Nat.div_eq_of_lt hlt, Nat.mod_eq_of_lt hlt]
  split
  · rename_i _ hone
    rw [limbAt_zero_of_lenOf hw hone, divremByLimb_eq hw a hpos]
  · simp only [shl_eq, shr_eq]
    generalize clzLimb w (limbAt w b (lenOf w b - 1)) = c
    have hc : 0 < 2 ^ c := Nat.two_pow_pos c
    rw [enginePasses_eq w _ (Nat.mul_pos hpos hc) _ _ (fun h => absurd h (Nat.succ_ne_zero _)),
      Nat.mul_div_mul_right _ _ hc, Nat.mul_mod_mul_right, Nat.mul_div_cancel _ hc]

/-! ### The quotient-digit estimator -/

/-- A value cut below limb `k` is its limb `k` below what is cut below limb `k + 1` (R10). -/
theorem div_two_pow_eq_limbAt_add (w v k : Nat) :
    v / 2 ^ (w * k) = v / 2 ^ (w * (k + 1)) * 2 ^ w + limbAt w v k := by
  rw [limbAt_eq, Nat.mul_succ, Nat.pow_add, ← Nat.div_div_eq_div_mul, Nat.div_add_mod']

/-- The top limb of a value is all that is cut off below it (R10). -/
theorem limbAt_of_lt {w v k : Nat} (h : v < 2 ^ (w * (k + 1))) : limbAt w v k = v / 2 ^ (w * k) := by
  rw [div_two_pow_eq_limbAt_add, Nat.div_eq_of_lt h, Nat.zero_mul, Nat.zero_add]

/-- The largest digit that dividend and divisor allow when both are cut at weight `P` is the true digit
or one more, for a divisor of at least `B * P`: what is cut off the divisor is below `P`, so the digit
times it is below the divisor (R136). -/
theorem largest_cut_digit_bounds {B P v x e : Nat} (hP : 0 < P) (hv : B * P ≤ v) (hx : x < v * B)
    (hlt : e < B) (hle : e * (v / P) ≤ x / P)
    (hmax : ∀ y, y < B → y * (v / P) ≤ x / P → y ≤ e) : x / v ≤ e ∧ e ≤ x / v + 1 := by
  have hv0 : 0 < v := (Nat.mul_pos (by omega) hP).trans_le hv
  constructor
  · refine hmax _ (Nat.div_lt_of_lt_mul hx) ((Nat.le_div_iff_mul_le hP).2 ?_)
    calc x / v * (v / P) * P = x / v * (v / P * P) := Nat.mul_assoc _ _ _
      _ ≤ x / v * v := Nat.mul_le_mul_left _ (Nat.div_mul_le_self v P)
      _ ≤ x := Nat.div_mul_le_self x v
  · have hcut : e * v < x + v := calc
      e * v = e * (v / P) * P + e * (v % P) := by
          rw [Nat.mul_assoc, ← Nat.mul_add, Nat.div_add_mod']
      _ ≤ x + e * (v % P) := Nat.add_le_add_right
          ((Nat.mul_le_mul_right P hle).trans (Nat.div_mul_le_self x P)) _
      _ ≤ x + e * P := by gcongr; exact (Nat.mod_lt v hP).le
      _ < x + B * P := by gcongr
      _ ≤ x + v := Nat.add_le_add_left hv x
    rw [← Nat.add_div_right x hv0]
    exact (Nat.le_div_iff_mul_le hv0).2 hcut.le

/-- The two limbs at the top of a value are the value cut below them (R136). -/
theorem top_two_limbs {w k v : Nat} (hv : v < 2 ^ (w * (k + 2))) :
    limbAt w v (k + 1) * 2 ^ w + limbAt w v k = v / 2 ^ (w * k) := by
  rw [div_two_pow_eq_limbAt_add w v k, limbAt_of_lt hv]

theorem div_two_pow_add (w u j k : Nat) :
    u / 2 ^ (w * (j + k)) = u / 2 ^ (w * j) / 2 ^ (w * k) := by
  rw [Nat.mul_add, Nat.pow_add, Nat.div_div_eq_div_mul]

/-- The top limb of a normalised divisor is at least half the base (R135). -/
theorem two_pow_le_two_mul_top_limb {w k v : Nat} (hw : 0 < w) (hv : v < 2 ^ (w * (k + 1)))
    (hnorm : 2 ^ (w * (k + 1)) ≤ 2 * v) : 2 ^ w ≤ 2 * limbAt w v k := by
  obtain ⟨m, rfl⟩ := Nat.exists_eq_succ_of_ne_zero hw.ne'
  rw [limbAt_of_lt hv, Nat.pow_succ']
  refine Nat.mul_le_mul_left 2 ((Nat.le_div_iff_mul_le (Nat.two_pow_pos _)).2 ?_)
  rw [Nat.mul_succ, Nat.add_comm, Nat.pow_add, Nat.pow_succ', Nat.mul_assoc] at hnorm
  exact Nat.le_of_mul_le_mul_left hnorm two_pos

section

variable {w k u v j : Nat} (hv : v < 2 ^ (w * (k + 2))) (hu : u / 2 ^ (w * j) < v * 2 ^ w)
include hv hu

/-- A dividend below `v * B` at limb `j` has no limb above the three the estimator reads (R136). -/
theorem dividend_lt : u < 2 ^ (w * (j + k + 1 + 2)) := by
  have hlt : u / 2 ^ (w * j) < 2 ^ (w * (k + 2)) * 2 ^ w :=
    hu.trans (Nat.mul_lt_mul_of_pos_right hv (Nat.two_pow_pos w))
  calc u < 2 ^ (w * (k + 2)) * 2 ^ w * 2 ^ (w * j) :=
        (Nat.div_lt_iff_lt_mul (Nat.two_pow_pos _)).1 hlt
    _ = 2 ^ (w * (j + k + 1 + 2)) := by rw [← Nat.pow_add, ← Nat.pow_add]; ring_nf

/-- The two dividend limbs the estimator divides are less than the divisor's top limb, plus one, times
the base (R136). -/
theorem top_two_dividend_limbs_lt :
    limbAt w u (j + k + 1 + 1) * 2 ^ w + limbAt w u (j + k + 1) <
      (limbAt w v (k + 1) + 1) * 2 ^ w := by
  have hpos : 0 < 2 ^ (w * (k + 1)) := Nat.two_pow_pos _
  have htop : v < (v / 2 ^ (w * (k + 1)) + 1) * 2 ^ (w * (k + 1)) :=
    (Nat.div_lt_iff_lt_mul hpos).1 (Nat.lt_succ_self _)
  rw [top_two_limbs (dividend_lt hv hu), Nat.add_assoc, div_two_pow_add, limbAt_of_lt hv,
    Nat.div_lt_iff_lt_mul hpos, Nat.mul_right_comm]
  exact hu.trans (Nat.mul_lt_mul_of_pos_right htop (Nat.two_pow_pos w))

/-- The estimator (R136) on limbs: with a normalised divisor it gives the largest digit below the base
that dividend and divisor allow when both are cut `n - 2` limbs up. -/
theorem estimate_largest (hw : 0 < w) (hnorm : 2 ^ (w * (k + 2)) ≤ 2 * v) :
    let est := estimate w (k + 2) u v j
    est < 2 ^ w ∧ est * (v / 2 ^ (w * k)) ≤ u / 2 ^ (w * j) / 2 ^ (w * k) ∧
    ∀ y, y < 2 ^ w → y * (v / 2 ^ (w * k)) ≤ u / 2 ^ (w * j) / 2 ^ (w * k) → y ≤ est := by
  have hthree : (limbAt w u (j + k + 1 + 1) * 2 ^ w + limbAt w u (j + k + 1)) * 2 ^ w +
      limbAt w u (j + k) = u / 2 ^ (w * j) / 2 ^ (w * k) := by
    rw [top_two_limbs (dividend_lt hv hu), ← div_two_pow_eq_limbAt_add, div_two_pow_add]
  have hspec := refineEstimate_spec (Nat.le_self_pow hw.ne' 2)
    (two_pow_le_two_mul_top_limb hw hv hnorm) (limbAt_lt w v k) (limbAt_lt w u (j + k))
    (top_two_dividend_limbs_lt hv hu)
  rw [top_two_limbs hv, hthree] at hspec
  exact hspec

end

/-- Settles O50: the estimate is the largest digit for the operands cut `n - 2` limbs up. -/
theorem estimateIsExactOrOneHigh : Obligations.EstimateIsExactOrOneHigh := by
  intro w n u v j hw hn hv hnorm hu
  obtain ⟨k, rfl⟩ := Nat.exists_eq_add_of_le' hn
  obtain ⟨hlt, hle, hmax⟩ := estimate_largest hv hu hw hnorm
  have hlow : 2 ^ w * 2 ^ (w * k) ≤ v := by
    have hsplit : 2 ^ (w * (k + 2)) = 2 ^ w * (2 ^ w * 2 ^ (w * k)) := by
      rw [Nat.mul_add, Nat.pow_add]; ring
    have htwo : 2 ≤ 2 ^ w := Nat.le_self_pow hw.ne' 2
    rw [hsplit] at hnorm
    exact Nat.le_of_mul_le_mul_left ((Nat.mul_le_mul_right _ htwo).trans hnorm) two_pos
  exact largest_cut_digit_bounds (Nat.two_pow_pos _) hlow hu hlt hle hmax

end Sys2Proof.Machine
end

section
/-!
PROOFS. The statements of 44_bits.md: the single-bit commands (spec/44_bits.md R151 to R154), the
bit ranges (R155 to R159), the counts on the value (R160 to R164) and from its limbs (R165), and the
bit round trips (R166).
-/

namespace Sys2Proof.Machine

/-! ### The single-bit commands -/

section

variable {s : State} {r : Reg} (hh : s.status.halt = false) (hr : s.readable [r])
include hh hr

/-- A command that only answers a function of its one source completes with it (R13, R90). -/
theorem completes_answer (f : Nat → Scalar) :
    Completes s (unlessHalted s (withReg s r fun v => finish s [] (f v))) [] (f (s.x r)) := by
  rw [unlessHalted_withReg hh hr]
  exact completes_none _

/-- GETBIT answers the bit at every index (R151). -/
theorem completes_getbit (a : Scalar) :
    Completes s (exec (.getbit r a) s) [] (BitVec.ofNat 64 (bitAt (s.x r) a.toNat)) :=
  completes_answer hh hr fun v => BitVec.ofNat 64 (bitAt v a.toNat)

/-- SETBIT below the capacity writes the value with its bit set (R152). -/
theorem exec_setbit_of_lt {a : Scalar} (ha : a.toNat < s.cfg.capBits) :
    exec (.setbit r a) s = finish s [(r, setBit (s.x r) a.toNat)] 0 := by
  change execSetbit r a s = _
  rw [execSetbit, unlessHalted_withReg hh hr, finishSetBit, if_neg (Nat.not_le.2 ha)]

/-- SETBIT at or beyond the capacity raises CapacityExceeded (R152). -/
theorem exec_setbit_of_le {a : Scalar} (ha : s.cfg.capBits ≤ a.toNat) :
    exec (.setbit r a) s = raise s .capacityExceeded := by
  change execSetbit r a s = _
  rw [execSetbit, unlessHalted_withReg hh hr, finishSetBit, if_pos ha]

/-- CLRBIT writes the value with its bit cleared, at every index (R153). -/
theorem exec_clrbit (a : Scalar) :
    exec (.clrbit r a) s = finish s [(r, clearBit (s.x r) a.toNat)] 0 :=
  unlessHalted_withReg hh hr _

end

/-- ASGBIT is SETBIT or CLRBIT as bit 0 of `B64` says, in every state (R154). -/
theorem exec_asgbit (r : Reg) (a b : Scalar) (s : State) : exec (.asgbit r a b) s =
    if b.getLsbD 0 = true then exec (.setbit r a) s else exec (.clrbit r a) s := by
  have hbit : b.getLsbD 0 = true ↔ b.toNat % 2 = 1 := by
    rw [BitVec.getLsbD, Nat.testBit_zero, decide_eq_true_iff]
  change execAsgbit r a b s = if _ then execSetbit r a s else execClrbit r a s
  rw [execAsgbit]
  by_cases h : b.toNat % 2 = 1
  · simp only [if_pos h, if_pos (hbit.2 h), execSetbit]
  · simp only [if_neg h, if_neg (mt hbit.1 h), execClrbit]

/-- A bit set below the capacity leaves a value that fits (R156). -/
theorem fits_setBit {c : Config} {v i : Nat} (hv : c.fits v = true) (hi : i < c.capBits) :
    c.fits (setBit v i) = true := by
  rw [Config.fits_iff] at hv ⊢
  refine Nat.lt_pow_two_of_testBit _ fun j hj => ?_
  rw [testBit_setBit, if_neg (by omega)]
  exact Nat.testBit_lt_two_pow (hv.trans_le (Nat.pow_le_pow_right (by decide) hj))

theorem clearBit_le (v i : Nat) : clearBit v i ≤ v := by
  rw [clearBit]
  split
  · exact Nat.sub_le _ _
  · exact le_rfl

/-- Settles O51: ASGBIT is SETBIT or CLRBIT, a bit set below the capacity leaves a value that fits,
and a cleared bit one that is no greater. -/
theorem singleBitCommands : Obligations.SingleBitCommands := by
  intro s r a hh hr
  have hx := State.fits_x (readable_one hr)
  have hone (b : Scalar) (hb : b.getLsbD 0 = true) :
      exec (.asgbit r a b) s = exec (.setbit r a) s := by
    rw [exec_asgbit, if_pos hb]
  have hzero (b : Scalar) (hb : b.getLsbD 0 = false) :
      exec (.asgbit r a b) s = exec (.clrbit r a) s := by
    rw [exec_asgbit, if_neg (Bool.eq_false_iff.1 hb)]
  refine ⟨?_, fun ha => ?_, fun ha => ?_, ?_⟩
  · rw [← bitAt_eq]
    exact completes_getbit hh hr a
  · have hset : Completes s (exec (.setbit r a) s) [(r, setBit (s.x r) a.toNat)] 0 := by
      rw [exec_setbit_of_lt hh hr ha]
      exact completes_one (fits_setBit hx ha) 0
    exact ⟨_, testBit_setBit _ _, hset, fun b hb => hone b hb ▸ hset⟩
  · have hset : Faults s (exec (.setbit r a) s) .capacityExceeded := by
      rw [exec_setbit_of_le hh hr ha]
      exact faults_raise _
    exact ⟨hset, fun b hb => hone b hb ▸ hset⟩
  · have hclr : Completes s (exec (.clrbit r a) s) [(r, clearBit (s.x r) a.toNat)] 0 := by
      rw [exec_clrbit hh hr]
      exact completes_one (Config.fits_mono (clearBit_le _ _) hx) 0
    exact ⟨_, testBit_clearBit _ _, hclr, fun b hb => hzero b hb ▸ hclr⟩

/-! ### Bit ranges -/

/-- The bits extracted are no greater than their source (R158). -/
theorem getBits_le (v start stop : Nat) : getBits v start stop ≤ v := by
  rw [getBits, mask_eq, shr_eq]
  exact (Nat.mod_le _ _).trans (Nat.div_le_self _ _)

/-- A 1 among the bits to insert lands at or above `start` (R156, R159). -/
theorem two_pow_le_assignBits (v : Nat) {src start stop : Nat}
    (h : mask src (stop - start) ≠ 0) : 2 ^ start ≤ assignBits v src start stop := by
  have hmid : 2 ^ start ≤ shl (mask src (stop - start)) start := by
    rw [shl_eq]
    exact Nat.le_mul_of_pos_left _ (Nat.pos_of_ne_zero h)
  rw [assignBits]
  omega

section

variable {s : State} {rd rs1 : Reg} {a b : Scalar} (hh : s.status.halt = false)
include hh

/-- GETBITS of a range that is not malformed completes with the bits extracted (R158). -/
theorem completes_getbits (hr : s.readable [rs1]) (hab : a.toNat ≤ b.toNat) :
    Completes s (exec (.getbits rd rs1 a b) s) [(rd, getBits (s.x rs1) a.toNat b.toNat)] 0 := by
  change Completes s (execGetbits rd rs1 a b s) _ 0
  rw [execGetbits, unlessHalted_withReg hh hr, if_neg (Nat.not_lt.2 hab)]
  exact completes_one (Config.fits_mono (getBits_le _ _ _) (State.fits_x (readable_one hr))) 0

/-- GETBITS of a malformed range raises InvalidBitRange (R155). -/
theorem exec_getbits_of_lt (hr : s.readable [rs1]) (hab : b.toNat < a.toNat) :
    exec (.getbits rd rs1 a b) s = raise s .invalidBitRange := by
  change execGetbits rd rs1 a b s = _
  rw [execGetbits, unlessHalted_withReg hh hr, if_pos hab]

variable (hr : s.readable [rd, rs1])
include hr

/-- ASGBITS of a malformed range raises InvalidBitRange (R155). -/
theorem exec_asgbits_of_lt (hab : b.toNat < a.toNat) :
    exec (.asgbits rd rs1 a b) s = raise s .invalidBitRange := by
  change execAsgbits rd rs1 a b s = _
  rw [execAsgbits, unlessHalted_withReg_two hh hr, if_pos hab]

/-- ASGBITS of a range that is not malformed does what the write of the assembled value does: where
it tests its operands first, that value would not fit (R156, R159). -/
theorem exec_asgbits_of_le (hab : a.toNat ≤ b.toNat) : exec (.asgbits rd rs1 a b) s =
    finish s [(rd, assignBits (s.x rd) (s.x rs1) a.toNat b.toNat)] 0 := by
  change execAsgbits rd rs1 a b s = _
  rw [execAsgbits, unlessHalted_withReg_two hh hr, if_neg (Nat.not_lt.2 hab)]
  split
  · next hcap =>
    obtain ⟨ha, hmid⟩ := hcap
    have hge : 2 ^ s.cfg.capBits ≤ assignBits (s.x rd) (s.x rs1) a.toNat b.toNat :=
      (Nat.pow_le_pow_right (by decide) ha).trans (two_pow_le_assignBits _ hmid)
    exact (finish_of_not_fits (List.mem_singleton.2 rfl)
      (mt (s.cfg.fits_iff _).1 (Nat.not_lt.2 hge)) 0).symm
  · rfl

end

/-- Settles O52: both commands test the range, then write one value, which is read bit by bit. -/
theorem bitRangeCommands : Obligations.BitRangeCommands := by
  intro s rd rs1 a b hh hr
  have htwo (hd : s.readable [rd]) : s.readable [rd, rs1] :=
    State.Holds.readable ⟨readable_one hd, rfl⟩ ⟨readable_one hr, rfl⟩
  refine ⟨fun hab => ?_, fun hab => ?_, fun hd hab => ?_, fun hd hab => ?_⟩
  · rw [exec_getbits_of_lt hh hr hab]
    exact faults_raise _
  · exact ⟨_, testBit_getBits _ _ _, completes_getbits hh hr hab⟩
  · rw [exec_asgbits_of_lt hh (htwo hd) hab]
    exact faults_raise _
  · rw [exec_asgbits_of_le hh (htwo hd) hab]
    exact ⟨_, testBit_assignBits _ _ hab, finish_one_ends s rd _ 0⟩

/-! ### The counts of a value -/

/-- The population count as the number of elements of a set of indices (R160). -/
theorem popcount_eq_card (v : Nat) :
    popcount v = ((Finset.range (bitlen v)).filter (fun j => v.testBit j = true)).card := by
  rw [← Nat.count_eq_card_filter_range, Nat.count, popcount]
  simp only [Bool.decide_eq_true]

/-- Settles O53: each command answers its count of the value. -/
theorem countingCommands : Obligations.CountingCommands := by
  intro s r hh hr
  refine ⟨bitlen (s.x r), popcount (s.x r), trailingZeros (s.x r), bitlen_le_iff _,
    popcount_eq_card _, fun h => ?_, trailingZeros_spec, ?_, ?_, ?_, ?_, ?_⟩
  · rw [h]
    rfl
  · exact completes_answer hh hr fun v => BitVec.ofNat 64 (bitlen v)
  · exact completes_answer hh hr fun v => BitVec.ofNat 64 (popcount v)
  · exact completes_answer hh hr fun v => BitVec.ofNat 64 (countZeros v)
  · exact completes_answer hh hr fun v => BitVec.ofNat 64 (leadingZeros v)
  · exact completes_answer hh hr fun v => BitVec.ofNat 64 (trailingZeros v)

/-! ### The counts from the limbs -/

/-- The trailing zeros of a value whose lowest limb is zero (R165). -/
theorem trailingZeros_of_mod_eq_zero {w v : Nat} (hv : v ≠ 0) (h : v % 2 ^ w = 0) :
    trailingZeros v = w + trailingZeros (v / 2 ^ w) := by
  have hrest : v / 2 ^ w ≠ 0 := (Nat.div_ne_zero_iff_of_dvd (Nat.dvd_of_mod_eq_zero h)).2
    ⟨hv, (Nat.two_pow_pos w).ne'⟩
  obtain ⟨hone, hbelow⟩ := trailingZeros_spec hrest
  rw [Nat.testBit_div_two_pow, Nat.add_comm] at hone
  refine trailingZeros_unique hv hone fun j hj => ?_
  by_cases hjw : j < w
  · have hbit := Nat.testBit_mod_two_pow v w j
    rwa [h, Nat.zero_testBit, decide_eq_true hjw, Bool.true_and, eq_comm] at hbit
  · have hbit := hbelow (j - w) (by omega)
    rwa [Nat.testBit_div_two_pow, Nat.sub_add_cancel (Nat.not_lt.1 hjw)] at hbit

/-- The trailing zeros of a value whose lowest limb is not zero (R165). -/
theorem trailingZeros_of_mod_ne_zero {w v : Nat} (h : v % 2 ^ w ≠ 0) :
    trailingZeros v = trailingZeros (v % 2 ^ w) := by
  have hv : v ≠ 0 := fun hz => h (by rw [hz, Nat.zero_mod])
  obtain ⟨hone, hbelow⟩ := trailingZeros_spec h
  rw [Nat.testBit_mod_two_pow, Bool.and_eq_true, decide_eq_true_iff] at hone
  obtain ⟨hlt, hone⟩ := hone
  refine trailingZeros_unique hv hone fun j hj => ?_
  have hbit := hbelow j hj
  rwa [Nat.testBit_mod_two_pow, decide_eq_true (hj.trans hlt), Bool.true_and] at hbit

theorem onesOfLimbs_cons (w l : Nat) (ls : StoredLimbs) :
    onesOfLimbs w (l :: ls) = popcountLimb w l + onesOfLimbs w ls := by
  rw [onesOfLimbs, List.map_cons, List.sum_cons, onesOfLimbs]

/-- The limbs below the top one do not count for its unused bits (R165). -/
theorem topUnused_cons {ls : StoredLimbs} (h : ls ≠ []) (w l : Nat) :
    topUnused w (l :: ls) = topUnused w ls := by
  rw [topUnused, List.getLast?_cons_of_ne_nil h, topUnused]

section

variable {w : Nat} (hw : 0 < w)
include hw

/-- Induction over the limbs of a value, the lowest one first. -/
theorem limb_induction {P : Nat → Prop} (zero : P 0)
    (limb : ∀ v, v ≠ 0 → P (v / 2 ^ w) → P v) (v : Nat) : P v := by
  induction v using Nat.strong_induction_on with
  | _ v ih =>
    by_cases hv : v = 0
    · exact hv ▸ zero
    · have hlt : v / 2 ^ w < v :=
        Nat.div_lt_self (Nat.pos_of_ne_zero hv) (Nat.one_lt_two_pow hw.ne')
      exact limb v hv (ih _ hlt)

theorem limbsOf_eq_nil_iff (v : Nat) : limbsOf w v = [] ↔ v = 0 := by
  rw [← List.length_eq_zero_iff, length_limbsOf, lenOf_eq_zero_iff hw]

/-- The 1 bits of a value are those of its limbs (R165). -/
theorem onesOfLimbs_limbsOf (v : Nat) : onesOfLimbs w (limbsOf w v) = popcount v := by
  induction v using limb_induction hw with
  | zero =>
    rw [limbsOf_zero hw]
    rfl
  | limb v hv ih =>
    rw [limbsOf_of_pos hw hv, onesOfLimbs_cons, ih, ← popcount_split]

/-- The bits of a value and the unused bits of its top limb fill its limbs (R165). -/
theorem bitlen_add_topUnused (v : Nat) :
    bitlen v + topUnused w (limbsOf w v) = w * (limbsOf w v).length := by
  induction v using limb_induction hw with
  | zero =>
    rw [limbsOf_zero hw]
    rfl
  | limb v hv ih =>
    rw [limbsOf_of_pos hw hv]
    by_cases hrest : v / 2 ^ w = 0
    · have hlt : v < 2 ^ w := (Nat.div_eq_zero_iff_lt (Nat.two_pow_pos w)).1 hrest
      have hle : bitlen v ≤ w := (bitlen_le_iff v w).2 hlt
      rw [hrest, limbsOf_zero hw, Nat.mod_eq_of_lt hlt]
      change bitlen v + (w - bitlen v) = w * 1
      omega
    · rw [topUnused_cons (mt (limbsOf_eq_nil_iff hw _).1 hrest), bitlen_split hrest,
        List.length_cons, Nat.mul_succ]
      omega

/-- The trailing zeros of a value from its limbs (R165). -/
theorem trailingOfLimbs_limbsOf (v : Nat) : trailingOfLimbs w (limbsOf w v) = trailingZeros v := by
  induction v using limb_induction hw with
  | zero =>
    rw [limbsOf_zero hw]
    rfl
  | limb v hv ih =>
    rw [limbsOf_of_pos hw hv, trailingOfLimbs]
    split
    · next h => rw [ih, trailingZeros_of_mod_eq_zero hv h]
    · next h =>
      rw [ctzLimb_eq (Nat.mod_lt _ (Nat.two_pow_pos w)) h, trailingZeros_of_mod_ne_zero h]

end

/-- The 0 bits and the 1 bits of limbs fill them (R165). -/
theorem sum_zeros_add_onesOfLimbs (w : Nat) (ls : StoredLimbs) :
    (ls.map fun l => w - popcountLimb w l).sum + onesOfLimbs w ls = w * ls.length := by
  induction ls with
  | nil => rfl
  | cons l ls ih =>
    have hle := popcountLimb_le w l
    rw [List.map_cons, List.sum_cons, onesOfLimbs_cons, List.length_cons, Nat.mul_succ]
    omega

/-- Settles O54: the top-limb width correction is the difference between the bits of the limbs and
the bits of the value. -/
theorem perLimbCountsAggregate : Obligations.PerLimbCountsAggregate := by
  intro w v hw
  have hones := onesOfLimbs_limbsOf hw v
  have hbits := bitlen_add_topUnused hw v
  have hzeros := sum_zeros_add_onesOfLimbs w (limbsOf w v)
  refine ⟨hones, ?_, ?_, Nat.sub_self _, trailingOfLimbs_limbsOf hw v⟩
  · rw [bitlenOfLimbs]
    omega
  · rw [zerosOfLimbs, countZeros]
    omega

/-! ### Bit round trips -/

/-- Setting a bit that is 1 changes nothing (R152). -/
theorem setBit_of_testBit {v i : Nat} (h : v.testBit i = true) : setBit v i = v := by
  rw [setBit, if_pos ((bitAt_eq_one_iff v i).2 h)]

/-- Clearing a bit that is 0 changes nothing (R153). -/
theorem clearBit_of_not_testBit {v i : Nat} (h : ¬v.testBit i = true) : clearBit v i = v := by
  rw [clearBit, if_neg (mt (bitAt_eq_one_iff v i).1 h)]

/-- Assigning the bits extracted from the same range changes nothing (R166). -/
theorem assignBits_getBits (v : Nat) {start stop : Nat} (h : start ≤ stop) :
    assignBits v (getBits v start stop) start stop = v := by
  refine Nat.eq_of_testBit_eq fun j => ?_
  rw [testBit_assignBits _ _ h]
  split
  · next hj =>
    obtain ⟨hge, hlt⟩ := hj
    have hin : j - start < stop - start := by omega
    rw [testBit_getBits, decide_eq_true hin, Bool.true_and, Nat.add_sub_cancel' hge]
  · rfl

/-- Bit 0 of GETBIT's answer is the bit read (R151). -/
theorem getLsbD_ofNat_bitAt (v i : Nat) :
    (BitVec.ofNat 64 (bitAt v i)).getLsbD 0 = v.testBit i := by
  rw [BitVec.getLsbD_ofNat, bitAt_eq, Nat.testBit_zero, Nat.mod_mod,
    ← Nat.testBit_eq_decide_div_mod_eq]
  rfl

/-- Writing a register's own value is no write (R22). -/
theorem completes_finish_x {s : State} {r : Reg} (h : s.cfg.canonical (s.limbs r) = true) :
    Completes s (finish s [(r, s.x r)] 0) [] 0 :=
  completes_same (State.limbs_eq h).symm (State.fits_x h) 0

/-- ASGBIT of the bit a register already has changes nothing and raises no fault, at every index: a
bit that is 1 is below the capacity (R166). -/
theorem completes_asgbit_same {s : State} {r : Reg} {a b : Scalar} (hh : s.status.halt = false)
    (hr : s.readable [r]) (hb : b.getLsbD 0 = (s.x r).testBit a.toNat) :
    Completes s (exec (.asgbit r a b) s) [] 0 := by
  have hc := readable_one hr
  rw [exec_asgbit, hb]
  split
  · next hset =>
    have ha : a.toNat < s.cfg.capBits := by
      rw [← Nat.pow_lt_pow_iff_right (by decide : 1 < 2)]
      exact (Nat.ge_two_pow_of_testBit hset).trans_lt (State.x_lt hc)
    rw [exec_setbit_of_lt hh hr ha, setBit_of_testBit hset]
    exact completes_finish_x hc
  · next hclr =>
    rw [exec_clrbit hh hr, clearBit_of_not_testBit hclr]
    exact completes_finish_x hc

/-- ASGBITS of the bits a register already has in the range changes nothing and raises no fault
(R166). -/
theorem completes_asgbits_same {s : State} {rd rs1 : Reg} {a b : Scalar}
    (hh : s.status.halt = false) (hr : s.readable [rd, rs1]) (hab : a.toNat ≤ b.toNat)
    (hx : s.x rs1 = getBits (s.x rd) a.toNat b.toNat) :
    Completes s (exec (.asgbits rd rs1 a b) s) [] 0 := by
  rw [exec_asgbits_of_le hh hr hab, hx, assignBits_getBits _ hab]
  exact completes_finish_x (readable_two hr).1

/-- Settles O56: the first command leaves the register as it was, and assigning to it the bits it
has is no write. -/
theorem bitRoundTrip : Obligations.BitRoundTrip := by
  refine ⟨fun s nd i hh hr => ?_, fun s nt nd i j hh hr hne hij => ?_⟩
  · obtain ⟨t, ht, hp, _, hl, hst, hcfg, _, _⟩ := completes_getbit hh hr i
    have hlnd : t.limbs nd = s.limbs nd := hl nd List.not_mem_nil
    have hrt : t.readable [nd] := by
      rw [State.readable, List.forall_mem_singleton, hlnd, hcfg]
      exact readable_one hr
    refine ⟨t, _, ht, hp, hlnd, completes_asgbit_same (hst ▸ hh) hrt ?_⟩
    rw [getLsbD_ofNat_bitAt, State.x, State.x, hlnd, hcfg]
  · obtain ⟨t, ht, hp, hw, hl, hst, hcfg, _, _⟩ :=
      completes_getbits (rd := nt) hh hr hij
    obtain ⟨hcnt, hxnt⟩ := hw _ List.mem_cons_self
    have hlnd : t.limbs nd = s.limbs nd := hl nd (by simpa using hne.symm)
    have hxnd : t.x nd = s.x nd := by rw [State.x, State.x, hlnd, hcfg]
    have hcnd : t.cfg.canonical (t.limbs nd) = true := by
      rw [hlnd, hcfg]
      exact readable_one hr
    have hrt : t.readable [nd, nt] := State.Holds.readable ⟨hcnd, hxnd⟩ ⟨hcnt, hxnt⟩
    refine ⟨t, ht, hp, hlnd, completes_asgbits_same (hst ▸ hh) hrt hij ?_⟩
    rw [hxnd]
    exact hxnt

end Sys2Proof.Machine
end

section
/-!
PROOFS. The statements of 45_xgcd.md: the loop of R181 as it runs, its corner cases (spec/45_xgcd.md
R182), and the command with its signs and bounds (R180, R183 to R185).
-/

namespace Sys2Proof.Machine

/-! ### The loop -/

/-- The loop does not run on a zero remainder (R181). -/
theorem xgcdLoop_zero (passes r0 : Nat) (s0 s1 t0 t1 : Int) :
    xgcdLoop passes r0 0 s0 s1 t0 t1 = (r0, s0, t0) := by
  cases passes <;> rfl

/-- One pass on a non-zero remainder (R181). -/
theorem xgcdLoop_succ {r1 : Nat} (h : r1 ≠ 0) (passes r0 : Nat) (s0 s1 t0 t1 : Int) :
    xgcdLoop (passes + 1) r0 r1 s0 s1 t0 t1 =
      xgcdLoop passes r1 (r0 - r0 / r1 * r1) s1 (s0 - (r0 / r1 : Nat) * s1) t1
        (t0 - (r0 / r1 : Nat) * t1) :=
  if_neg h

section

variable {P : Nat → Nat → Int → Int → Int → Int → Prop}
  (hpass : ∀ r0 r1 s0 s1 t0 t1, P r0 r1 s0 s1 t0 t1 → r1 ≠ 0 →
    P r1 (r0 - r0 / r1 * r1) s1 (s0 - (r0 / r1 : Nat) * s1) t1 (t0 - (r0 / r1 : Nat) * t1))
include hpass

/-- What every pass keeps holds when the loop ends, and the remainder is then 0: it falls at every
pass, so as many passes as it counts are enough (R185). -/
theorem xgcdLoop_keeps (passes r0 r1 : Nat) (s0 s1 t0 t1 : Int) (hr : r1 ≤ passes)
    (h : P r0 r1 s0 s1 t0 t1) {g : Nat} {x y : Int}
    (hres : xgcdLoop passes r0 r1 s0 s1 t0 t1 = (g, x, y)) : ∃ s t, P g 0 x s y t := by
  induction passes generalizing r0 r1 s0 s1 t0 t1 with
  | zero =>
    obtain rfl : r1 = 0 := Nat.le_zero.1 hr
    cases hres
    exact ⟨s1, t1, h⟩
  | succ passes ih =>
    by_cases h1 : r1 = 0
    · subst h1
      rw [xgcdLoop_zero] at hres
      cases hres
      exact ⟨s1, t1, h⟩
    · rw [xgcdLoop_succ h1] at hres
      have hlt : r0 - r0 / r1 * r1 < r1 := by
        rw [sub_div_mul]
        exact Nat.mod_lt _ (Nat.pos_of_ne_zero h1)
      exact ih _ _ _ _ _ _ (by omega) (hpass _ _ _ _ _ _ h h1) hres

/-- The rule of the loop invariant for `xgcd` (R181). -/
theorem xgcd_keeps {a b g : Nat} {x y : Int} (h : P a b 1 0 0 1) (hres : xgcd a b = (g, x, y)) :
    ∃ s t, P g 0 x s y t :=
  xgcdLoop_keeps hpass b a b 1 0 0 1 le_rfl h hres

end

/-! ### The run of R181 -/

/-- The six variables of R181 are those of the top of some pass `k` of a run of `n` passes. -/
def AtPassOf (n : Nat) (r : Nat → Nat) (x y : Nat → Int) (r0 r1 : Nat) (s0 s1 t0 t1 : Int) :
    Prop :=
  ∃ k ≤ n, r0 = r k ∧ r1 = r (k + 1) ∧ s0 = x k ∧ s1 = x (k + 1) ∧ t0 = y k ∧ t1 = y (k + 1)

section

variable {n : Nat} {r q : Nat → Nat} {x y : Nat → Int}
  (hrun : ∀ k, k < n → r k = q k * r (k + 1) + r (k + 2) ∧ r (k + 2) < r (k + 1) ∧
    x (k + 2) = x k - q k * x (k + 1) ∧ y (k + 2) = y k - q k * y (k + 1))
include hrun

/-- A pass of the loop is the next pass of the run: the run's quotient is the loop's, being the one
with a remainder below the divisor (R181). -/
theorem AtPassOf.pass (hend : r (n + 1) = 0) {r0 r1 : Nat} {s0 s1 t0 t1 : Int}
    (h : AtPassOf n r x y r0 r1 s0 s1 t0 t1) (h1 : r1 ≠ 0) :
    AtPassOf n r x y r1 (r0 - r0 / r1 * r1) s1 (s0 - (r0 / r1 : Nat) * s1) t1
      (t0 - (r0 / r1 : Nat) * t1) := by
  obtain ⟨k, hk, rfl, rfl, rfl, rfl, rfl, rfl⟩ := h
  have hkn : k < n := lt_of_le_of_ne hk fun he => h1 (he ▸ hend)
  obtain ⟨hr, hlt, hx, hy⟩ := hrun k hkn
  have hq : r k / r (k + 1) = q k := by
    rw [hr, Nat.mul_comm, Nat.mul_add_div (Nat.pos_of_ne_zero h1), Nat.div_eq_of_lt hlt,
      Nat.add_zero]
  refine ⟨k + 1, hkn, rfl, ?_, rfl, ?_, rfl, ?_⟩
  · rw [hq, hr, Nat.add_sub_cancel_left]
  · rw [hq, hx]
  · rw [hq, hy]

/-- At the end of the loop the run has ended too: before it no remainder is 0 (R181). -/
theorem AtPassOf.ended {g : Nat} {u v s t : Int} (h : AtPassOf n r x y g 0 u s v t) :
    (g, u, v) = (r n, x n, y n) := by
  obtain ⟨k, hk, rfl, hzero, rfl, _, rfl, _⟩ := h
  obtain hkn | rfl := hk.lt_or_eq
  · obtain ⟨_, hlt, _, _⟩ := hrun k hkn
    omega
  · rfl

/-- Both Bezout equalities hold at every pass of a run that starts with the pairs of R181. -/
theorem bezout_at_pass (hx0 : x 0 = 1) (hx1 : x 1 = 0) (hy0 : y 0 = 0) (hy1 : y 1 = 1) (k : Nat)
    (hk : k ≤ n + 1) : (r 0 : Int) * x k + r 1 * y k = r k := by
  induction k using Nat.twoStepInduction with
  | zero => rw [hx0, hy0]; ring
  | one => rw [hx1, hy1]; ring
  | more k ih0 ih1 =>
    obtain ⟨hr, _, hx, hy⟩ := hrun k (by omega)
    have hr' : (r k : Int) = q k * r (k + 1) + r (k + 2) := by exact_mod_cast hr
    rw [hx, hy]
    linear_combination ih0 (by omega) - q k * ih1 (by omega) + hr'

end

/-- Settles O60: every pass of the loop goes from a pass of the run to the next one, so both end
together. -/
theorem xgcdRunsTheEuclideanLoop : Obligations.XgcdRunsTheEuclideanLoop := by
  intro n r q x y hx0 hx1 hy0 hy1 hrun hend
  refine ⟨?_, bezout_at_pass hrun hx0 hx1 hy0 hy1⟩
  have hstart : AtPassOf n r x y (r 0) (r 1) 1 0 0 1 :=
    ⟨0, n.zero_le, rfl, rfl, hx0.symm, hx1.symm, hy0.symm, hy1.symm⟩
  obtain ⟨s, t, hlast⟩ :=
    xgcd_keeps (fun _ _ _ _ _ _ h h1 => AtPassOf.pass hrun hend h h1) hstart rfl
  exact hlast.ended hrun

/-! ### The corner cases -/

/-- When `b` divides `a` the first pass is the last one (R182). -/
theorem xgcd_of_dvd {a b : Nat} (hb : b ≠ 0) (h : b ∣ a) : xgcd a b = (b, 0, 1) := by
  obtain ⟨passes, rfl⟩ := Nat.exists_eq_succ_of_ne_zero hb
  rw [xgcd, xgcdLoop_succ hb, sub_div_mul, Nat.mod_eq_zero_of_dvd h, xgcdLoop_zero]

/-- Settles O58: no pass for `b = 0`, one pass when `b` divides `a` (every `b` divides 0), and the
worked values evaluated. -/
theorem xgcdCornerCases : Obligations.XgcdCornerCases :=
  ⟨fun _ => rfl, fun b hb => xgcd_of_dvd hb (dvd_zero b), fun _ _ hb h => xgcd_of_dvd hb h,
    by decide, by decide, by decide⟩

/-! ### The command -/

/-- XGCD of two readable registers and distinct destinations, not in halt, writes the triple and
answers the signs (R180). -/
theorem exec_xgcd {s : State} {rd rd2 rd3 rs1 rs2 : Reg} {g : Nat} {x y : Int}
    (hh : s.status.halt = false) (hr : s.readable [rs1, rs2])
    (hne : ¬(rd = rd2 ∨ rd = rd3 ∨ rd2 = rd3)) (hres : xgcd (s.x rs1) (s.x rs2) = (g, x, y)) :
    exec (.xgcd rd rd2 rd3 rs1 rs2) s =
      finish s [(rd, g), (rd2, x.natAbs), (rd3, y.natAbs)] (signBits x y) := by
  change execXgcd rd rd2 rd3 rs1 rs2 s = _
  rw [execXgcd, if_neg hne, unlessHalted_withReg_two hh hr]
  simp only [hres]

/-- The answer is the two sign bits below 62 zeros (R183). -/
theorem signBits_eq_append (x y : Int) :
    signBits x y = 0#62 ++ BitVec.ofBool (decide (y < 0)) ++ BitVec.ofBool (decide (x < 0)) := by
  by_cases hx : x < 0 <;> by_cases hy : y < 0 <;> simp [signBits, hx, hy]

/-- Bit 0 is the sign of `x`, bit 1 that of `y`, and no other bit is set (R183). -/
theorem getLsbD_signBits (x y : Int) (k : Nat) : (signBits x y).getLsbD k =
    if k = 0 then decide (x < 0) else if k = 1 then decide (y < 0) else false := by
  rw [signBits_eq_append, BitVec.getLsbD_append, BitVec.getLsbD_append]
  match k with
  | 0 => simp
  | 1 => simp
  | k + 2 => simp

/-- When the loop has ended the invariant gives the gcd, Bezout's equality and the bounds (R184,
R185). -/
theorem XgcdInv.result {a b g : Nat} {x s y t : Int} (h : XgcdInv a b g 0 x s y t) :
    g = Nat.gcd a b ∧ (a : Int) * x + b * y = g ∧
      x.natAbs ≤ max (max a b) 1 ∧ y.natAbs ≤ max (max a b) 1 := by
  obtain ⟨hgcd, hbezout, _, e, p0, _, m0, _, he, hx, _, hy, _, _, _, hp, hm, _⟩ := h
  rw [Nat.gcd_zero_right] at hgcd
  have habs : x.natAbs = p0 ∧ y.natAbs = m0 := by
    rcases he with rfl | rfl <;> omega
  exact ⟨hgcd, hbezout, by omega, by omega⟩

/-- The gcd, Bezout's equality and the bounds on the coefficients, for all operands (R184, R185). -/
theorem xgcd_spec {a b g : Nat} {x y : Int} (h : xgcd a b = (g, x, y)) :
    g = Nat.gcd a b ∧ (a : Int) * x + b * y = g ∧
      x.natAbs ≤ max (max a b) 1 ∧ y.natAbs ≤ max (max a b) 1 := by
  obtain ⟨s, t, hinv⟩ :=
    xgcd_keeps (fun _ _ _ _ _ _ hinv h1 => hinv.pass h1) (XgcdInv.start a b) h
  exact hinv.result

/-- The gcd obeys the bound of the coefficients, that of `(0, 0)` included (R184, R185). -/
theorem gcd_le_max (a b : Nat) : Nat.gcd a b ≤ max (max a b) 1 := by
  rcases a.eq_zero_or_pos with rfl | ha
  · rw [Nat.gcd_zero_left]
    omega
  · have := Nat.gcd_le_left b ha
    omega

/-- With legal parameters what is bounded by two register values and 1 fits a register (R185). -/
theorem fits_of_le_max {s : State} {i j : Reg} {v : Nat} (hv : s.cfg.valid = true)
    (hr : s.readable [i, j]) (h : v ≤ max (max (s.x i) (s.x j)) 1) : s.cfg.fits v = true := by
  obtain ⟨hi, hj⟩ := readable_two hr
  have hone : s.cfg.fits 1 = true := Config.fits_scalar hv 1
  refine Config.fits_mono h ?_
  rw [Config.fits_iff] at hone ⊢
  exact max_lt (max_lt (State.x_lt hi) (State.x_lt hj)) hone

/-- Settles O57: the three results are bounded by the operands, so they fit and the command completes
(R185). -/
theorem xgcdWritesBezoutCoefficients : Obligations.XgcdWritesBezoutCoefficients := by
  intro s rd rd2 rd3 rs1 rs2 g x y hh hv hr h12 h13 h23 hres
  obtain ⟨hg, hbezout, hx, hy⟩ := xgcd_spec hres
  refine ⟨?_, getLsbD_signBits x y, hg, hbezout, hx, hy⟩
  have hfg : s.cfg.fits g = true := fits_of_le_max hv hr (hg ▸ gcd_le_max _ _)
  have hfx : s.cfg.fits x.natAbs = true := fits_of_le_max hv hr hx
  have hfy : s.cfg.fits y.natAbs = true := fits_of_le_max hv hr hy
  rw [exec_xgcd hh hr (by simp [h12, h13, h23]) hres]
  exact completes_finish (by simp [h12, h13, h23]) (by simp [hfg, hfx, hfy]) _

end Sys2Proof.Machine
end

section
/-!
PROOFS. The statement of 46_modpow.md: MODPOW on values (spec/46_modpow.md R190 to R193).
-/

namespace Sys2Proof.Machine

/-- From the running result 1 the sequencer's passes over all bits of the exponent reach the power,
and they end below the modulus, so they give its remainder (R190, R191, R195). -/
theorem modpow_eq_pow_mod (b e : Nat) {m : Nat} (hm : 1 < m) : modpow b e m = b ^ e % m := by
  have hlt : modpow b e m < m := modpowLoop_lt b e (by omega) (bitlen e) 1 hm
  have hmod : modpow b e m ≡ b ^ e [MOD m] := by
    have hpass := modpowLoop_modEq b e m (bitlen e) 1
    rwa [one_pow, one_mul, Nat.mod_eq_of_lt (lt_two_pow_bitlen e)] at hpass
  exact (Nat.mod_eq_of_lt hlt).symm.trans hmod

/-- MODPOW with a non-zero modulus is the one write of the power's remainder; the short circuit for
modulus 1 agrees with it (R190, R192). -/
theorem exec_modpow {s : State} {rs1 rs2 rs3 : Reg} (hh : s.status.halt = false)
    (hr : s.readable [rs1, rs2, rs3]) (hm : s.x rs3 ≠ 0) (rd : Reg) :
    exec (.modpow rd rs1 rs2 rs3) s = finish s [(rd, s.x rs1 ^ s.x rs2 % s.x rs3)] 0 := by
  obtain ⟨h1, h2, h3⟩ := readable_three hr
  change execModpow rd rs1 rs2 rs3 s = _
  rw [execModpow, unlessHalted_of_not hh, withReg_eq h1, withReg_eq h2, withReg_eq h3, if_neg hm]
  split
  · next hone => rw [hone, Nat.mod_one]
  · next hone => rw [modpow_eq_pow_mod _ _ (by omega)]

/-- Settles O59: a remainder is no greater than the modulus, a register's value, so its write fits. -/
theorem modpowWritesThePower : Obligations.ModpowWritesThePower := by
  intro s rd rs1 rs2 rs3 hh hr hm
  obtain ⟨-, -, hmodulus⟩ := readable_three hr
  rw [exec_modpow hh hr hm]
  have hle : s.x rs1 ^ s.x rs2 % s.x rs3 ≤ s.x rs3 := (Nat.mod_lt _ (Nat.pos_of_ne_zero hm)).le
  exact completes_one (Config.fits_mono hle (State.fits_x hmodulus)) 0

end Sys2Proof.Machine
end

section
/-!
PROOFS. The statements of 47_system.md: NOP, RDSR and CLRF (spec/47_system.md R200 to R202).
-/

namespace Sys2Proof

/-- A row without operands has one word: every other word of its opcode is refused (R69). -/
theorem decode_of_ne_matchWord {c : Command} {m : Mnemonic} (hz : m.format = .z)
    (ho : opcOf c.word = m.opcode) (hne : c.word ≠ m.matchWord) : ∃ e, decode c = .error e := by
  cases hd : decode c with
  | error e => exact ⟨e, rfl⟩
  | ok i =>
    obtain ⟨m', ho', hmask, -⟩ := decode_eq_ok hd
    obtain rfl : m' = m := Mnemonic.opcode_injective (ho'.symm.trans ho)
    rw [hz, show Format.z.mask = BitVec.allOnes 32 by decide, BitVec.and_allOnes] at hmask
    exact absurd hmask hne

/-- The scalars that name a system register (R30, R71). -/
theorem eq_zero_or_one_of_toNat_lt_two {a : Scalar} (h : a.toNat < 2) : a = 0 ∨ a = 1 := by
  bv_omega

end Sys2Proof

namespace Sys2Proof.Machine

/-- A word with the opcode of NOP, RDSR or CLRF and a non-zero register field is IllegalCommand
(R200 to R202, R218). -/
theorem faults_of_ne_matchWord {c : Command} {s : State} {m : Mnemonic} (hz : m.format = .z)
    (ho : opcOf c.word = m.opcode) (hne : c.word ≠ m.matchWord) (hh : s.status.halt = false) :
    Faults s (runCommand c s) .illegalCommand := by
  obtain ⟨e, he⟩ := decode_of_ne_matchWord hz ho hne
  exact faults_runCommand_of_error he hh

/-- A command without writes only answers (R13). -/
theorem finish_nil (s : State) (d : Scalar) : finish s [] d = .next (s.respond .ok d) :=
  finish_of_fits (by simp) d

theorem exec_rdsr_zero (s : State) : exec (.rdsr 0) s = finish s [] s.status.toWord := by
  change execRdsr 0 s = _
  rw [execRdsr, if_pos rfl]

theorem exec_rdsr_one (s : State) : exec (.rdsr 1) s = finish s [] s.cfg.toWord := by
  change execRdsr 1 s = _
  rw [execRdsr, if_neg (by decide), if_pos rfl]

/-- A legal RDSR only answers, in halt too (R201, R219). -/
theorem exec_rdsr_of_lt {a : Scalar} (h : a.toNat < 2) (s : State) :
    ∃ d, exec (.rdsr a) s = .next (s.respond .ok d) := by
  rcases eq_zero_or_one_of_toNat_lt_two h with rfl | rfl
  · exact ⟨_, by rw [exec_rdsr_zero, finish_nil]⟩
  · exact ⟨_, by rw [exec_rdsr_one, finish_nil]⟩

/-- In halt every command but a legal RDSR answers Halted and changes nothing else (R219). -/
theorem exec_of_halted {i : Instr} {s : State} (hh : s.status.halt = true)
    (hr : ∀ a, i = .rdsr a → 2 ≤ a.toNat) : exec i s = .next (s.respond .halted 0) := by
  cases i with
  | rdsr a =>
    have h2 := hr a rfl
    have h0 : a ≠ 0 := by rintro rfl; exact absurd h2 (by decide)
    have h1 : a ≠ 1 := by rintro rfl; exact absurd h2 (by decide)
    change execRdsr a s = _
    rw [execRdsr, if_neg h0, if_neg h1, unlessHalted_of_halted hh]
  | _ => exact unlessHalted_of_halted hh _

/-- CLRF, not in halt, clears bits 8 to 15 of STATUS and answers (R202). -/
theorem exec_clrf {s : State} (hh : s.status.halt = false) : exec .clrf s =
    .next (State.respond { s with status := s.status.clearFaults } .ok 0) := by
  change execClrf s = _
  rw [execClrf, unlessHalted_of_not hh, finish_nil]

/-- `STATUS[15:8] <- 0` on the word (R202). -/
theorem Status.toWord_clearFaults (t : Status) :
    t.clearFaults.toWord = t.toWord &&& ~~~0xFF00#64 := by
  have hmask : ∀ k : Fin 64, (~~~0xFF00#64).getLsbD k = decide (k.val < 8 ∨ 15 < k.val) := by
    decide
  refine BitVec.eq_of_getLsbD_eq fun k hk => ?_
  rw [Status.getLsbD_clearFaults, BitVec.getLsbD_and, hmask ⟨k, hk⟩, Bool.and_comm]

/-- Settles O26: NOP is a completion without writes, and its row has the one word 0. -/
theorem nopChangesNothing : Obligations.NopChangesNothing := by
  refine ⟨by decide, fun s hh => ?_, fun s hh => exec_of_halted hh nofun, fun c s ho hne hh => ?_⟩
  · rw [exec_nop hh, finish_nil]
    rfl
  · exact faults_of_ne_matchWord (m := .nop) rfl ho hne hh

/-- Settles O27: a legal RDSR does not test HALT and writes nothing; another is not well-formed. -/
theorem rdsrReadsSystemRegisters : Obligations.RdsrReadsSystemRegisters := by
  refine ⟨fun s => ?_, fun s => ?_, fun s a ha hh => ?_, fun s a ha hh => ?_,
    fun c s ho hne hh => ?_⟩
  · rw [exec_rdsr_zero]
    exact completes_none _
  · rw [exec_rdsr_one]
    exact completes_none _
  · rw [exec_of_not_wellFormed hh (by rw [Instr.wellFormed_rdsr_iff]; omega)]
    exact faults_raise _
  · exact exec_of_halted hh (by rintro _ ⟨⟩; exact ha)
  · exact faults_of_ne_matchWord (m := .rdsr) rfl ho hne hh

/-- Settles O28: CLRF writes the sticky bits of STATUS alone. -/
theorem clrfClearsStickyBits : Obligations.ClrfClearsStickyBits := by
  refine ⟨fun s hh => ?_, fun s hh => exec_of_halted hh nofun, fun c s ho hne hh => ?_⟩
  · exact ⟨_, exec_clrf hh, rfl, Status.toWord_clearFaults _, rfl, rfl, rfl, rfl, rfl, rfl⟩
  · exact faults_of_ne_matchWord (m := .clrf) rfl ho hne hh

end Sys2Proof.Machine
end

section
/-!
PROOFS. The statements of 70_reset_and_hazards.md: reset in every state (spec/70_reset_and_hazards.md
R241, R242), and where a step of the model stops (R248; log 4).
-/

namespace Sys2Proof.Machine

/-- Reset is taken in every state of the port (R242). -/
theorem step_reset {s : State} {rest : List HostAction} (hi : s.inputs = .reset :: rest) :
    step s = .next { s.resetBlock with inputs := rest } := by
  rcases s with ⟨cfg, regs, st, port, ins, del⟩
  cases hi
  rfl

/-- Settles O10: the state after the step is the reset state, with the host's own record kept. -/
theorem resetGivesTheResetState : Obligations.ResetGivesTheResetState := by
  intro s rest hi
  have hlimbs (i : Reg) : State.limbs { s.resetBlock with inputs := rest } i = [] :=
    State.resetOf_limbs i s.cfg
  refine ⟨_, step_reset hi, fun i => ⟨hlimbs i, ?_⟩, ?_, rfl, rfl, rfl, rfl, rfl, rfl, rfl⟩
  · rw [State.x_def, hlimbs, valueOf]
  · exact show Status.clear.toWord = 0 by decide

/-- The host's next transfer can never happen: it offers a command while a response is pending, or
waits to take one while no command is in the block (R248; log 4). -/
def State.Stalled (s : State) : Prop :=
  (∃ c rest r, s.inputs = .command c :: rest ∧ s.port = .resp r) ∨
  (∃ rest, s.inputs = .takeResponse :: rest ∧ s.port = .idle)

/-- A command in hand goes on, whatever the host does next: a reset is taken, and otherwise the
command runs and answers (R32, R242). -/
theorem step_busy_next {s : State} {c : Command} (hp : s.port = .busy c) :
    ∃ t, step s = .next t := by
  by_cases hr : s.inputs.head? = some .reset
  · obtain ⟨rest, hi⟩ := List.head?_eq_some_iff.1 hr
    exact ⟨_, step_reset hi⟩
  · obtain ⟨t, _, ht, _⟩ := runCommand_next c { s with inputs := afterBusy s.inputs }
    exact ⟨t, (step_busy hp hr).trans ht⟩

/-- A step either stops, with the host stalled, or answers a next state (R248; log 4). -/
theorem step_stalled_or_next (s : State) :
    s.Stalled ∧ step s = .fault .hostStalled ∨ ¬s.Stalled ∧ ∃ t, step s = .next t := by
  rcases s with ⟨cfg, regs, st, port, ins, del⟩
  cases port with
  | busy c =>
    refine .inr ⟨?_, step_busy_next rfl⟩
    rintro (⟨_, _, _, _, hp⟩ | ⟨_, _, hp⟩)
    · cases hp
    · cases hp
  | idle =>
    cases ins with
    | nil => exact .inr ⟨by simp [State.Stalled], _, rfl⟩
    | cons a rest =>
      cases a with
      | takeResponse => exact .inl ⟨.inr ⟨rest, rfl, rfl⟩, rfl⟩
      | command _ | wait | reset => exact .inr ⟨by simp [State.Stalled], _, rfl⟩
  | resp r =>
    cases ins with
    | nil => exact .inr ⟨by simp [State.Stalled], _, rfl⟩
    | cons a rest =>
      cases a with
      | command c => exact .inl ⟨.inl ⟨c, rest, r, rfl, rfl⟩, rfl⟩
      | takeResponse | wait | reset => exact .inr ⟨by simp [State.Stalled], _, rfl⟩

/-- With no action of the host and no command in hand the block holds its state (R248). -/
theorem step_of_no_inputs {s : State} (hi : s.inputs = []) (hp : ∀ c, s.port ≠ .busy c) :
    step s = .next s := by
  rcases s with ⟨cfg, regs, st, port, ins, del⟩
  cases hi
  cases port with
  | busy c => exact absurd rfl (hp c)
  | idle | resp _ => rfl

/-- Settles O12: a step stops exactly when the host is stalled. -/
theorem stepStopsOnlyWhereTheHostStalls : Obligations.StepStopsOnlyWhereTheHostStalls := by
  intro s
  rcases step_stalled_or_next s with ⟨hstall, hstep⟩ | ⟨hstall, t, hstep⟩
  · refine ⟨by simp [hstep], ⟨fun _ => hstall, fun _ => ⟨_, hstep⟩⟩, step_of_no_inputs⟩
  · refine ⟨by simp [hstep], ⟨?_, fun h => absurd h hstall⟩, step_of_no_inputs⟩
    rintro ⟨r, hr⟩
    rw [hstep] at hr
    cases hr

end Sys2Proof.Machine
end

section
/-!
PROOFS. The statements of 60_exceptions.md: the numbers of the codes (spec/60_exceptions.md R221),
IllegalCommand (R218), DivisionByZero (R212), and the halt (R219, R227).
-/

namespace Sys2Proof.Machine

/-- Settles O25: the code table, evaluated. -/
theorem responseCodeNumbers : Obligations.ResponseCodeNumbers := rfl

/-! ### Codes a result never answers -/

/-- No next state the result `r` gives has a pending response with the code `c`. -/
def NeverAnswers (c : Code) (r : StepResult) : Prop :=
  ∀ t d, r = .next t → t.port ≠ .resp ⟨c, d⟩

/-- A code that none of the shared operations answers, so that a command answers it only by a test
of its own (R210). -/
abbrev Code.OwnFault (c : Code) : Prop :=
  c ≠ .ok ∧ c ≠ .capacityExceeded ∧ c ≠ .halted ∧ c ≠ .invariantViolation

section

variable {c : Code} {s : State}

theorem neverAnswers_next {t : State} {r : Response} (hp : t.port = .resp r) (hc : c ≠ r.code) :
    NeverAnswers c (.next t) := by
  intro u d hu hport
  cases hu
  rw [hp] at hport
  cases hport
  exact hc rfl

theorem neverAnswers_raise {c' : Code} (hc : c ≠ c') : NeverAnswers c (raise s c') :=
  neverAnswers_next rfl hc

theorem neverAnswers_ite {p : Prop} [Decidable p] {k₁ k₂ : StepResult} (h₁ : NeverAnswers c k₁)
    (h₂ : NeverAnswers c k₂) : NeverAnswers c (if p then k₁ else k₂) := by
  split
  · exact h₁
  · exact h₂

variable (hc : c.OwnFault)
include hc

theorem neverAnswers_finish (ws : List (Reg × Nat)) (d : Scalar) :
    NeverAnswers c (finish s ws d) := by
  obtain ⟨hok, hcapacity, -, -⟩ := hc
  exact neverAnswers_ite (neverAnswers_next rfl hok) (neverAnswers_raise hcapacity)

theorem neverAnswers_unlessHalted {k : StepResult} (h : NeverAnswers c k) :
    NeverAnswers c (unlessHalted s k) := by
  obtain ⟨-, -, hhalted, -⟩ := hc
  exact neverAnswers_ite (neverAnswers_next rfl hhalted) h

theorem neverAnswers_withReg {i : Reg} {k : Nat → StepResult} (h : ∀ v, NeverAnswers c (k v)) :
    NeverAnswers c (withReg s i k) := by
  obtain ⟨-, -, -, hinvariant⟩ := hc
  rw [withReg]
  split
  · exact h _
  · exact neverAnswers_raise hinvariant

/-- XGCD answers no code of its own but IllegalCommand (R180, R212). -/
theorem neverAnswers_xgcd (hill : c ≠ .illegalCommand) (rd rd2 rd3 rs1 rs2 : Reg) :
    NeverAnswers c (exec (.xgcd rd rd2 rd3 rs1 rs2) s) :=
  neverAnswers_unlessHalted hc <| neverAnswers_ite (neverAnswers_raise hill) <|
    neverAnswers_withReg hc fun _ => neverAnswers_withReg hc fun _ => neverAnswers_finish hc _ _

end

/-! ### IllegalCommand -/

/-- A legal command makes no test that ends in IllegalCommand (R210 step 2, R218). -/
theorem exec_neverAnswers_illegalCommand {i : Instr} (hw : i.wellFormed = true) (s : State) :
    NeverAnswers .illegalCommand (exec i s) := by
  have hc : Code.illegalCommand.OwnFault := by decide
  -- the tests and reads that the commands are chains of
  have own {k : StepResult} := neverAnswers_unlessHalted (s := s) (k := k) hc
  have read {r : Reg} {k : Nat → StepResult} := neverAnswers_withReg (s := s) (i := r) (k := k) hc
  have writes (ws : List (Reg × Nat)) (d : Scalar) := neverAnswers_finish (s := s) hc ws d
  have test {p : Prop} [Decidable p] {c : Code} {k : StepResult} (hne : Code.illegalCommand ≠ c) :=
    neverAnswers_ite (p := p) (k₂ := k) (neverAnswers_raise (s := s) hne)
  cases i with
  | nop => exact own (writes [] 0)
  | rdsr a =>
    obtain ⟨d, hd⟩ := exec_rdsr_of_lt ((Instr.wellFormed_rdsr_iff a).1 hw) s
    rw [hd]
    exact neverAnswers_next rfl nofun
  | clrf => exact own (neverAnswers_finish hc [] 0)
  | setp rd _ => exact own (writes [(rd, _)] 0)
  | mov rd _ | norm rd | clrbit rd _ | addp rd _ _ => exact own (read fun v => writes [(rd, _)] 0)
  | rdl _ _ | len _ | getbit _ _ | cnt1 _ | cnt0 _ | lz _ | tz _ | bitlen _ =>
    exact own (read fun v => writes [] _)
  | add rd _ _ | mul rd _ _ => exact own (read fun a => read fun b => writes [(rd, _)] 0)
  | cmp _ _ => exact own (read fun a => read fun b => writes [] _)
  | wrl rd _ _ =>
    exact own (read fun v => test (by decide) (test (by decide) (writes [(rd, _)] 0)))
  | subp rd _ _ | setbit rd _ | getbits rd _ _ _ =>
    exact own (read fun v => test (by decide) (writes [(rd, _)] 0))
  | asgbit rd _ _ =>
    exact own (read fun v => neverAnswers_ite (test (by decide) (writes [(rd, _)] 0))
      (writes [(rd, _)] 0))
  | sub rd _ _ | div rd _ _ | rem rd _ _ =>
    exact own (read fun a => read fun b => test (by decide) (writes [(rd, _)] 0))
  | asgbits rd _ _ _ =>
    exact own (read fun v => read fun u =>
      test (by decide) (test (by decide) (writes [(rd, _)] 0)))
  | divrem rd rd2 rs1 rs2 =>
    rw [Instr.wellFormed_divrem_iff] at hw
    change NeverAnswers _ (execDivrem rd rd2 rs1 rs2 s)
    rw [execDivrem, if_neg hw]
    exact own (read fun a => read fun b => test (by decide) (writes [(rd, _), (rd2, _)] 0))
  | xgcd rd rd2 rd3 rs1 rs2 =>
    rw [Instr.wellFormed_xgcd_iff] at hw
    change NeverAnswers _ (execXgcd rd rd2 rd3 rs1 rs2 s)
    rw [execXgcd, if_neg hw]
    exact own (read fun a => read fun b => writes [(rd, _), (rd2, _), (rd3, _)] _)
  | modpow rd _ _ _ =>
    exact own (read fun b => read fun e => read fun m => test (by decide)
      (neverAnswers_ite (writes [(rd, _)] 0) (writes [(rd, _)] 0)))

/-- A port command that decodes to an illegal command is IllegalCommand (R218). -/
theorem faults_runCommand_of_not_wellFormed {c : Command} {i : Instr} {s : State}
    (hd : decode c = .ok i) (hh : s.status.halt = false) (hw : ¬i.wellFormed = true) :
    Faults s (runCommand c s) .illegalCommand := by
  rw [runCommand_of_ok hd, exec_of_not_wellFormed hh hw]
  exact faults_raise _

/-- Settles O6: an illegal command, refused by the decoder or not well-formed, is IllegalCommand, and
a well-formed one never is. -/
theorem illegalCommandForExactlyTheIllegalCommands :
    Obligations.IllegalCommandForExactlyTheIllegalCommands := by
  refine ⟨rfl, fun c s hh => ⟨?_, fun t d ht hp i hd => ?_⟩⟩
  · rintro (⟨e, hd⟩ | ⟨rd, rs1, rs2, hd⟩ | ⟨rd, rd2, rd3, rs1, rs2, hd, h⟩ | ⟨a, hd, ha⟩)
    · exact faults_runCommand_of_error hd hh
    · refine faults_runCommand_of_not_wellFormed hd hh ?_
      rw [Instr.wellFormed_divrem_iff, not_not]
    · refine faults_runCommand_of_not_wellFormed hd hh ?_
      rwa [Instr.wellFormed_xgcd_iff, not_not]
    · refine faults_runCommand_of_not_wellFormed hd hh ?_
      rwa [Instr.wellFormed_rdsr_iff, Nat.not_lt]
  · rw [runCommand_of_ok hd] at ht
    exact Bool.eq_false_iff.2 fun hw => exec_neverAnswers_illegalCommand hw s t d ht hp

/-! ### DivisionByZero -/

/-- DIVREM, DIV and REM test the divisor once both operands are read (R134, R212). -/
theorem faults_division_by_zero {s : State} {rs1 rs2 : Reg} (hh : s.status.halt = false)
    (hr : s.readable [rs1, rs2]) (hb : s.x rs2 = 0) :
    (∀ rd rd2, rd ≠ rd2 → Faults s (exec (.divrem rd rd2 rs1 rs2) s) .divisionByZero) ∧
    (∀ rd, Faults s (exec (.div rd rs1 rs2) s) .divisionByZero) ∧
    (∀ rd, Faults s (exec (.rem rd rs1 rs2) s) .divisionByZero) := by
  refine ⟨fun rd rd2 hne => ?_, fun rd => ?_, fun rd => ?_⟩
  · change Faults s (execDivrem rd rd2 rs1 rs2 s) _
    rw [execDivrem, if_neg hne, unlessHalted_withReg_two hh hr, if_pos hb]
    exact faults_raise _
  · change Faults s (execDiv rd rs1 rs2 s) _
    rw [execDiv, unlessHalted_withReg_two hh hr, if_pos hb]
    exact faults_raise _
  · change Faults s (execRem rd rs1 rs2 s) _
    rw [execRem, unlessHalted_withReg_two hh hr, if_pos hb]
    exact faults_raise _

/-- MODPOW tests the modulus once its operands are read (R190, R212). -/
theorem faults_modpow_by_zero {s : State} {rs1 rs2 rs3 : Reg} (hh : s.status.halt = false)
    (hr : s.readable [rs1, rs2, rs3]) (hm : s.x rs3 = 0) (rd : Reg) :
    Faults s (exec (.modpow rd rs1 rs2 rs3) s) .divisionByZero := by
  obtain ⟨h1, h2, h3⟩ := readable_three hr
  change Faults s (execModpow rd rs1 rs2 rs3 s) _
  rw [execModpow, unlessHalted_of_not hh, withReg_eq h1, withReg_eq h2, withReg_eq h3, if_pos hm]
  exact faults_raise _

/-- Settles O47: the four commands test their divisor, and XGCD has no such test. -/
theorem zeroDivisorFaults : Obligations.ZeroDivisorFaults :=
  ⟨rfl, fun _ _ _ hh hr hb => faults_division_by_zero hh hr hb,
    fun _ rd _ _ _ hh hr hm => faults_modpow_by_zero hh hr hm rd,
    fun _ t rd rd2 rd3 rs1 rs2 d ht =>
      neverAnswers_xgcd (by decide) (by decide) rd rd2 rd3 rs1 rs2 t d ht⟩

/-! ### The halt -/

/-- In halt every port command but a legal RDSR, a word the decoder refuses too, answers Halted and
changes nothing else (R219, R222). -/
theorem runCommand_of_halted {c : Command} {s : State} (hh : s.status.halt = true)
    (hr : ∀ a, decode c = .ok (.rdsr a) → 2 ≤ a.toNat) :
    runCommand c s = .next (s.respond .halted 0) := by
  cases hd : decode c with
  | ok i =>
    rw [runCommand_of_ok hd]
    refine exec_of_halted hh ?_
    rintro a rfl
    exact hr a hd
  | error e => rw [runCommand_of_error hd, unlessHalted_of_halted hh]

/-- In halt a port command only answers (R227). -/
theorem runCommand_respond_of_halt {s : State} (hh : s.status.halt = true) (c : Command) :
    ∃ code d, runCommand c s = .next (s.respond code d) := by
  by_cases hr : ∀ a, decode c = .ok (.rdsr a) → 2 ≤ a.toNat
  · exact ⟨.halted, 0, runCommand_of_halted hh hr⟩
  · push Not at hr
    obtain ⟨a, hd, hlt⟩ := hr
    obtain ⟨d, hexec⟩ := exec_rdsr_of_lt hlt s
    exact ⟨.ok, d, by rw [runCommand_of_ok hd, hexec]⟩

/-- Settles O11: in halt a command only answers, and no other transition but reset touches the
registers or STATUS. -/
theorem haltLastsUntilReset : Obligations.HaltLastsUntilReset := by
  intro s hh
  refine ⟨fun t ht hr => ?_, fun c hr => ⟨_, runCommand_of_halted hh hr, rfl⟩,
    fun rest t hi ht => ?_⟩
  · rcases step_cases ht with ⟨rest, hi, _⟩ | ⟨_, hcmd | haccept | hdeliver | hwait⟩
    · exact absurd (by rw [hi]; rfl) hr
    · obtain ⟨c, actions, _, hrun⟩ := hcmd
      obtain ⟨code, d, hresp⟩ := runCommand_respond_of_halt (s := { s with inputs := actions }) hh c
      rw [hresp] at hrun
      cases hrun
      exact ⟨rfl, rfl⟩
    · obtain ⟨c, rest, _, rfl⟩ := haccept
      exact ⟨rfl, rfl⟩
    · obtain ⟨r, rest, _, rfl⟩ := hdeliver
      exact ⟨rfl, rfl⟩
    · obtain ⟨rest, rfl⟩ := hwait
      exact ⟨rfl, rfl⟩
  · rw [step_reset hi] at ht
    cases ht
    rfl

end Sys2Proof.Machine
end
